-- ==== Sys2Proof/Word.lean ====
section
/-! DEFINITION. The two word types of the core: 32-bit registers and values (00_scope.md R5 "Register width 32 bits",
R7 "every signed value is a 32-bit two's-complement integer") and bytes (20_memory.md R70, R71). -/
namespace Sys2Proof

/-- A register, an address or a signed value. As a signed value it wraps (00_scope.md R7, wrap32): `+`, `-` and `*` of
`BitVec 32` keep the low 32 bits. -/
abbrev Word := BitVec 32

/-- A byte of MEM, a table entry or a sample. -/
abbrev Byte := BitVec 8

end Sys2Proof
end

