-- ==== Sys2Proof/Config.lean ====
section
/-! DEFINITION. What an instance fixes (the parameters of 00_scope.md R5 and 93_implementation_defined.md section 1), the
shape of a Huffman slot, and the free values: opaque constants, of which no proof can know anything. -/
namespace Sys2Proof

/-- IDCT_KERNEL, the OPEN parameter of 00_scope.md R5: "a Butterfly function and a VBIAS value" (43_idct.md R200).
DESIGN CHOICE (log 6): State is plain data, so a kernel other than the default is named by a number, and
`Config.otherButterfly` and `Config.otherVbias` give it its meaning, uninterpreted. -/
inductive IdctKernel where
  /-- KERNEL_K12, the default (43_idct.md R200). -/
  | k12
  /-- Any other kernel. -/
  | other (id : Nat)
  deriving DecidableEq, Repr

/-- CSC_COEF, the OPEN parameter of 46_color.md R261, four 32-bit signed constants at scale 2^16. -/
structure CscCoef where
  rCr : Word
  gCr : Word
  gCb : Word
  bCb : Word
  deriving DecidableEq, Repr

/-- The parameters of one instance: "Parameters are fixed for the life of an instance. No register changes them"
(00_scope.md R5). DESIGN CHOICE (log 5): they are plain data that State carries and no step changes. -/
structure Config where
  /-- MEM_SIZE, 1 ≤ MEM_SIZE ≤ 2^32 (00_scope.md R5). -/
  memSize : Nat
  kernel : IdctKernel
  csc : CscCoef
  /-- ZZ (10_state.md R48), a parameter by 93_implementation_defined.md I-1 (log 24). -/
  zigzag : Vector (Fin 64) 64
  deriving DecidableEq, Repr

/-- The range the spec gives MEM_SIZE (00_scope.md R5). -/
abbrev Config.wf (c : Config) : Prop := 1 ≤ c.memSize ∧ c.memSize ≤ 2 ^ 32

/-- One bound Huffman slot (10_state.md R41). Index arithmetic is exact, so maxcode is a `Nat` and delta an `Int`
(log 28). -/
structure HuffTable where
  /-- n, the number of symbols. -/
  n : Nat
  /-- size[k], k in 0..n-1. -/
  size : List Nat
  /-- values[k], k in 0..n-1. -/
  values : List Byte
  /-- maxcode[L] at index L-1, L in 1..17. -/
  maxcode : List Nat
  /-- delta[L] at index L-1, L in 1..16. -/
  delta : List Int
  /-- fast[i], i in 0..511: a symbol index, or 0xFF. -/
  fast : List Byte
  deriving DecidableEq, Repr

/-- The Butterfly of a kernel other than KERNEL_K12 (43_idct.md R200; log 6): samples and bias to outputs. -/
opaque Config.otherButterfly : Nat → Vector Word 8 → Word → Vector Word 8

/-- The VBIAS of a kernel other than KERNEL_K12 (43_idct.md R200; log 6). -/
opaque Config.otherVbias : Nat → Word

/-- Free value (log 12): the word drawn at a draw number, under a tag that tells apart the words of one draw. -/
opaque Config.freeWord : Nat → Nat → Word

/-- Free value (log 12): 64 words drawn at once (COEF and the IDCT buffer, 10_state.md R51). -/
opaque Config.freeWords : Nat → Vector Word 64

/-- Free value (log 12): the byte drawn at a draw number for a MEM address (20_memory.md R76; 70_reset_and_hazards.md
R310, R311). -/
opaque Config.freeByteAt : Nat → Nat → Byte

/-- Free value (log 15): the Huffman slot after BAD_CODE_LENGTHS, bound or not (60_exceptions.md R288(b)). -/
opaque Config.freeSlot : Nat → Option HuffTable

end Sys2Proof
end

