-- ==== Sys2Proof/Syntax.lean ====
section
/-! DEFINITION. The twelve commands of spec/opcode_table.json with their word fields (30_encoding.md R92, R94). Operands in
ARG registers are no part of the command (30_encoding.md R90). -/
namespace Sys2Proof

/-- FIND_MARKER's field M (40_cursor.md R119). -/
inductive FindMode where
  | strict
  | skip
  deriving DecidableEq, Repr

/-- UPSAMPLE's field M (45_upsample.md R240). -/
inductive UpsampleMode where
  | copy
  | h
  | v
  | hv
  deriving DecidableEq, Repr

/-- COLOR_CONVERT's field M (46_color.md R260). -/
inductive ColorMode where
  | ycc
  | gray
  deriving DecidableEq, Repr

/-- A command, one constructor per row of the opcode table. -/
inductive Instr where
  /-- NOP (40_cursor.md R118). -/
  | nop
  /-- LOAD_DQT (41_tables.md R140). -/
  | loadDqt
  /-- LOAD_DHT (41_tables.md R141). -/
  | loadDht
  /-- START_SCAN (44_scan.md R220). -/
  | startScan
  /-- HUFF_DECODE, T names a slot directly (42_entropy.md R173). -/
  | huffDecode (t : Fin 8)
  /-- RECEIVE, N a 5-bit field of which 0..16 are legal (42_entropy.md R174). -/
  | receive (n : BitVec 5)
  /-- DECODE_BLOCK (42_entropy.md R175). -/
  | decodeBlock (dc ac q c : Fin 4)
  /-- IDCT (43_idct.md R204). -/
  | idct
  /-- END_MCU (44_scan.md R221). -/
  | endMcu
  /-- FIND_MARKER (40_cursor.md R119). -/
  | findMarker (m : FindMode)
  /-- UPSAMPLE (45_upsample.md R240). -/
  | upsample (m : UpsampleMode)
  /-- COLOR_CONVERT (46_color.md R260). -/
  | colorConvert (m : ColorMode)
  deriving DecidableEq, Repr

end Sys2Proof
end

