-- ==== Sys2Proof/WellFormed.lean ====
section
/-! DEFINITION. Which commands are well formed: the one field value that cannot occur is RECEIVE N > 16 (30_encoding.md
R97); every other field's range is its type. -/
namespace Sys2Proof

/-- The field values 30_encoding.md R97 calls legal. -/
def Instr.wellFormed : Instr → Bool
  | .nop => true
  | .loadDqt => true
  | .loadDht => true
  | .startScan => true
  | .huffDecode _ => true
  | .receive n => decide (n.toNat ≤ 16)
  | .decodeBlock _ _ _ _ => true
  | .idct => true
  | .endMcu => true
  | .findMarker _ => true
  | .upsample _ => true
  | .colorConvert _ => true

end Sys2Proof
end

