-- ==== Sys2Proof/Decode.lean ====
section
/-! DEFINITION. The command decoder (30_encoding.md R90–R97), total on words and rejecting by name, then the encoder of the
same layout, the opcode table as data, and the host's `decodeTableWord`. -/
namespace Sys2Proof

/-- Why a word is no command (30_encoding.md R95–R97). -/
inductive Illegal where
  /-- R95: the opcode is in 0x0C–0xFF. -/
  | reservedOpcode
  /-- R96: a reserved bit is 1. -/
  | reservedBit
  /-- R97: a field value cannot occur. -/
  | fieldRange
  deriving DecidableEq, Repr

/-- The FAULT_INFO of each reason (60_exceptions.md R283). -/
def Illegal.info : Illegal → Word
  | .reservedOpcode => 1
  | .reservedBit => 2
  | .fieldRange => 3

/-- `w[lo+len-1:lo]` (00_scope.md R6). -/
def wordField (w : Word) (lo len : Nat) : BitVec len := w.extractLsb' lo len

/-- FIND_MARKER's mode (30_encoding.md R92, F_FIND). -/
def findModeOf (b : BitVec 1) : FindMode := if b = 0 then .strict else .skip

/-- UPSAMPLE's mode (30_encoding.md R92, F_UPS). -/
def upsampleModeOf (b : BitVec 2) : UpsampleMode :=
  if b = 0 then .copy else if b = 1 then .h else if b = 2 then .v else .hv

/-- COLOR_CONVERT's mode (30_encoding.md R92, F_CSC). -/
def colorModeOf (b : BitVec 1) : ColorMode := if b = 0 then .ycc else .gray

/-- R94: a word with the opcode `op` is the command exactly when `w AND mask` is `op`; otherwise a reserved bit is set. -/
def checkReserved (w mask op : Word) (i : Instr) : Except Illegal Instr :=
  if w &&& mask = op then .ok i else .error .reservedBit

/-- The RECEIVE word (30_encoding.md R97): reserved bits before the field's range (60_exceptions.md R283). -/
def decodeReceive (w : Word) : Except Illegal Instr :=
  if w &&& 0xFFFFE0FF = 0x05 then
    if (wordField w 8 5).toNat ≤ 16 then .ok (.receive (wordField w 8 5)) else .error .fieldRange
  else .error .reservedBit

/-- Decodes a command word (30_encoding.md R91, R94–R97): the opcode first, then the reserved bits, then the fields. -/
def decode (w : Word) : Except Illegal Instr :=
  match (wordField w 0 8).toNat with
  | 0x00 => checkReserved w 0xFFFFFFFF 0x00 .nop
  | 0x01 => checkReserved w 0xFFFFFFFF 0x01 .loadDqt
  | 0x02 => checkReserved w 0xFFFFFFFF 0x02 .loadDht
  | 0x03 => checkReserved w 0xFFFFFFFF 0x03 .startScan
  | 0x04 => checkReserved w 0xFFFFF8FF 0x04 (.huffDecode (wordField w 8 3).toFin)
  | 0x05 => decodeReceive w
  | 0x06 => checkReserved w 0xFFFF00FF 0x06
      (.decodeBlock (wordField w 8 2).toFin (wordField w 10 2).toFin (wordField w 12 2).toFin (wordField w 14 2).toFin)
  | 0x07 => checkReserved w 0xFFFFFFFF 0x07 .idct
  | 0x08 => checkReserved w 0xFFFFFFFF 0x08 .endMcu
  | 0x09 => checkReserved w 0xFFFFFEFF 0x09 (.findMarker (findModeOf (wordField w 8 1)))
  | 0x0A => checkReserved w 0xFFFFFCFF 0x0A (.upsample (upsampleModeOf (wordField w 8 2)))
  | 0x0B => checkReserved w 0xFFFFFEFF 0x0B (.colorConvert (colorModeOf (wordField w 8 1)))
  | _ => .error .reservedOpcode

/-- The value of FIND_MARKER's field M. -/
def FindMode.bits : FindMode → Nat
  | .strict => 0
  | .skip => 1

/-- The value of UPSAMPLE's field M. -/
def UpsampleMode.bits : UpsampleMode → Nat
  | .copy => 0
  | .h => 1
  | .v => 2
  | .hv => 3

/-- The value of COLOR_CONVERT's field M. -/
def ColorMode.bits : ColorMode → Nat
  | .ycc => 0
  | .gray => 1

/-- `OP | (field << position)` with one field at bit 8 (30_encoding.md R100). -/
def encodeField (op field : Nat) : Word := BitVec.ofNat 32 op ||| (BitVec.ofNat 32 field <<< 8)

/-- The word of a command: OP | (field << position) for each field of R92 (30_encoding.md R100). -/
def encode : Instr → Word
  | .nop => 0x00
  | .loadDqt => 0x01
  | .loadDht => 0x02
  | .startScan => 0x03
  | .huffDecode t => encodeField 0x04 t.val
  | .receive n => encodeField 0x05 n.toNat
  | .decodeBlock dc ac q c =>
      encodeField 0x06 dc.val ||| (BitVec.ofNat 32 ac.val <<< 10) ||| (BitVec.ofNat 32 q.val <<< 12)
        ||| (BitVec.ofNat 32 c.val <<< 14)
  | .idct => 0x07
  | .endMcu => 0x08
  | .findMarker m => encodeField 0x09 m.bits
  | .upsample m => encodeField 0x0A m.bits
  | .colorConvert m => encodeField 0x0B m.bits

/-- A row of the opcode table: a word is that command exactly when (w AND mask) = match (30_encoding.md R94). -/
structure OpcodeRow where
  mnemonic : String
  mask : Word
  pattern : Word
  deriving DecidableEq, Repr

/-- spec/opcode_table.json, row by row. -/
def opcodeTable : List OpcodeRow :=
  [⟨"NOP", 0xFFFFFFFF, 0x00⟩, ⟨"LOAD_DQT", 0xFFFFFFFF, 0x01⟩, ⟨"LOAD_DHT", 0xFFFFFFFF, 0x02⟩,
   ⟨"START_SCAN", 0xFFFFFFFF, 0x03⟩, ⟨"HUFF_DECODE", 0xFFFFF8FF, 0x04⟩, ⟨"RECEIVE", 0xFFFFE0FF, 0x05⟩,
   ⟨"DECODE_BLOCK", 0xFFFF00FF, 0x06⟩, ⟨"IDCT", 0xFFFFFFFF, 0x07⟩, ⟨"END_MCU", 0xFFFFFFFF, 0x08⟩,
   ⟨"FIND_MARKER", 0xFFFFFEFF, 0x09⟩, ⟨"UPSAMPLE", 0xFFFFFCFF, 0x0A⟩, ⟨"COLOR_CONVERT", 0xFFFFFEFF, 0x0B⟩]

/-- The mnemonic of a command (30_encoding.md R94). -/
def Instr.mnemonic : Instr → String
  | .nop => "NOP"
  | .loadDqt => "LOAD_DQT"
  | .loadDht => "LOAD_DHT"
  | .startScan => "START_SCAN"
  | .huffDecode _ => "HUFF_DECODE"
  | .receive _ => "RECEIVE"
  | .decodeBlock _ _ _ _ => "DECODE_BLOCK"
  | .idct => "IDCT"
  | .endMcu => "END_MCU"
  | .findMarker _ => "FIND_MARKER"
  | .upsample _ => "UPSAMPLE"
  | .colorConvert _ => "COLOR_CONVERT"

/-- The assembly line of a command (30_encoding.md R100). -/
def Instr.assembly : Instr → String
  | .nop => "NOP"
  | .loadDqt => "LOAD_DQT"
  | .loadDht => "LOAD_DHT"
  | .startScan => "START_SCAN"
  | .idct => "IDCT"
  | .endMcu => "END_MCU"
  | .huffDecode t => "HUFF_DECODE t=" ++ toString t.val
  | .receive n => "RECEIVE n=" ++ toString n.toNat
  | .decodeBlock dc ac q c =>
      "DECODE_BLOCK dc=" ++ toString dc.val ++ ", ac=" ++ toString ac.val ++ ", q=" ++ toString q.val
        ++ ", c=" ++ toString c.val
  | .findMarker .strict => "FIND_MARKER mode=strict"
  | .findMarker .skip => "FIND_MARKER mode=skip"
  | .upsample .copy => "UPSAMPLE mode=copy"
  | .upsample .h => "UPSAMPLE mode=h"
  | .upsample .v => "UPSAMPLE mode=v"
  | .upsample .hv => "UPSAMPLE mode=hv"
  | .colorConvert .ycc => "COLOR_CONVERT mode=ycc"
  | .colorConvert .gray => "COLOR_CONVERT mode=gray"

/-- The command word of an instruction given as the opcode table numbers its bits: every command is one 32-bit word
(30_encoding.md R90), so the bits are the word's own, those at `nbits` and above zero. -/
def tableWord (nbits w : Nat) : Word := BitVec.ofNat 32 (w % 2 ^ nbits)

/-- What the decoder reads from the bits `w` of a table row of `nbits` bits. -/
def decodeTableWord (nbits w : Nat) : Option Instr :=
  match decode (tableWord nbits w) with
  | .ok i => some i
  | .error _ => none

end Sys2Proof
end

