-- ==== Sys2Proof/Machine/Rom.lean ====
section
/-! DEFINITION. The constants of the core and the default parameters: the zigzag ROM (10_state.md R48), the ID value
(10_state.md R21), HBIAS and the K12 rounding term (43_idct.md R200, R203), CSC_COEF's default (46_color.md R261). -/
namespace Sys2Proof.Machine

/-- ZZ, the zigzag-to-natural table (10_state.md R48). -/
def zigzagTable : Vector (Fin 64) 64 :=
  #v[0, 1, 8, 16, 9, 2, 3, 10, 17, 24, 32, 25, 18, 11, 4, 5,
     12, 19, 26, 33, 40, 48, 41, 34, 27, 20, 13, 6, 7, 14, 21, 28,
     35, 42, 49, 56, 57, 50, 43, 36, 29, 22, 15, 23, 30, 37, 44, 51,
     58, 59, 52, 45, 38, 31, 39, 46, 53, 60, 61, 54, 47, 55, 62, 63]

/-- The ID register (10_state.md R21). -/
def idValue : Word := 0x4A504701

/-- HBIAS = 257 << 16 (43_idct.md R203; 90_conflicts.md C1). -/
def hbias : Word := 16842752

/-- VBIAS of KERNEL_K12 (43_idct.md R200). -/
def vbiasK12 : Word := 512

/-- The default CSC_COEF (46_color.md R261). -/
def defaultCsc : CscCoef := ⟨91881, 46793, 22544, 116130⟩

/-- The parameters `State.reset` has: the defaults of 00_scope.md R5. DESIGN CHOICE (log 5): MEM_SIZE is OPEN, and 0x1000
is the size 95_test_vectors.md works with. -/
def defaultConfig : Config := ⟨0x1000, .k12, defaultCsc, zigzagTable⟩

end Sys2Proof.Machine
end

