-- ==== Sys2Proof/Machine/State.lean ====
section
/-! DEFINITION. Everything the spec gives the machine (10_state.md R20–R52), as plain data, with the host's accesses still to
be made (00_scope.md R9, R10), and the state right after reset (10_state.md R51). -/
namespace Sys2Proof.Machine

/-- The fault names of 60_exceptions.md R281. These are the core's own faults: they end a command in a NEXT state. -/
inductive FaultName where
  | illegalCommand
  | addrRange
  | streamExhausted
  | badHuffmanCode
  | badCodeLengths
  | badDht
  | badDqt
  | unboundTable
  | unsupportedPrecision
  deriving DecidableEq, Repr

/-- `raise CODE(info)` (00_scope.md R8): what a command hands to the fault entry. -/
structure Raised where
  code : FaultName
  info : Word
  deriving DecidableEq, Repr

/-- The width of a host register access: only `word` at an aligned offset is defined (10_state.md R20; log 23). -/
inductive AccessSize where
  | byte
  | half
  | word
  deriving DecidableEq, Repr

/-- One thing the host does (00_scope.md R9; 70_reset_and_hazards.md R322). -/
inductive HostOp where
  /-- A register write; a write to CMD offers a command (10_state.md R20, R24). -/
  | regWrite (size : AccessSize) (off : BitVec 9) (v : Word)
  /-- A register read, whose value lands in `hostRegData`. -/
  | regRead (size : AccessSize) (off : BitVec 9)
  /-- A write of `n` bytes of `v`, little-endian, from MEM address `a` on (20_memory.md R73). -/
  | memWrite (a : Word) (n v : Nat)
  /-- A read of `n` bytes, little-endian, whose value lands in `hostMemData` (20_memory.md R73). -/
  | memRead (a : Word) (n : Nat)
  /-- The pin `rst_n` is driven to a level; `false` is the hard reset (70_reset_and_hazards.md R310). -/
  | rstN (level : Bool)
  /-- WAIT (30_encoding.md R101): the host polls, and a running command comes to its end. -/
  | wait
  deriving DecidableEq, Repr

/-- What a MEM byte that nothing has written reads as. -/
inductive Fill where
  /-- 0x00. DESIGN CHOICE (log 9), unsafe: MEM at `State.reset`. -/
  | zero
  /-- Any value, drawn at this draw number (log 10): MEM after a hard reset (70_reset_and_hazards.md R310). -/
  | drawn (d : Nat)
  deriving DecidableEq, Repr

/-- MEM (20_memory.md R70): the bytes that differ from what an unlisted address reads as, addresses rising. -/
structure Memory where
  cells : List Host.Cell
  fill : Fill
  deriving DecidableEq, Repr

/-- The bit cursor (10_state.md R44) with the stream position it is fed from (R30). -/
structure Cursor where
  /-- BITBUF (R32). -/
  bitbuf : Word
  /-- BITCNT (R33). -/
  bitcnt : BitVec 5
  /-- STATUS.NOMORE (R23). -/
  nomore : Bool
  /-- MARKER.VALID, the same bit as STATUS.MARKER_VALID (R34). -/
  markerValid : Bool
  /-- MARKER.CODE (R34). -/
  markerCode : Byte
  /-- BS_PTR (R30). -/
  bsPtr : Word
  deriving DecidableEq, Repr

/-- Why the machine stops. No command ends in one: the spec's own faults are next states (60_exceptions.md R288). -/
inductive Fault where
  /-- Raised by the host's MEM port for an address at or above MEM_SIZE, which does not exist (20_memory.md R70;
  70_reset_and_hazards.md R322 "stay below MEM_SIZE"). Safe: the run stops (log 20). -/
  | memPortRange (addr : Nat)
  deriving DecidableEq, Repr

/-- What the model has no meaning for. -/
inductive Refusal where
  /-- Answered by `exec` for a command that has no meaning yet. Safe. No arm answers it. -/
  | notModelled (mnemonic : String)
  /-- Answered by the host's MEM port while BUSY = 1, for which the spec gives "no move" (70_reset_and_hazards.md R317;
  93_implementation_defined.md I-25). Safe (log 20). -/
  | memWhileBusy
  /-- Answered for a host MEM access or register read while `rst_n` = 0, which the spec leaves without a result
  (70_reset_and_hazards.md R322). Safe (log 21). -/
  | accessInReset
  deriving DecidableEq, Repr

/-- The whole machine. -/
structure State where
  /-- The parameters (00_scope.md R5); no step changes them (log 5). -/
  config : Config
  /-- The MODEL's own: the host's accesses still to be made, first one first (log 1). -/
  host : List HostOp
  /-- The MODEL's own: how many times free values have been drawn (log 12). -/
  draws : Nat
  /-- The MODEL's own: what the host's last register read returned (log 19). -/
  hostRegData : Word
  /-- The MODEL's own: what the host's last MEM read returned (log 20). -/
  hostMemData : Nat
  /-- The pin rst_n (00_scope.md R9; 70_reset_and_hazards.md R310). -/
  rstN : Bool
  /-- CTRL.IRQ_EN (10_state.md R22). -/
  irqEn : Bool
  /-- STATUS.BUSY (10_state.md R23). -/
  busy : Bool
  /-- STATUS.DONE (10_state.md R23). -/
  done : Bool
  /-- STATUS.FAULT (10_state.md R23). -/
  fault : Bool
  /-- STATUS.OVERRUN (10_state.md R23). -/
  overrun : Bool
  /-- STATUS.SCAN_END (10_state.md R23). -/
  scanEnd : Bool
  /-- CMD_LAST, the last accepted command word (10_state.md R24). -/
  cmdLast : Word
  /-- RESULT (10_state.md R25). -/
  result : Word
  /-- FAULT_CODE (10_state.md R26). -/
  faultCode : Word
  /-- FAULT_INFO (10_state.md R27). -/
  faultInfo : Word
  /-- FAULT_CMD (10_state.md R28). -/
  faultCmd : Word
  /-- ARG0–ARG7 (10_state.md R29). -/
  args : Vector Word 8
  /-- BS_END (10_state.md R31). -/
  bsEnd : Word
  /-- The bit cursor and BS_PTR (10_state.md R30, R32–R34, R44). -/
  cur : Cursor
  /-- RI (10_state.md R35). -/
  ri : BitVec 16
  /-- TODO (10_state.md R36). -/
  todo : BitVec 16
  /-- HT[0..7], `none` the unbound slot (10_state.md R37, R41; log 18). -/
  ht : Vector (Option HuffTable) 8
  /-- QT[0..3], `none` the unbound slot (10_state.md R37, R43; log 18). -/
  qt : Vector (Option (Vector Byte 64)) 4
  /-- DCPRED[0..3] (10_state.md R38, R46). -/
  dcpred : Vector Word 4
  /-- COEF[0..63] (10_state.md R39, R47). -/
  coef : Vector Word 64
  /-- V[0..63], the IDCT intermediate buffer (43_idct.md R202; 10_state.md R51; log 8). -/
  idctBuf : Vector Word 64
  /-- MEM (20_memory.md R70). -/
  mem : Memory
  deriving DecidableEq, Repr

/-- The bit cursor after reset (10_state.md R44, R51) at BS_PTR = 0. -/
def Cursor.reset : Cursor := ⟨0, 0, false, false, 0xFF, 0⟩

/-- The machine right after reset (10_state.md R51). COEF and V are 0 by DESIGN CHOICE (log 7, log 8), MEM lists nothing
(log 9), the parameters are the defaults (log 5), and the host has made no access. -/
def State.reset : State where
  config := defaultConfig
  host := []
  draws := 0
  hostRegData := 0
  hostMemData := 0
  rstN := true
  irqEn := false
  busy := false
  done := false
  fault := false
  overrun := false
  scanEnd := false
  cmdLast := 0
  result := 0
  faultCode := 0
  faultInfo := 0
  faultCmd := 0
  args := Vector.replicate 8 0
  bsEnd := 0
  cur := Cursor.reset
  ri := 0
  todo := 0
  ht := Vector.replicate 8 none
  qt := Vector.replicate 4 none
  dcpred := Vector.replicate 4 0
  coef := Vector.replicate 64 0
  idctBuf := Vector.replicate 64 0
  mem := ⟨[], .zero⟩

end Sys2Proof.Machine
end

