-- ==== Sys2Proof/Machine/Ops.lean ====
section
/-! DEFINITION. The named operations over memory and registers: MEM bytes in their canonical form (20_memory.md R70),
footprints and their range check (R75), overlap (R76), how a command ends (00_scope.md R8), the fault entry
(60_exceptions.md R288) and the reset of the registers (10_state.md R51), which is the only return from a fault (R290). -/
namespace Sys2Proof.Machine

/-! ### MEM bytes -/

/-- What an unlisted address reads as (log 9, log 10). -/
def Memory.unlisted (m : Memory) (a : Nat) : Byte :=
  match m.fill with
  | .zero => 0
  | .drawn d => Config.freeByteAt d a

/-- The byte listed for an address, or `d`. -/
def lookupCell (d : Byte) (a : Nat) : List Host.Cell → Byte
  | [] => d
  | c :: cs => if c.1 = a then c.2 else lookupCell d a cs

/-- Lists a byte at its place among rising addresses. -/
def insertCell (a : Nat) (v : Byte) : List Host.Cell → List Host.Cell
  | [] => [(a, v)]
  | c :: cs => if a < c.1 then (a, v) :: c :: cs else c :: insertCell a v cs

/-- `MemRead(a, 1)` (20_memory.md R70). -/
def Memory.read (m : Memory) (a : Nat) : Byte := lookupCell (m.unlisted a) a m.cells

/-- `MemWrite(a, 1, v)` (20_memory.md R70), keeping the canonical form. -/
def Memory.write (m : Memory) (a : Nat) (v : Byte) : Memory :=
  let others := m.cells.filter (fun c => c.1 != a)
  { m with cells := if v = m.unlisted a then others else insertCell a v others }

/-- The canonical form: addresses strictly rising, no entry equal to what an unlisted address reads as. -/
def Memory.wf (m : Memory) : Bool :=
  decide (m.cells.Pairwise (fun c d => c.1 < d.1)) && m.cells.all (fun c => c.2 != m.unlisted c.1)

/-- Byte writes in the order given (20_memory.md R78). -/
def Memory.writeAll (m : Memory) : List (Nat × Byte) → Memory
  | [] => m
  | w :: ws => (m.write w.1 w.2).writeAll ws

/-- The same writes with every byte any value (20_memory.md R76, first case; log 16). -/
def drawnBytes (d : Nat) (ws : List (Nat × Byte)) : List (Nat × Byte) :=
  ws.map (fun w => (w.1, Config.freeByteAt d w.1))

/-- How many of the writes name an address. -/
def writeCount (ws : List (Nat × Byte)) (a : Nat) : Nat := ws.countP (fun w => w.1 == a)

/-- The same writes with any value in each byte that they name more than once (70_reset_and_hazards.md R320,
93_implementation_defined.md I-12; log 17). A byte named once keeps its value. -/
def overlapBytes (d : Nat) (ws : List (Nat × Byte)) : List (Nat × Byte) :=
  ws.map (fun w => if writeCount ws w.1 ≤ 1 then w else (w.1, Config.freeByteAt d w.1))

/-! ### Footprints -/

/-- Byte address ranges [base + y·stride, base + y·stride + len) for y in 0..count-1, in unbounded integers
(20_memory.md R75). -/
structure Rows where
  base : Nat
  stride : Nat
  len : Nat
  count : Nat
  deriving DecidableEq, Repr

/-- The address of column x of row y. -/
def Rows.addr (r : Rows) (y x : Nat) : Nat := r.base + y * r.stride + x

/-- Every address of the ranges, row by row. -/
def Rows.addresses (r : Rows) : List Nat :=
  (List.range r.count).flatMap (fun y => (List.range r.len).map (fun x => r.addr y x))

/-- The lowest address at or above `memSize` of row y, if it has one. -/
def Rows.rowOut (r : Rows) (memSize y : Nat) : Option Nat :=
  if r.len = 0 ∨ r.addr y 0 + r.len ≤ memSize then none else some (max (r.addr y 0) memSize)

/-- The lowest address at or above `memSize` of several footprints (20_memory.md R75). -/
def lowestOut (memSize : Nat) (rs : List Rows) : Option Nat :=
  (rs.flatMap (fun r => (List.range r.count).filterMap (r.rowOut memSize))).min?

/-- The footprint check (20_memory.md R75): ADDR_RANGE with the lowest out-of-range address modulo 2^32. -/
def checkFootprint (s : State) (rs : List Rows) : Option Raised :=
  (lowestOut s.config.memSize rs).map (fun a => ⟨.addrRange, BitVec.ofNat 32 a⟩)

/-- Two ranges share an address. -/
def rangesMeet (a la b lb : Nat) : Bool :=
  decide (0 < la) && decide (0 < lb) && decide (a < b + lb) && decide (b < a + la)

/-- Two footprints share an address. -/
def Rows.meets (r q : Rows) : Bool :=
  (List.range r.count).any (fun y => (List.range q.count).any (fun z => rangesMeet (r.addr y 0) r.len (q.addr z 0) q.len))

/-- A footprint's rows share an address: it is enough that neighbouring rows do. -/
def Rows.selfMeets (r : Rows) : Bool := decide (1 < r.count) && decide (r.stride < r.len)

/-- The MEM writes of a command whose footprint check has passed (20_memory.md R76, R78): in order; any value in every
byte where what it reads meets what it writes, and in each byte written more than once where the destination meets itself
(log 16, log 17). -/
def storeRows (reads : List Rows) (dest : Rows) (ws : List (Nat × Byte)) (s : State) : State :=
  if reads.any (fun r => r.meets dest) then
    { s with mem := s.mem.writeAll (drawnBytes s.draws ws), draws := s.draws + 1 }
  else if dest.selfMeets then
    { s with mem := s.mem.writeAll (overlapBytes s.draws ws), draws := s.draws + 1 }
  else { s with mem := s.mem.writeAll ws }

/-! ### How a command ends -/

/-- `complete(result)` (00_scope.md R8). -/
def complete (r : Word) (s : State) : State := { s with result := r, busy := false, done := true }

/-- CODE of a fault name (60_exceptions.md R281). -/
def FaultName.code : FaultName → Nat
  | .illegalCommand => 0x01
  | .addrRange => 0x02
  | .streamExhausted => 0x03
  | .badHuffmanCode => 0x04
  | .badCodeLengths => 0x05
  | .badDht => 0x06
  | .badDqt => 0x07
  | .unboundTable => 0x08
  | .unsupportedPrecision => 0x09

/-- CATEGORY of a fault name (60_exceptions.md R281). -/
def FaultName.category : FaultName → Nat
  | .illegalCommand => 5
  | .addrRange => 5
  | .streamExhausted => 3
  | .badHuffmanCode => 4
  | .badCodeLengths => 1
  | .badDht => 1
  | .badDqt => 1
  | .unboundTable => 1
  | .unsupportedPrecision => 2

/-- The value FAULT_CODE takes: CATEGORY << 8 | CODE (60_exceptions.md R288). -/
def FaultName.word (f : FaultName) : Word := BitVec.ofNat 32 (f.category * 256 + f.code)

/-- Taking a fault: `raise CODE(info)` does exactly this (60_exceptions.md R288). -/
def faultEntry (r : Raised) (s : State) : State :=
  { s with faultCode := r.code.word, faultInfo := r.info, faultCmd := s.cmdLast, fault := true, busy := false }

/-- A bit cursor of any value (60_exceptions.md R288(c); log 13). -/
def freeCursor (d : Nat) : Cursor where
  bitbuf := Config.freeWord d 0
  bitcnt := (Config.freeWord d 1).setWidth 5
  nomore := (Config.freeWord d 2).getLsbD 0
  markerValid := (Config.freeWord d 3).getLsbD 0
  markerCode := (Config.freeWord d 4).setWidth 8
  bsPtr := Config.freeWord d 5

/-- A stream or Huffman fault (60_exceptions.md R288(c)): BITBUF, BITCNT, BS_PTR, MARKER, STATUS.NOMORE and RESULT are any
value, everything else is as before the command (log 13). -/
def streamFault (r : Raised) (s : State) : State :=
  faultEntry r { s with cur := freeCursor s.draws, result := Config.freeWord s.draws 6, draws := s.draws + 1 }

/-- A stream or Huffman fault of DECODE_BLOCK (60_exceptions.md R288(c)): COEF and DCPRED[C] are any value too (log 13). -/
def blockFault (r : Raised) (c : Fin 4) (s : State) : State :=
  faultEntry r
    { s with
      cur := freeCursor s.draws
      result := Config.freeWord s.draws 6
      dcpred := s.dcpred.set c (Config.freeWord s.draws 7)
      coef := Config.freeWords s.draws
      draws := s.draws + 1 }

/-! ### Reset -/

/-- Every register, flag and table slot at its value of 10_state.md R51; COEF and V any value (log 10). MEM is the
caller's. -/
def resetRegisters (s : State) : State :=
  { s with
    irqEn := false, busy := false, done := false, fault := false, overrun := false, scanEnd := false
    cmdLast := 0, result := 0, faultCode := 0, faultInfo := 0, faultCmd := 0
    args := Vector.replicate 8 0
    bsEnd := 0, cur := Cursor.reset, ri := 0, todo := 0
    ht := Vector.replicate 8 none
    qt := Vector.replicate 4 none
    dcpred := Vector.replicate 4 0
    coef := Config.freeWords s.draws
    idctBuf := Config.freeWords (s.draws + 1)
    draws := s.draws + 2 }

/-- The hard reset, rst_n = 0 (70_reset_and_hazards.md R310): MEM is any value afterwards (log 10). -/
def hardReset (s : State) : State :=
  { resetRegisters s with
    rstN := false
    mem := ⟨[], .drawn (resetRegisters s).draws⟩
    draws := (resetRegisters s).draws + 1 }

end Sys2Proof.Machine
end

