-- ==== Sys2Proof/Machine/Operands.lean ====
section
/-! DEFINITION. Operand assembly (30_encoding.md R92, R93): the ARG registers of each format, the table slots a block names,
and the MEM footprint of each command (20_memory.md R75). ARGs cannot change while a command runs (10_state.md R20), so the
values latched at acceptance (20_memory.md R81) are the registers' own (log 3). -/
namespace Sys2Proof.Machine

/-- ARG<i> as an unsigned number. -/
def argNat (s : State) (i : Fin 8) : Nat := (s.args.get i).toNat

/-- ARG<i>[15:0]. -/
def argLow (s : State) (i : Fin 8) : Nat := ((s.args.get i).extractLsb' 0 16).toNat

/-- ARG<i>[31:16]. -/
def argHigh (s : State) (i : Fin 8) : Nat := ((s.args.get i).extractLsb' 16 16).toNat

/-- DC selects HT[DC] (30_encoding.md R93). -/
def dcSlot (dc : Fin 4) : Fin 8 := Fin.ofNat 8 dc.val

/-- AC selects HT[4 + AC] (30_encoding.md R93). -/
def acSlot (ac : Fin 4) : Fin 8 := Fin.ofNat 8 (4 + ac.val)

/-- The slot of a record: class·4 + id (41_tables.md R146). -/
def recordSlot (tc th : Nat) : Fin 8 := Fin.ofNat 8 (tc * 4 + th)

/-- The write footprint of IDCT (43_idct.md R204): ARG0 the destination, ARG1[15:0] the row stride. -/
def idctRows (s : State) : Rows := ⟨argNat s 0, argLow s 1, 8, 8⟩

/-- UPSAMPLE's width factor (45_upsample.md R240, ow). -/
def UpsampleMode.xFactor : UpsampleMode → Nat
  | .copy => 1
  | .h => 2
  | .v => 1
  | .hv => 2

/-- UPSAMPLE's height factor (45_upsample.md R240, oh). -/
def UpsampleMode.yFactor : UpsampleMode → Nat
  | .copy => 1
  | .h => 1
  | .v => 2
  | .hv => 2

/-- The read footprint of UPSAMPLE (45_upsample.md R240): S, ss, w, h. -/
def upsampleReads (s : State) : Rows := ⟨argNat s 0, argLow s 2, argLow s 3, argHigh s 3⟩

/-- The write footprint of UPSAMPLE (45_upsample.md R240): D, ds, ow, oh. -/
def upsampleRows (m : UpsampleMode) (s : State) : Rows :=
  ⟨argNat s 1, argHigh s 2, argLow s 3 * UpsampleMode.xFactor m, argHigh s 3 * UpsampleMode.yFactor m⟩

/-- The Y plane of COLOR_CONVERT (46_color.md R260): PY, ys, w, h. -/
def lumaRows (s : State) : Rows := ⟨argNat s 0, argLow s 5, argLow s 4, argHigh s 4⟩

/-- The Cb plane of COLOR_CONVERT: PCb, cs, w, h. -/
def cbRows (s : State) : Rows := ⟨argNat s 1, argHigh s 5, argLow s 4, argHigh s 4⟩

/-- The Cr plane of COLOR_CONVERT: PCr, cs, w, h. -/
def crRows (s : State) : Rows := ⟨argNat s 2, argHigh s 5, argLow s 4, argHigh s 4⟩

/-- The read footprints of COLOR_CONVERT: gray mode neither reads nor checks the chroma planes (46_color.md R260). -/
def colorReads (m : ColorMode) (s : State) : List Rows :=
  match m with
  | .ycc => [lumaRows s, cbRows s, crRows s]
  | .gray => [lumaRows s]

/-- The write footprint of COLOR_CONVERT: PO, os (32 bits), 4·w bytes a row, h (46_color.md R260). -/
def colorRows (s : State) : Rows := ⟨argNat s 3, argNat s 6, 4 * argLow s 4, argHigh s 4⟩

/-- What a command with a MEM write footprint reads and writes; `none` for a command that writes no MEM
(70_reset_and_hazards.md R311). -/
def writerFootprint (i : Instr) (s : State) : Option (List Rows × Rows) :=
  match i with
  | .nop => none
  | .loadDqt => none
  | .loadDht => none
  | .startScan => none
  | .huffDecode _ => none
  | .receive _ => none
  | .decodeBlock _ _ _ _ => none
  | .idct => some ([], idctRows s)
  | .endMcu => none
  | .findMarker _ => none
  | .upsample m => some ([upsampleReads s], upsampleRows m s)
  | .colorConvert m => some (colorReads m s, colorRows s)

/-- Aborting the running command (70_reset_and_hazards.md R311): each MEM byte of its write footprint is any value. A
command whose footprint check fails writes no MEM byte (20_memory.md R75), so it has none (log 11). -/
def abortCommand (i : Instr) (s : State) : State :=
  match writerFootprint i s with
  | none => s
  | some (reads, dest) =>
    match checkFootprint s (reads ++ [dest]) with
    | some _ => s
    | none =>
      { s with
        mem := s.mem.writeAll (dest.addresses.map (fun a => (a, Config.freeByteAt s.draws a)))
        draws := s.draws + 1 }

/-- The soft reset (70_reset_and_hazards.md R311): a running command is aborted, then every register is at its reset value;
the rest of MEM is unchanged. -/
def softReset (s : State) : State :=
  if s.busy then
    match decode s.cmdLast with
    | .ok i => resetRegisters (abortCommand i s)
    | .error _ => resetRegisters s
  else resetRegisters s

end Sys2Proof.Machine
end

