-- ==== Sys2Proof/Machine/Idct.lean ====
section
/-! DEFINITION. The fixed-point 2D IDCT (43_idct.md R200–R205). All arithmetic is on 32-bit words and wraps (00_scope.md R7);
`>>` is the arithmetic shift. -/
namespace Sys2Proof.Machine

/-- Butterfly of KERNEL_K12 (43_idct.md R200), with the 12-bit-scaled constants written out. -/
def butterflyK12 (s : Vector Word 8) (bias : Word) : Vector Word 8 :=
  let p1 := (s[2] + s[6]) * 2217
  let t2 := p1 + s[6] * (-7567)
  let t3 := p1 + s[2] * 3135
  let t0 := (s[0] + s[4]) * 4096
  let t1 := (s[0] - s[4]) * 4096
  let x0 := t0 + t3 + bias
  let x3 := t0 - t3 + bias
  let x1 := t1 + t2 + bias
  let x2 := t1 - t2 + bias
  let q3 := s[7] + s[3]
  let q4 := s[5] + s[1]
  let q1 := s[7] + s[1]
  let q2 := s[5] + s[3]
  let p5 := (q3 + q4) * 4816
  let u0 := s[7] * 1223
  let u1 := s[5] * 8410
  let u2 := s[3] * 12586
  let u3 := s[1] * 6149
  let r1 := p5 + q1 * (-3685)
  let r2 := p5 + q2 * (-10497)
  let r3 := q3 * (-8034)
  let r4 := q4 * (-1597)
  let w3 := u3 + (r1 + r4)
  let w2 := u2 + (r2 + r3)
  let w1 := u1 + (r2 + r4)
  let w0 := u0 + (r1 + r3)
  #v[x0 + w3, x1 + w2, x2 + w1, x3 + w0, x3 - w0, x2 - w1, x1 - w2, x0 - w3]

/-- The Butterfly of a kernel (43_idct.md R200; log 6). -/
def butterfly (k : IdctKernel) (s : Vector Word 8) (bias : Word) : Vector Word 8 :=
  match k with
  | .k12 => butterflyK12 s bias
  | .other n => Config.otherButterfly n s bias

/-- VBIAS of a kernel (43_idct.md R200; log 6). -/
def vbias (k : IdctKernel) : Word :=
  match k with
  | .k12 => vbiasK12
  | .other n => Config.otherVbias n

/-- Entry 8·r + c of an 8×8 block. -/
def blockAt {α : Type} (b : Vector α 64) (r c : Nat) : α := b.get (Fin.ofNat 64 (8 * r + c))

/-- Column `i` of a block, top to bottom. -/
def blockColumn {α : Type} (b : Vector α 64) (i : Nat) : Vector α 8 := Vector.ofFn (fun r : Fin 8 => blockAt b r.val i)

/-- Row `r` of a block, left to right. -/
def blockRow {α : Type} (b : Vector α 64) (r : Nat) : Vector α 8 := Vector.ofFn (fun c : Fin 8 => blockAt b r c.val)

/-- The vertical pass (43_idct.md R201): the butterfly of each column, shifted right by 10. -/
def verticalPass (k : IdctKernel) (coef : Vector Word 64) : Vector Word 64 :=
  let cols : Vector (Vector Word 8) 8 := Vector.ofFn (fun i : Fin 8 => butterfly k (blockColumn coef i.val) (vbias k))
  Vector.ofFn (fun j : Fin 64 => ((cols.get (Fin.ofNat 8 j.val)).get (Fin.ofNat 8 (j.val / 8))).sshiftRight 10)

/-- clamp(x, 0, 255) of a signed value, as a byte (00_scope.md R7). -/
def clampByte (x : Word) : Byte :=
  if x.toInt < 0 then 0 else if 255 < x.toInt then 255 else x.setWidth 8

/-- The horizontal pass (43_idct.md R203): the butterfly of each row of V with HBIAS, shifted right by 17, clamped. -/
def horizontalPass (k : IdctKernel) (v : Vector Word 64) : Vector Byte 64 :=
  let rows : Vector (Vector Word 8) 8 := Vector.ofFn (fun r : Fin 8 => butterfly k (blockRow v r.val) hbias)
  Vector.ofFn (fun j : Fin 64 =>
    clampByte (((rows.get (Fin.ofNat 8 (j.val / 8))).get (Fin.ofNat 8 j.val)).sshiftRight 17))

/-- Both passes, vertical first (43_idct.md R201): the 64 samples of a block. -/
def idctBlock (k : IdctKernel) (coef : Vector Word 64) : Vector Byte 64 := horizontalPass k (verticalPass k coef)

/-- The MEM writes of IDCT (43_idct.md R204): D + r·S + c for row r, column c. -/
def idctWrites (dest : Rows) (p : Vector Byte 64) : List (Nat × Byte) :=
  (List.range 8).flatMap (fun r => (List.range 8).map (fun c => (dest.addr r c, blockAt p r c)))

/-- V between commands is any value (43_idct.md R202; log 8). -/
def freeIdctBuffer (s : State) : State := { s with idctBuf := Config.freeWords s.draws, draws := s.draws + 1 }

/-- IDCT (43_idct.md R204). -/
def execIdct (s : State) : Host.Outcome State Fault Refusal :=
  let dest := idctRows s
  match checkFootprint s [dest] with
  | some r => .next (faultEntry r s)
  | none =>
    .next (complete 0 (freeIdctBuffer (storeRows [] dest (idctWrites dest (idctBlock s.config.kernel s.coef)) s)))

end Sys2Proof.Machine
end

