-- ==== Sys2Proof/Machine/Color.lean ====
section
/-! DEFINITION. The YCbCr→RGB converter, COLOR_CONVERT (46_color.md R260–R264). -/
namespace Sys2Proof.Machine

/-- A pixel's channels. -/
structure Pixel where
  r : Byte
  g : Byte
  b : Byte
  deriving DecidableEq, Repr

/-- YCC(Y, Cb, Cr) (46_color.md R261), 32-bit signed arithmetic (log 29). -/
def yccPixel (k : CscCoef) (y cb cr : Byte) : Pixel :=
  let cr' : Word := cr.setWidth 32 - 128
  let cb' : Word := cb.setWidth 32 - 128
  let yf : Word := (y.setWidth 32 <<< 16) + 32768
  { r := clampByte ((yf + k.rCr * cr').sshiftRight 16)
    g := clampByte ((yf - k.gCr * cr' - k.gCb * cb').sshiftRight 16)
    b := clampByte ((yf + k.bCb * cb').sshiftRight 16) }

/-- The pixel at row y, column x (46_color.md R260–R262). -/
def colorPixel (m : ColorMode) (s : State) (y x : Nat) : Pixel :=
  let luma := s.mem.read ((lumaRows s).addr y x)
  match m with
  | .ycc => yccPixel s.config.csc luma (s.mem.read ((cbRows s).addr y x)) (s.mem.read ((crRows s).addr y x))
  | .gray => ⟨luma, luma, luma⟩

/-- WritePixel(a, R, G, B) (46_color.md R263). -/
def pixelWrites (a : Nat) (p : Pixel) : List (Nat × Byte) := [(a, p.r), (a + 1, p.g), (a + 2, p.b), (a + 3, 0xFF)]

/-- The MEM writes of COLOR_CONVERT (46_color.md R260): pixel x of row y at PO + y·os + 4·x. -/
def colorWrites (m : ColorMode) (s : State) : List (Nat × Byte) :=
  (List.range (argHigh s 4)).flatMap (fun y =>
    (List.range (argLow s 4)).flatMap (fun x => pixelWrites ((colorRows s).addr y (4 * x)) (colorPixel m s y x)))

/-- COLOR_CONVERT (46_color.md R260). -/
def execColorConvert (m : ColorMode) (s : State) : Host.Outcome State Fault Refusal :=
  if argLow s 4 = 0 ∨ argHigh s 4 = 0 then .next (complete 0 s)
  else
    match checkFootprint s (colorReads m s ++ [colorRows s]) with
    | some r => .next (faultEntry r s)
    | none => .next (complete 0 (storeRows (colorReads m s) (colorRows s) (colorWrites m s) s))

end Sys2Proof.Machine
end

