-- ==== Sys2Proof/Machine/Cursor.lean ====
section
/-! DEFINITION. The bitstream reader (40_cursor.md R110–R117, R120, R121) and the two commands on the reader alone, NOP and
FIND_MARKER. A primitive reads the state and moves a cursor, so all it can change is the cursor. -/
namespace Sys2Proof.Machine

/-- ReadStreamByte() (40_cursor.md R110): exhaustion is checked before the range. -/
def readStreamByte (s : State) (c : Cursor) : Except Raised (Byte × Cursor) :=
  if s.bsEnd.toNat ≤ c.bsPtr.toNat then .error ⟨.streamExhausted, c.bsPtr⟩
  else if s.config.memSize ≤ c.bsPtr.toNat then .error ⟨.addrRange, c.bsPtr⟩
  else .ok (s.mem.read c.bsPtr.toNat, { c with bsPtr := c.bsPtr + 1 })

/-- The byte one turn of Refill inserts (40_cursor.md R111–R114): zero padding while NOMORE, a data byte, 0xFF for the
stuffed pair 0xFF 0x00, and 0x00 with the marker latched for 0xFF c, c ≠ 0x00. -/
def refillByte (s : State) (c : Cursor) : Except Raised (Byte × Cursor) :=
  if c.nomore then .ok (0x00, c)
  else
    match readStreamByte s c with
    | .error r => .error r
    | .ok (b, c1) =>
      if b = 0xFF then
        match readStreamByte s c1 with
        | .error r => .error r
        | .ok (m, c2) =>
          if m = 0x00 then .ok (0xFF, c2)
          else .ok (0x00, { c2 with markerCode := m, markerValid := true, nomore := true })
      else .ok (b, c1)

/-- Inserts a byte just below the valid bits (40_cursor.md R111). -/
def pushByte (b : Byte) (c : Cursor) : Cursor :=
  { c with bitbuf := c.bitbuf ||| (b.setWidth 32 <<< (24 - c.bitcnt.toNat)), bitcnt := c.bitcnt + 8 }

/-- The loop of Refill (40_cursor.md R111), at most so many turns. -/
def refillLoop (s : State) : Nat → Cursor → Except Raised Cursor
  | 0, c => .ok c
  | n + 1, c =>
    if c.bitcnt.toNat < 24 then
      match refillByte s c with
      | .error r => .error r
      | .ok (b, c1) => refillLoop s n (pushByte b c1)
    else .ok c

/-- Refill() (40_cursor.md R111): 8 bits at a time until BITCNT ≥ 24, so three turns at most. -/
def refill (s : State) (c : Cursor) : Except Raised Cursor := refillLoop s 3 c

/-- A refill when fewer than `n` bits are valid (42_entropy.md R170, R172). -/
def refillBelow (s : State) (n : Nat) (c : Cursor) : Except Raised Cursor :=
  if c.bitcnt.toNat < n then refill s c else .ok c

/-- Consume(n) (40_cursor.md R115). -/
def consume (n : Nat) (c : Cursor) : Cursor :=
  { c with bitbuf := c.bitbuf <<< n, bitcnt := c.bitcnt - BitVec.ofNat 5 n }

/-- Peek(n) = BITBUF[31 : 32-n] (40_cursor.md R116). -/
def peek (n : Nat) (c : Cursor) : Nat := (c.bitbuf >>> (32 - n)).toNat

/-- ResetBitCursor() (40_cursor.md R117): BS_PTR is not changed. -/
def resetBitCursor (c : Cursor) : Cursor := { Cursor.reset with bsPtr := c.bsPtr }

/-- Drops the marker latch; NOMORE stays (40_cursor.md R119). -/
def dropLatch (c : Cursor) : Cursor := { c with markerValid := false, markerCode := 0xFF }

/-- How a command on the reader ends: with its result and the cursor it leaves, or in a stream or Huffman fault. -/
def finishStream (s : State) : Except Raised (Word × Cursor) → State
  | .ok (v, c) => complete v { s with cur := c }
  | .error r => streamFault r s

/-- RESULT of FIND_MARKER when nothing is found (40_cursor.md R119). -/
def noMarker : Word := 0x0FF

/-- RESULT of FIND_MARKER for a marker code (40_cursor.md R119). -/
def foundMarker (code : Byte) : Word := 0x100 ||| code.setWidth 32

/-- The loop of FIND_MARKER (40_cursor.md R119) at the byte `x`, either inside a run of 0xFF bytes (`run`) or skipping data
bytes. Every turn but the last fetches one byte, so a fuel of one more than the bytes before BS_END never runs out; where it
would, BS_PTR is at BS_END and the next fetch exhausts the stream. -/
def scanMarker (s : State) (m : FindMode) : Nat → Bool → Byte → Cursor → Except Raised (Word × Cursor)
  | 0, _, _, c => .error ⟨.streamExhausted, c.bsPtr⟩
  | fuel + 1, run, x, c =>
    if x = 0xFF then
      match readStreamByte s c with
      | .error r => .error r
      | .ok (y, c1) => scanMarker s m fuel true y c1
    else if run && x != 0x00 then .ok (foundMarker x, c)
    else if run && m == .strict then .ok (noMarker, c)
    else
      match readStreamByte s c with
      | .error r => .error r
      | .ok (y, c1) => scanMarker s m fuel false y c1

/-- The fuel of `scanMarker`: one more than the bytes before BS_END. -/
def scanFuel (s : State) (c : Cursor) : Nat := s.bsEnd.toNat - c.bsPtr.toNat + 1

/-- FIND_MARKER's search (40_cursor.md R119), from the latch or from the next byte. -/
def findMarker (s : State) (m : FindMode) (c : Cursor) : Except Raised (Word × Cursor) :=
  if c.markerValid then
    if c.markerCode = 0xFF then scanMarker s m (scanFuel s c) true 0xFF (dropLatch c)
    else .ok (foundMarker c.markerCode, dropLatch c)
  else
    match readStreamByte s c with
    | .error r => .error r
    | .ok (x, c1) =>
      if x != 0xFF && m == .strict then .ok (noMarker, c1)
      else scanMarker s m (scanFuel s c1) false x c1

/-- NOP (40_cursor.md R118). -/
def execNop (s : State) : Host.Outcome State Fault Refusal := .next (complete 0 s)

/-- FIND_MARKER (40_cursor.md R119). -/
def execFindMarker (m : FindMode) (s : State) : Host.Outcome State Fault Refusal :=
  .next (finishStream s (findMarker s m s.cur))

end Sys2Proof.Machine
end

