-- ==== Sys2Proof/Machine/Entropy.lean ====
section
/-! DEFINITION. The entropy decoder, the dequantizer and the zigzag reorder: HUFF_DECODE, RECEIVE and DECODE_BLOCK
(42_entropy.md R170–R178). -/
namespace Sys2Proof.Machine

/-- maxcode[L] (10_state.md R41). -/
def maxcodeAt (t : HuffTable) (l : Nat) : Nat := t.maxcode.getD (l - 1) 0

/-- delta[L] (10_state.md R41). -/
def deltaAt (t : HuffTable) (l : Nat) : Int := t.delta.getD (l - 1) 0

/-- SlowPath(T) (42_entropy.md R171): the scan starts at length 1 (90_conflicts.md C4). -/
def slowPath (t : HuffTable) (c : Cursor) : Except Raised (Byte × Cursor) :=
  match (List.range' 1 16).find? (fun l => decide (peek 16 c < maxcodeAt t l)) with
  | none => .error ⟨.badHuffmanCode, 1⟩
  | some l =>
    let idx : Int := (peek l c : Int) + deltaAt t l
    if idx < 0 ∨ (t.n : Int) ≤ idx then .error ⟨.badHuffmanCode, 4⟩
    else .ok (t.values.getD idx.toNat 0, consume l c)

/-- The table lookup of 42_entropy.md R170 once 16 bits are valid: the fast path, else the slow path. -/
def lookupSymbol (t : HuffTable) (c : Cursor) : Except Raised (Byte × Cursor) :=
  let k := (t.fast.getD (peek 9 c) 0xFF).toNat
  if k ≠ 0xFF then .ok (t.values.getD k 0, consume (t.size.getD k 0) c)
  else slowPath t c

/-- DecodeSymbol(s) (42_entropy.md R170) for a valid slot's table. -/
def decodeSymbol (s : State) (t : HuffTable) (c : Cursor) : Except Raised (Byte × Cursor) :=
  match refillBelow s 16 c with
  | .error r => .error r
  | .ok c1 => lookupSymbol t c1

/-- The sign extension of `n` raw bits, v or v − (2^n − 1) (42_entropy.md R172; 90_conflicts.md C8). -/
def extend (n v : Nat) : Word :=
  if v < 2 ^ (n - 1) then BitVec.ofInt 32 ((v : Int) - (2 ^ n - 1)) else BitVec.ofNat 32 v

/-- ReceiveExtend(n) (42_entropy.md R172); n = 0 consumes nothing. -/
def receiveExtend (s : State) (n : Nat) (c : Cursor) : Except Raised (Word × Cursor) :=
  if n = 0 then .ok (0, c)
  else
    match refillBelow s n c with
    | .error r => .error r
    | .ok c1 => .ok (extend n (peek n c1), consume n c1)

/-- HUFF_DECODE (42_entropy.md R173). -/
def execHuffDecode (t : Fin 8) (s : State) : Host.Outcome State Fault Refusal :=
  match s.ht.get t with
  | none => .next (faultEntry ⟨.unboundTable, BitVec.ofNat 32 t.val⟩ s)
  | some table =>
    .next (finishStream s ((decodeSymbol s table s.cur).map (fun p => (p.1.setWidth 32, p.2))))

/-- RECEIVE (42_entropy.md R174). N > 16 raises ILLEGAL_COMMAND(3), which acceptance has already done for a word
(30_encoding.md R97; log 26). -/
def execReceive (n : BitVec 5) (s : State) : Host.Outcome State Fault Refusal :=
  if 16 < n.toNat then .next (faultEntry ⟨.illegalCommand, Illegal.fieldRange.info⟩ s)
  else .next (finishStream s (receiveExtend s n.toNat s.cur))

/-- Dequantizer (42_entropy.md R176): wrap32(value · Q[k]), Q in zigzag order. -/
def dequantize (q : Vector Byte 64) (k : Nat) (v : Word) : Word := v * (q.get (Fin.ofNat 64 k)).setWidth 32

/-- Zigzag reorder (42_entropy.md R177): position k goes to COEF[ZZ[k]]. -/
def storeCoef (s : State) (k : Nat) (v : Word) (coef : Vector Word 64) : Vector Word 64 :=
  coef.set (s.config.zigzag.get (Fin.ofNat 64 k)) v

/-- What the AC loop of DECODE_BLOCK carries. -/
structure BlockState where
  cur : Cursor
  coef : Vector Word 64
  k : Nat
  deriving DecidableEq, Repr

/-- One turn of the AC loop (42_entropy.md R175): the state after it and whether the block ends here (R178). -/
def acStep (s : State) (t : HuffTable) (q : Vector Byte 64) (b : BlockState) : Except Raised (BlockState × Bool) :=
  match decodeSymbol s t b.cur with
  | .error r => .error r
  | .ok (rs, c1) =>
    let k := b.k + rs.toNat / 16
    let size := rs.toNat % 16
    if size = 0 ∧ rs ≠ 0xF0 then .ok (⟨c1, b.coef, k⟩, true)
    else if 63 < k then .error ⟨.badHuffmanCode, 3⟩
    else
      match receiveExtend s size c1 with
      | .error r => .error r
      | .ok (v, c2) => .ok (⟨c2, storeCoef s k (dequantize q k v) b.coef, k + 1⟩, false)

/-- The AC loop (42_entropy.md R175). Every turn raises k, so from k = 1 on 63 turns reach k ≥ 64. -/
def acLoop (s : State) (t : HuffTable) (q : Vector Byte 64) : Nat → BlockState → Except Raised BlockState
  | 0, b => .ok b
  | fuel + 1, b =>
    if b.k < 64 then
      match acStep s t q b with
      | .error r => .error r
      | .ok (b1, true) => .ok b1
      | .ok (b1, false) => acLoop s t q fuel b1
    else .ok b

/-- The DC part of DECODE_BLOCK (42_entropy.md R175): the difference and the cursor after it. -/
def decodeDc (s : State) (t : HuffTable) (c : Cursor) : Except Raised (Word × Cursor) :=
  match decodeSymbol s t c with
  | .error r => .error r
  | .ok (cat, c1) =>
    if 16 < cat.toNat then .error ⟨.badHuffmanCode, 2⟩
    else receiveExtend s cat.toNat c1

/-- The entropy decode of one block (42_entropy.md R175): the predictor and the block's coefficients. -/
def decodeBlockData (s : State) (tdc tac : HuffTable) (q : Vector Byte 64) (c : Fin 4) :
    Except Raised (Word × BlockState) :=
  match decodeDc s tdc s.cur with
  | .error r => .error r
  | .ok (d, c1) =>
    let pred := s.dcpred.get c + d
    match acLoop s tac q 63 ⟨c1, (Vector.replicate 64 (0 : Word)).set 0 (dequantize q 0 pred), 1⟩ with
    | .error r => .error r
    | .ok b => .ok (pred, b)

/-- DECODE_BLOCK (42_entropy.md R175). -/
def execDecodeBlock (dc ac q c : Fin 4) (s : State) : Host.Outcome State Fault Refusal :=
  match s.ht.get (dcSlot dc) with
  | none => .next (faultEntry ⟨.unboundTable, BitVec.ofNat 32 dc.val⟩ s)
  | some tdc =>
    match s.ht.get (acSlot ac) with
    | none => .next (faultEntry ⟨.unboundTable, BitVec.ofNat 32 (4 + ac.val)⟩ s)
    | some tac =>
      match s.qt.get q with
      | none => .next (faultEntry ⟨.unboundTable, BitVec.ofNat 32 (8 + q.val)⟩ s)
      | some quant =>
        match decodeBlockData s tdc tac quant c with
        | .error r => .next (blockFault r c s)
        | .ok (pred, b) =>
          .next (complete (BitVec.ofNat 32 b.k)
            { s with cur := b.cur, dcpred := s.dcpred.set c pred, coef := b.coef })

end Sys2Proof.Machine
end

