-- ==== Sys2Proof/Machine/Scan.lean ====
section
/-! DEFINITION. Scan arming and restart handling: START_SCAN and END_MCU (44_scan.md R220–R224). -/
namespace Sys2Proof.Machine

/-- The decoder state both START_SCAN and a taken restart give: the cursor and the predictors reset, TODO loaded from RI
(44_scan.md R220, R221). -/
def rearm (c : Cursor) (s : State) : State :=
  { s with cur := resetBitCursor c, dcpred := Vector.replicate 4 0, todo := s.ri }

/-- START_SCAN (44_scan.md R220). -/
def execStartScan (s : State) : Host.Outcome State Fault Refusal :=
  .next (complete 0 { rearm s.cur s with scanEnd := false })

/-- max(TODO - 1, 0) (44_scan.md R221). -/
def countDown (todo : BitVec 16) : BitVec 16 := if todo = 0 then 0 else todo - 1

/-- An RSTn marker is latched (44_scan.md R221). -/
def restartLatched (c : Cursor) : Bool :=
  c.markerValid && decide (0xD0 ≤ c.markerCode.toNat) && decide (c.markerCode.toNat ≤ 0xD7)

/-- The restart point's read-ahead (44_scan.md R221, R222): only with no marker latched and BITCNT < 24. -/
def restartRefill (s : State) (c : Cursor) : Except Raised Cursor :=
  if c.markerValid then .ok c else refillBelow s 24 c

/-- A stream fault of the restart point's refill: TODO keeps the count that 44_scan.md R221 has written before the refill,
since `raise` restores no register (60_exceptions.md R288; log 14). -/
def restartFault (r : Raised) (s : State) : State :=
  streamFault r { s with todo := countDown s.todo }

/-- The restart check (44_scan.md R221). -/
def restartPoint (s : State) : State :=
  match restartRefill s s.cur with
  | .error r => restartFault r s
  | .ok c =>
    if restartLatched c then complete 1 (rearm c s)
    else complete 2 { s with cur := c, todo := countDown s.todo, scanEnd := true }

/-- END_MCU (44_scan.md R221). -/
def execEndMcu (s : State) : Host.Outcome State Fault Refusal :=
  if s.ri = 0 then .next (complete 0 s)
  else if countDown s.todo = 0 then .next (restartPoint s)
  else .next (complete 0 { s with todo := countDown s.todo })

end Sys2Proof.Machine
end

