-- ==== Sys2Proof/Machine/Tables.lean ====
section
/-! DEFINITION. LOAD_DQT and LOAD_DHT, and the Huffman table builder (41_tables.md R140–R147). -/
namespace Sys2Proof.Machine

/-- The high nibble of a record's first byte (20_memory.md R72). -/
def highNibble (b : Byte) : Nat := b.toNat / 16

/-- The low nibble of a record's first byte (20_memory.md R72). -/
def lowNibble (b : Byte) : Nat := b.toNat % 16

/-- The `n` MEM bytes from `a` on (20_memory.md R71). -/
def readBytes (m : Memory) (a n : Nat) : List Byte := (List.range n).map (fun k => m.read (a + k))

/-- A record's range, one row (20_memory.md R75). -/
def recordRows (a n : Nat) : Rows := ⟨a, 0, n, 1⟩

/-- The 64 multipliers of a DQT record at `a` (41_tables.md R140). -/
def quantBytes (m : Memory) (a : Nat) : Vector Byte 64 := Vector.ofFn (fun k : Fin 64 => m.read (a + 1 + k.val))

/-- LOAD_DQT (41_tables.md R140). -/
def execLoadDqt (s : State) : Host.Outcome State Fault Refusal :=
  let a := argNat s 0
  match checkFootprint s [recordRows a 65] with
  | some r => .next (faultEntry r s)
  | none =>
    let b := s.mem.read a
    if highNibble b ≠ 0 then .next (faultEntry ⟨.unsupportedPrecision, BitVec.ofNat 32 (highNibble b)⟩ s)
    else if 3 < lowNibble b then .next (faultEntry ⟨.badDqt, BitVec.ofNat 32 (lowNibble b)⟩ s)
    else
      .next (complete 65 { s with qt := s.qt.set (Fin.ofNat 4 (lowNibble b)) (some (quantBytes s.mem a)) })

/-- What the loop of 41_tables.md R143 carries: the code counter, the index of the next symbol, and the codes, maxcode and
delta entries so far. -/
structure CodeAcc where
  code : Nat
  k : Nat
  codes : List Nat
  maxcode : List Nat
  delta : List Int
  deriving DecidableEq, Repr

/-- One length L of 41_tables.md R143 and R144, with `cnt` symbols of that length. -/
def assignLength (l cnt : Nat) (acc : CodeAcc) : Except Raised CodeAcc :=
  let next := acc.code + cnt
  if 0 < cnt ∧ 2 ^ l ≤ next - 1 then .error ⟨.badCodeLengths, BitVec.ofNat 32 l⟩
  else
    .ok
      { code := next * 2
        k := acc.k + cnt
        codes := acc.codes ++ (List.range cnt).map (fun j => acc.code + j)
        maxcode := acc.maxcode ++ [next * 2 ^ (16 - l)]
        delta := acc.delta ++ [(acc.k : Int) - (acc.code : Int)] }

/-- The lengths from `l` on (41_tables.md R143). -/
def assignCodes : Nat → List Nat → CodeAcc → Except Raised CodeAcc
  | _, [], acc => .ok acc
  | l, cnt :: cs, acc =>
    match assignLength l cnt acc with
    | .error r => .error r
    | .ok acc' => assignCodes (l + 1) cs acc'

/-- size[] (41_tables.md R142): the lengths from `l` on, each as often as it has codes. -/
def sizesFrom : Nat → List Nat → List Nat
  | _, [] => []
  | l, cnt :: cs => List.replicate cnt l ++ sizesFrom (l + 1) cs

/-- Entries lo, …, hi-1 become `v`; the list's first entry has index `i`. -/
def fillRange (lo hi : Nat) (v : Byte) : Nat → List Byte → List Byte
  | _, [] => []
  | i, x :: xs => (if lo ≤ i ∧ i < hi then v else x) :: fillRange lo hi v (i + 1) xs

/-- One symbol of 41_tables.md R145: symbol `k` of `size ≤ 9` and code `code` fills its 2^(9-size) indices with k[7:0]. -/
def fillFast (fast : List Byte) (k size code : Nat) : List Byte :=
  if size ≤ 9 then
    fillRange (code * 2 ^ (9 - size)) ((code + 1) * 2 ^ (9 - size)) (BitVec.ofNat 8 k) 0 fast
  else fast

/-- The symbols from `k` on (41_tables.md R145). -/
def buildFast : Nat → List (Nat × Nat) → List Byte → List Byte
  | _, [], fast => fast
  | k, sc :: rest, fast => buildFast (k + 1) rest (fillFast fast k sc.1 sc.2)

/-- The 32-bit value that stands for "+infinity" (41_tables.md R144). -/
def maxcodeInfinity : Nat := 0xFFFFFFFF

/-- BuildHuffman (41_tables.md R142–R145) from counts[1..16] and the symbols in record order. -/
def buildHuffman (counts : List Nat) (sym : List Byte) : Except Raised HuffTable :=
  match assignCodes 1 counts ⟨0, 0, [], [], []⟩ with
  | .error r => .error r
  | .ok acc =>
    .ok
      { n := counts.sum
        size := sizesFrom 1 counts
        values := sym
        maxcode := acc.maxcode ++ [maxcodeInfinity]
        delta := acc.delta
        fast := buildFast 0 ((sizesFrom 1 counts).zip acc.codes) (List.replicate 512 0xFF) }

/-- BAD_CODE_LENGTHS (60_exceptions.md R288(b)): the slot, bound or not, is any value (log 15). -/
def slotFault (r : Raised) (slot : Fin 8) (s : State) : State :=
  faultEntry r { s with ht := s.ht.set slot (Config.freeSlot s.draws), draws := s.draws + 1 }

/-- The rest of LOAD_DHT once the header's class, id and counts are read (41_tables.md R141, R146). -/
def loadDhtBody (a : Nat) (slot : Fin 8) (counts : List Nat) (s : State) : State :=
  if 256 < counts.sum then faultEntry ⟨.badDht, 2⟩ s
  else
    match checkFootprint s [recordRows (a + 17) counts.sum] with
    | some r => faultEntry r s
    | none =>
      match buildHuffman counts (readBytes s.mem (a + 17) counts.sum) with
      | .error r => slotFault r slot s
      | .ok t => complete (BitVec.ofNat 32 (17 + counts.sum)) { s with ht := s.ht.set slot (some t) }

/-- counts[1..16] of the record at `a` (41_tables.md R141). -/
def recordCounts (m : Memory) (a : Nat) : List Nat := (readBytes m (a + 1) 16).map BitVec.toNat

/-- LOAD_DHT (41_tables.md R141). -/
def execLoadDht (s : State) : Host.Outcome State Fault Refusal :=
  let a := argNat s 0
  match checkFootprint s [recordRows a 17] with
  | some r => .next (faultEntry r s)
  | none =>
    let b := s.mem.read a
    if 1 < highNibble b ∨ 3 < lowNibble b then .next (faultEntry ⟨.badDht, 1⟩ s)
    else .next (loadDhtBody a (recordSlot (highNibble b) (lowNibble b)) (recordCounts s.mem a) s)

end Sys2Proof.Machine
end

