-- ==== Sys2Proof/Machine/Upsample.lean ====
section
/-! DEFINITION. The chroma upsampler, UPSAMPLE (45_upsample.md R240–R245). -/
namespace Sys2Proof.Machine

/-- `in(y, x)` (45_upsample.md R240). -/
def planeAt (m : Memory) (plane : Rows) (y x : Nat) : Nat := (m.read (plane.addr y x)).toNat

/-- The neighbour an output sample blends towards, clamped to 0..n-1 (45_upsample.md R240, cx and cy): the one before for
an even output index, the one after for an odd one. -/
def neighbour (o n : Nat) : Nat := if o % 2 = 0 then o / 2 - 1 else min (o / 2 + 1) (n - 1)

/-- The 3:1 blend, unrounded (45_upsample.md R244, t). -/
def blend (near far : Nat) : Nat := 3 * near + far

/-- H2 (45_upsample.md R242), output sample (y, x). -/
def sampleH (m : Memory) (p : Rows) (y x : Nat) : Nat :=
  (blend (planeAt m p y (x / 2)) (planeAt m p y (neighbour x p.len)) + 2) / 4

/-- V2 (45_upsample.md R243), output sample (y, x). -/
def sampleV (m : Memory) (p : Rows) (y x : Nat) : Nat :=
  (blend (planeAt m p (y / 2) x) (planeAt m p (neighbour y p.count) x) + 2) / 4

/-- t(i) of HV2 (45_upsample.md R244): the vertical blend of column `i` for output row `y`. -/
def verticalBlend (m : Memory) (p : Rows) (y i : Nat) : Nat :=
  blend (planeAt m p (y / 2) i) (planeAt m p (neighbour y p.count) i)

/-- HV2 (45_upsample.md R244), output sample (y, x). -/
def sampleHV (m : Memory) (p : Rows) (y x : Nat) : Nat :=
  (blend (verticalBlend m p y (x / 2)) (verticalBlend m p y (neighbour x p.len)) + 8) / 16

/-- The output sample of a mode (45_upsample.md R241–R244). -/
def upsampleSample (mode : UpsampleMode) (m : Memory) (p : Rows) (y x : Nat) : Nat :=
  match mode with
  | .copy => planeAt m p y x
  | .h => sampleH m p y x
  | .v => sampleV m p y x
  | .hv => sampleHV m p y x

/-- The MEM writes of UPSAMPLE (45_upsample.md R240); their order is not observable. -/
def upsampleWrites (mode : UpsampleMode) (m : Memory) (src dest : Rows) : List (Nat × Byte) :=
  (List.range dest.count).flatMap (fun y =>
    (List.range dest.len).map (fun x => (dest.addr y x, BitVec.ofNat 8 (upsampleSample mode m src y x))))

/-- UPSAMPLE (45_upsample.md R240). -/
def execUpsample (m : UpsampleMode) (s : State) : Host.Outcome State Fault Refusal :=
  let src := upsampleReads s
  let dest := upsampleRows m s
  if src.len = 0 ∨ src.count = 0 then .next (complete 0 s)
  else
    match checkFootprint s [src, dest] with
    | some r => .next (faultEntry r s)
    | none => .next (complete 0 (storeRows [src] dest (upsampleWrites m s.mem src dest) s))

end Sys2Proof.Machine
end

