-- ==== Sys2Proof/Machine/Dispatch.lean ====
section
/-! DEFINITION. The meaning of every command, one arm each (30_encoding.md R94). -/
namespace Sys2Proof.Machine

def exec (i : Instr) (s : State) : Host.Outcome State Fault Refusal :=
  match i with
  | .nop => Sys2Proof.Machine.execNop s
  | .loadDqt => Sys2Proof.Machine.execLoadDqt s
  | .loadDht => Sys2Proof.Machine.execLoadDht s
  | .startScan => Sys2Proof.Machine.execStartScan s
  | .huffDecode t => Sys2Proof.Machine.execHuffDecode t s
  | .receive n => Sys2Proof.Machine.execReceive n s
  | .decodeBlock dc ac q c => Sys2Proof.Machine.execDecodeBlock dc ac q c s
  | .idct => Sys2Proof.Machine.execIdct s
  | .endMcu => Sys2Proof.Machine.execEndMcu s
  | .findMarker m => Sys2Proof.Machine.execFindMarker m s
  | .upsample m => Sys2Proof.Machine.execUpsample m s
  | .colorConvert m => Sys2Proof.Machine.execColorConvert m s

end Sys2Proof.Machine
end

