-- ==== Sys2Proof/Machine/Flags.lean ====
section
/-! DEFINITION. The registers as the host reads them (10_state.md R20–R40), the flags they are made of, and the interrupt
output (60_exceptions.md R293). -/
namespace Sys2Proof.Machine

/-- A flag at its bit. -/
def flagBit (b : Bool) (i : Nat) : Word := if b then 1#32 <<< i else 0

/-- CTRL: SRST reads 0, IRQ_EN is bit 1 (10_state.md R22). -/
def ctrlWord (s : State) : Word := flagBit s.irqEn 1

/-- STATUS (10_state.md R23). -/
def statusWord (s : State) : Word :=
  flagBit s.busy 0 ||| flagBit s.done 1 ||| flagBit s.fault 2 ||| flagBit s.overrun 3 ||| flagBit s.scanEnd 4
    ||| flagBit s.cur.markerValid 5 ||| flagBit s.cur.nomore 6

/-- MARKER (10_state.md R34). -/
def markerWord (s : State) : Word := flagBit s.cur.markerValid 8 ||| s.cur.markerCode.setWidth 32

/-- TABLE_VALID (10_state.md R37): bit i is HT[i].valid, bit 8+q is QT[q].valid. -/
def tableValidWord (s : State) : Word :=
  (List.finRange 8).foldl (fun w i => w ||| flagBit (s.ht.get i).isSome i.val) 0
    ||| (List.finRange 4).foldl (fun w q => w ||| flagBit (s.qt.get q).isSome (8 + q.val)) 0

/-- `irq = CTRL.IRQ_EN AND (STATUS.DONE OR STATUS.FAULT)` (60_exceptions.md R293; log 25). -/
def irq (s : State) : Bool := s.irqEn && (s.done || s.fault)

/-- The value of the register at an aligned offset (10_state.md R20); an offset that no register occupies reads 0 (R40). -/
def readRegister (off : Nat) (s : State) : Word :=
  if off = 0x000 then idValue
  else if off = 0x004 then ctrlWord s
  else if off = 0x008 then statusWord s
  else if off = 0x00C then s.cmdLast
  else if off = 0x010 then s.result
  else if off = 0x014 then s.faultCode
  else if off = 0x018 then s.faultInfo
  else if off = 0x01C then s.faultCmd
  else if 0x020 ≤ off ∧ off < 0x040 then s.args.get (Fin.ofNat 8 ((off - 0x020) / 4))
  else if off = 0x040 then s.cur.bsPtr
  else if off = 0x044 then s.bsEnd
  else if off = 0x048 then s.cur.bitbuf
  else if off = 0x04C then s.cur.bitcnt.setWidth 32
  else if off = 0x050 then markerWord s
  else if off = 0x054 then s.ri.setWidth 32
  else if off = 0x058 then s.todo.setWidth 32
  else if off = 0x05C then tableValidWord s
  else if 0x060 ≤ off ∧ off < 0x070 then s.dcpred.get (Fin.ofNat 4 ((off - 0x060) / 4))
  else if 0x100 ≤ off ∧ off < 0x200 then s.coef.get (Fin.ofNat 64 ((off - 0x100) / 4))
  else 0

/-- A write to STATUS clears DONE and OVERRUN where its bits 1 and 3 are 1 (10_state.md R23). -/
def writeStatus (v : Word) (s : State) : State :=
  { s with done := s.done && !v.getLsbD 1, overrun := s.overrun && !v.getLsbD 3 }

/-- An aligned 32-bit write to a register other than CTRL and CMD while idle (10_state.md R20–R40): writes to a read-only or
absent register are ignored. FAULT = 1 makes no difference (log 22). -/
def writeRegister (off : Nat) (v : Word) (s : State) : State :=
  if off = 0x008 then writeStatus v s
  else if 0x020 ≤ off ∧ off < 0x040 then { s with args := s.args.set (Fin.ofNat 8 ((off - 0x020) / 4)) v }
  else if off = 0x040 then { s with cur := { s.cur with bsPtr := v } }
  else if off = 0x044 then { s with bsEnd := v }
  else if off = 0x054 then { s with ri := v.setWidth 16 }
  else if 0x100 ≤ off ∧ off < 0x200 then { s with coef := s.coef.set (Fin.ofNat 64 ((off - 0x100) / 4)) v }
  else s

end Sys2Proof.Machine
end

