-- ==== Sys2Proof/Machine/HostPort.lean ====
section
/-! DEFINITION. The two agents' moves (00_scope.md R9, R10): command acceptance (30_encoding.md R102), the host's register
and MEM ports (10_state.md R20; 20_memory.md R73), the reset pin (70_reset_and_hazards.md R310), and the core's move, which
runs the accepted command to its end (log 1, log 2). Step.lean only calls these. -/
namespace Sys2Proof.Machine

/-! ### The core -/

/-- Runs the command in CMD_LAST. An illegal word has already faulted at acceptance, so the second case is never reached
from an acceptance (log 26). -/
def coreMove (s : State) : Host.Outcome State Fault Refusal :=
  match decode s.cmdLast with
  | .ok i => exec i s
  | .error e => .next (faultEntry ⟨.illegalCommand, e.info⟩ s)

/-- The core has the turn: an accepted command runs; an idle core does nothing (10_state.md R52). -/
def coreTurn (s : State) : Host.Outcome State Fault Refusal := if s.busy then coreMove s else .next s

/-! ### Acceptance -/

/-- Accepting a word (30_encoding.md R102): CMD_LAST, DONE and BUSY. -/
def accept (w : Word) (s : State) : State := { s with cmdLast := w, done := false, busy := true }

/-- A CMD write (30_encoding.md R102; 60_exceptions.md R289): dropped with OVERRUN while BUSY (R291), discarded while FAULT
(R290), else accepted, an illegal word faulting at once (30_encoding.md R99). -/
def offerCommand (w : Word) (s : State) : State :=
  if s.busy then { s with overrun := true }
  else if s.fault then s
  else
    match decode w with
    | .ok _ => accept w s
    | .error e => faultEntry ⟨.illegalCommand, e.info⟩ (accept w s)

/-! ### The register port -/

/-- Only an aligned 32-bit access is defined (10_state.md R20). -/
def alignedWord (size : AccessSize) (off : BitVec 9) : Bool := size == .word && off.toNat % 4 == 0

/-- A write to CTRL (10_state.md R22): SRST = 1 is the soft reset, whatever else the write carries. -/
def writeCtrl (v : Word) (s : State) : State :=
  if v.getLsbD 0 then softReset s else { s with irqEn := v.getLsbD 1 }

/-- A register write (10_state.md R20): ignored while rst_n = 0 (70_reset_and_hazards.md R310), where unaligned or narrow,
and while BUSY but for CTRL and CMD. -/
def hostRegWrite (size : AccessSize) (off : BitVec 9) (v : Word) (s : State) : State :=
  if s.rstN && alignedWord size off then
    if off = 0x004 then writeCtrl v s
    else if off = 0x00C then offerCommand v s
    else if s.busy then s
    else writeRegister off.toNat v s
  else s

/-- The registers that may be read while BUSY = 1 (10_state.md R20). -/
def readableWhileBusy (off : BitVec 9) : Bool := off == 0x000 || off == 0x004 || off == 0x008

/-- An aligned offset that no register occupies (10_state.md R40). -/
def unoccupied (off : BitVec 9) : Bool := decide (0x070 ≤ off.toNat) && decide (off.toNat < 0x100)

/-- A register read (10_state.md R20): the register's value, or any value where the access is unaligned or narrow, or the
register is not readable while BUSY (93_implementation_defined.md I-17, I-18; log 19). An offset that no register occupies
reads 0 at any time (R40). -/
def hostRegRead (size : AccessSize) (off : BitVec 9) (s : State) : Host.Outcome State Fault Refusal :=
  if s.rstN then
    if alignedWord size off && (!s.busy || readableWhileBusy off || unoccupied off) then
      .next { s with hostRegData := readRegister off.toNat s }
    else .next { s with hostRegData := Config.freeWord s.draws 0, draws := s.draws + 1 }
  else .refused .accessInReset

/-! ### The MEM port -/

/-- The byte writes of an `n`-byte little-endian access (20_memory.md R73). -/
def littleEndianBytes (a n v : Nat) : List (Nat × Byte) :=
  (List.range n).map (fun i => (a + i, BitVec.ofNat 8 (v / 256 ^ i)))

/-- The value of an `n`-byte little-endian access (20_memory.md R73). -/
def littleEndianValue (m : Memory) (a n : Nat) : Nat :=
  (readBytes m a n).foldr (fun b acc => b.toNat + 256 * acc) 0

/-- A MEM access of `n` bytes at `a` goes through while rst_n = 1 and BUSY = 0 and every byte exists (20_memory.md R70, R73;
70_reset_and_hazards.md R317, R322). -/
def memPort (a n : Nat) (s : State) (k : State) : Host.Outcome State Fault Refusal :=
  if s.rstN then
    if s.busy then .refused .memWhileBusy
    else if 0 < n ∧ s.config.memSize < a + n then .fault (.memPortRange (max a s.config.memSize))
    else .next k
  else .refused .accessInReset

/-- A host MEM write (20_memory.md R73). -/
def hostMemWrite (a : Word) (n v : Nat) (s : State) : Host.Outcome State Fault Refusal :=
  memPort a.toNat n s { s with mem := s.mem.writeAll (littleEndianBytes a.toNat n v) }

/-- A host MEM read (20_memory.md R73, R82: no side effect). -/
def hostMemRead (a : Word) (n : Nat) (s : State) : Host.Outcome State Fault Refusal :=
  memPort a.toNat n s { s with hostMemData := littleEndianValue s.mem a.toNat n }

/-! ### One host access -/

/-- rst_n driven to a level (70_reset_and_hazards.md R310). -/
def driveReset (level : Bool) (s : State) : State := if level then { s with rstN := true } else hardReset s

/-- One thing the host does (70_reset_and_hazards.md R322). WAIT gives the core the turn (log 1). -/
def hostMove (op : HostOp) (s : State) : Host.Outcome State Fault Refusal :=
  match op with
  | .regWrite size off v => .next (hostRegWrite size off v s)
  | .regRead size off => hostRegRead size off s
  | .memWrite a n v => hostMemWrite a n v s
  | .memRead a n => hostMemRead a n s
  | .rstN level => .next (driveReset level s)
  | .wait => coreTurn s

/-! ### Host scripts (30_encoding.md R101) -/

/-- SETARG i, v. -/
def setArg (i : Fin 8) (v : Word) : HostOp := .regWrite .word (BitVec.ofNat 9 (0x020 + 4 * i.val)) v

/-- SETREG name, v, the register named by its offset (BS_PTR 0x040, BS_END 0x044, RI 0x054, CTRL 0x004, COEF[i]
0x100 + 4·i). -/
def setReg (off : BitVec 9) (v : Word) : HostOp := .regWrite .word off v

/-- WAIT: read STATUS until BUSY = 0 (30_encoding.md R101; 70_reset_and_hazards.md R315). `wait` stands for the reads that see
BUSY = 1, since one turn of the core ends a running command (logs 1 and 2); the last read sees BUSY = 0. -/
def pollStatus : List HostOp := [.wait, .regRead .word 0x008]

/-- A CMD write and its implied WAIT (30_encoding.md R101). -/
def issueWord (w : Word) : List HostOp := .regWrite .word 0x00C w :: pollStatus

/-- A command and its implied WAIT (30_encoding.md R101). -/
def issue (i : Instr) : List HostOp := issueWord (encode i)

/-- IssueCommand(word, args) up to the STATUS read that sees its end (70_reset_and_hazards.md R315): wait until BUSY = 0, write
the ARGs, write CMD, poll. -/
def issueCommand (w : Word) (args : List (Fin 8 × Word)) : List HostOp :=
  pollStatus ++ args.map (fun a => setArg a.1 a.2) ++ issueWord w

/-- The reads that end IssueCommand, by the STATUS word the poll has read (70_reset_and_hazards.md R315): FAULT_CODE, FAULT_INFO
and FAULT_CMD where FAULT = 1, and then the host stops; else RESULT, which every completion writes (10_state.md R25). -/
def endReads (status : Word) : List HostOp :=
  if status.getLsbD 2 then [.regRead .word 0x014, .regRead .word 0x018, .regRead .word 0x01C] else [.regRead .word 0x010]

/-- The word a register read has returned, if the access was one. -/
def wordRead (op : HostOp) (s : State) : List Word :=
  match op with
  | .regWrite _ _ _ => []
  | .regRead _ _ => [s.hostRegData]
  | .memWrite _ _ _ => []
  | .memRead _ _ => []
  | .rstN _ => []
  | .wait => []

/-- Host accesses made one after another, with the words their register reads return. -/
def runAccesses : List HostOp → State → Host.Outcome (State × List Word) Fault Refusal
  | [], s => .next (s, [])
  | op :: ops, s =>
    match hostMove op s with
    | .fault f => .fault f
    | .refused r => .refused r
    | .next t =>
      match runAccesses ops t with
      | .fault f => .fault f
      | .refused r => .refused r
      | .next (u, ws) => .next (u, wordRead op t ++ ws)

/-- The whole of IssueCommand(word, args) (70_reset_and_hazards.md R315): the host's last reads depend on the STATUS it has
read. The words are those of the last reads: the three fault registers, or RESULT. -/
def runCommand (w : Word) (args : List (Fin 8 × Word)) (s : State) : Host.Outcome (State × List Word) Fault Refusal :=
  match runAccesses (issueCommand w args) s with
  | .fault f => .fault f
  | .refused r => .refused r
  | .next (t, _) => runAccesses (endReads t.hostRegData) t

/-- HUFF_DECODE_DC id=j. -/
def huffDecodeDc (j : Fin 4) : Instr := .huffDecode (dcSlot j)

/-- HUFF_DECODE_AC id=j. -/
def huffDecodeAc (j : Fin 4) : Instr := .huffDecode (acSlot j)

/-- LOAD_DQT @a. -/
def loadDqtAt (a : Word) : List HostOp := setArg 0 a :: issue .loadDqt

/-- LOAD_DHT @a. -/
def loadDhtAt (a : Word) : List HostOp := setArg 0 a :: issue .loadDht

/-- IDCT @a, stride=s. -/
def idctAt (a stride : Word) : List HostOp := setArg 0 a :: setArg 1 stride :: issue .idct

/-- Two 16-bit operands in one ARG: low | high<<16. -/
def packArg (low high : BitVec 16) : Word := low.setWidth 32 ||| (high.setWidth 32 <<< 16)

/-- UPSAMPLE mode=m, @src, @dst, sstride, dstride, w, h. -/
def upsampleAt (m : UpsampleMode) (src dst : Word) (ss ds w h : BitVec 16) : List HostOp :=
  [setArg 0 src, setArg 1 dst, setArg 2 (packArg ss ds), setArg 3 (packArg w h)] ++ issue (.upsample m)

/-- COLOR_CONVERT mode=m, @y, @cb, @cr, @out, w, h, ys, cs, os. -/
def colorConvertAt (m : ColorMode) (y cb cr out : Word) (w h ys cs : BitVec 16) (os : Word) : List HostOp :=
  [setArg 0 y, setArg 1 cb, setArg 2 cr, setArg 3 out, setArg 4 (packArg w h), setArg 5 (packArg ys cs), setArg 6 os]
    ++ issue (.colorConvert m)

end Sys2Proof.Machine
end

