-- ==== Sys2Proof/Machine/Step.lean ====
section
/-! DEFINITION. One step: the host's next access, or the core's turn when the host has none (log 1, log 2). -/
namespace Sys2Proof.Machine

/-- One step of the machine. -/
def step (s : State) : Host.Outcome State Fault Refusal :=
  match s.host with
  | [] => coreTurn s
  | op :: rest => hostMove op { s with host := rest }

/-- `s` with the instruction of the table bits `w` accepted and the core's turn next: the core does not fetch
(10_state.md R49), so a command's place is CMD_LAST with BUSY = 1 and DONE = 0 (30_encoding.md R102; log 4). -/
def State.withFetchWord (s : State) (nbits w : Nat) : State :=
  { accept (tableWord nbits w) s with host := .wait :: s.host }

end Sys2Proof.Machine
end

