-- ==== Sys2Proof/Safety.lean ====
section
/-! DEFINITION. The terms claims use: the invariant of the machine (10_state.md R42, R44, R45), canonical decoding
(41_tables.md R147), the end of a run and what is observed of it (70_reset_and_hazards.md R330). -/
namespace Sys2Proof.Safety

open Sys2Proof.Machine

/-! ### Invariants -/

/-- The bit cursor's invariants (10_state.md R44, R45): the bits below the valid ones are 0, and the flags are those of
Normal, MarkerPending or Exhausted. -/
def CursorOk (c : Cursor) : Prop :=
  c.bitbuf <<< c.bitcnt.toNat = 0 ∧
  (c.nomore = false → c.markerValid = false) ∧
  (c.markerValid = false → c.markerCode = 0xFF) ∧
  (c.markerValid = true → c.markerCode ≠ 0)

/-- What LOAD_DHT hands to the builder: 16 counts, and as many symbols as they say, at most 256 (41_tables.md R141). -/
def LegalRecord (counts : List Nat) (sym : List Byte) : Prop :=
  counts.length = 16 ∧ sym.length = counts.sum ∧ counts.sum ≤ 256

/-- A table the builder has built (41_tables.md R142–R146). -/
def Built (t : HuffTable) : Prop := ∃ counts sym, LegalRecord counts sym ∧ buildHuffman counts sym = .ok t

/-- The machine's invariant. A fault leaves the cursor or a slot at any value (60_exceptions.md R288), so their part holds
while FAULT = 0; a running command is a legal word, accepted with FAULT = 0 and DONE = 0 (30_encoding.md R102). -/
def MachineInv (s : State) : Prop :=
  s.config.wf ∧
  s.mem.wf = true ∧
  (∀ c ∈ s.mem.cells, c.1 < s.config.memSize) ∧
  (s.fault = false → CursorOk s.cur) ∧
  (s.fault = false → ∀ i t, s.ht.get i = some t → Built t) ∧
  (s.busy = true → s.rstN = true ∧ s.fault = false ∧ s.done = false ∧ ∃ i, decode s.cmdLast = .ok i)

/-! ### Reset (10_state.md R51) -/

/-- Every register, flag and table slot is at the value 10_state.md R51 gives it. Where the table says "unspecified" (COEF,
the IDCT buffer, the contents of invalid slots, MEM) nothing is said. -/
def AtReset (t : State) : Prop :=
  t.irqEn = false ∧ t.busy = false ∧ t.done = false ∧ t.fault = false ∧ t.overrun = false ∧ t.scanEnd = false ∧
  t.cmdLast = 0 ∧ t.result = 0 ∧ t.faultCode = 0 ∧ t.faultInfo = 0 ∧ t.faultCmd = 0 ∧
  (∀ i : Fin 8, t.args.get i = 0) ∧
  t.bsEnd = 0 ∧ t.cur.bsPtr = 0 ∧ t.cur.bitbuf = 0 ∧ t.cur.bitcnt = 0 ∧
  t.cur.nomore = false ∧ t.cur.markerValid = false ∧ t.cur.markerCode = 0xFF ∧
  t.ri = 0 ∧ t.todo = 0 ∧
  (∀ i : Fin 8, t.ht.get i = none) ∧ (∀ i : Fin 4, t.qt.get i = none) ∧ (∀ i : Fin 4, t.dcpred.get i = 0)

/-! ### Footprints as sets of addresses (20_memory.md R75, R76) -/

/-- Every address of the footprints exists. -/
def InMem (s : State) (rs : List Rows) : Prop := ∀ r ∈ rs, ∀ a ∈ r.addresses, a < s.config.memSize

/-- No address that is read is written. -/
def Apart (reads : List Rows) (dest : Rows) : Prop := ∀ r ∈ reads, ∀ a ∈ r.addresses, a ∉ dest.addresses

/-- The byte at column x of row y is written once: no other row and column has its address. -/
def WrittenOnce (dest : Rows) (y x : Nat) : Prop :=
  ∀ z, z < dest.count → ∀ w, w < dest.len → dest.addr z w = dest.addr y x → z = y ∧ w = x

/-- No byte is written twice. -/
def WritesOnce (dest : Rows) : Prop := ∀ y, y < dest.count → ∀ x, x < dest.len → WrittenOnce dest y x

/-- Column x of row y holds `v`, unless its byte is written more than once: then it is any value (70_reset_and_hazards.md
R320, log 17) and nothing is said. -/
def OutputIs (m : Memory) (dest : Rows) (y x v : Nat) : Prop := WrittenOnce dest y x → planeAt m dest y x = v

/-- Every MEM byte outside a footprint reads as before. -/
def Untouched (s t : State) (rows : Rows) : Prop := ∀ a, a ∉ rows.addresses → t.mem.read a = s.mem.read a

/-- `a` is the lowest address of the footprints that does not exist (20_memory.md R75). -/
def LowestOutside (s : State) (rs : List Rows) (a : Nat) : Prop :=
  s.config.memSize ≤ a ∧ (∃ r ∈ rs, a ∈ r.addresses) ∧
    ∀ r ∈ rs, ∀ b ∈ r.addresses, s.config.memSize ≤ b → a ≤ b

/-- The footprints a command checks before its first MEM access; for LOAD_DHT, those of its first stage
(20_memory.md R75). -/
def checkedRows (i : Instr) (s : State) : List Rows :=
  match i with
  | .nop => []
  | .loadDqt => [⟨argNat s 0, 0, 65, 1⟩]
  | .loadDht => [⟨argNat s 0, 0, 17, 1⟩]
  | .startScan => []
  | .huffDecode _ => []
  | .receive _ => []
  | .decodeBlock _ _ _ _ => []
  | .idct => [idctRows s]
  | .endMcu => []
  | .findMarker _ => []
  | .upsample m => [upsampleReads s, upsampleRows m s]
  | .colorConvert m => colorReads m s ++ [colorRows s]

/-- The commands that fetch stream bytes (60_exceptions.md R285). -/
def usesStream : Instr → Bool
  | .nop => false
  | .loadDqt => false
  | .loadDht => false
  | .startScan => false
  | .huffDecode _ => true
  | .receive _ => true
  | .decodeBlock _ _ _ _ => true
  | .idct => false
  | .endMcu => true
  | .findMarker _ => true
  | .upsample _ => false
  | .colorConvert _ => false

/-- UPSAMPLE writes: its planes are not empty and inside MEM (45_upsample.md R240). They may overlap. -/
def UpsampleFits (m : UpsampleMode) (s : State) : Prop :=
  argLow s 3 ≠ 0 ∧ argHigh s 3 ≠ 0 ∧ InMem s [upsampleReads s, upsampleRows m s]

/-- UPSAMPLE's host duties are met (70_reset_and_hazards.md R320): the planes are apart too, with no byte written twice. -/
def UpsampleReady (m : UpsampleMode) (s : State) : Prop :=
  UpsampleFits m s ∧ Apart [upsampleReads s] (upsampleRows m s) ∧ WritesOnce (upsampleRows m s)

/-- COLOR_CONVERT writes: its regions are not empty and inside MEM (46_color.md R260). They may overlap. -/
def ColorFits (m : ColorMode) (s : State) : Prop :=
  argLow s 4 ≠ 0 ∧ argHigh s 4 ≠ 0 ∧ InMem s (colorReads m s ++ [colorRows s])

/-! ### The stream -/

/-- A refill for `n` bits cannot fault: enough bits are valid, or a marker has been seen (40_cursor.md R114), or the six
bytes that three turns fetch at most (R111, R121) are there. -/
def StreamReady (n : Nat) (s : State) : Prop :=
  n ≤ s.cur.bitcnt.toNat ∨ s.cur.nomore = true ∨
    (s.cur.bsPtr.toNat + 6 ≤ s.bsEnd.toNat ∧ s.cur.bsPtr.toNat + 6 ≤ s.config.memSize)

/-- The host has given the stream byte at `a` (40_cursor.md R110). -/
def Fetchable (s : State) (a : Nat) : Prop := a < s.bsEnd.toNat ∧ a < s.config.memSize

/-- A marker stands at `a` (00_scope.md, glossary): 0xFF and a code that is neither stuffing nor fill. -/
def MarkerAt (s : State) (a : Nat) : Prop :=
  s.mem.read a = 0xFF ∧ s.mem.read (a + 1) ≠ 0x00 ∧ s.mem.read (a + 1) ≠ 0xFF

/-- A fetch at `a` faults with `r` (40_cursor.md R110): exhaustion before the range, each with the address. -/
def FetchFault (s : State) (a : Nat) (r : Raised) : Prop :=
  (s.bsEnd.toNat ≤ a ∧ r = ⟨.streamExhausted, BitVec.ofNat 32 a⟩) ∨
    (a < s.bsEnd.toNat ∧ s.config.memSize ≤ a ∧ r = ⟨.addrRange, BitVec.ofNat 32 a⟩)

/-- `n` bytes of 0xFF that the host has given stand from BS_PTR on, and FIND_MARKER starts inside the run: with no latch, or
from a latched 0xFF (40_cursor.md R119). -/
def FillRun (s : State) (n : Nat) : Prop :=
  (s.cur.markerValid = true → s.cur.markerCode = 0xFF) ∧
    ∀ j, j < n → Fetchable s (s.cur.bsPtr.toNat + j) ∧ s.mem.read (s.cur.bsPtr.toNat + j) = 0xFF

/-- Where skip mode of FIND_MARKER begins to look for a marker: at BS_PTR with no latch, and after the 0x00 where a latched
0xFF and its run end in one (40_cursor.md R119; 90_conflicts.md C9). -/
def SkipStart (s : State) (p : Nat) : Prop :=
  (s.cur.markerValid = false ∧ p = s.cur.bsPtr.toNat) ∨
    (s.cur.markerValid = true ∧ ∃ n, FillRun s n ∧ Fetchable s (s.cur.bsPtr.toNat + n) ∧
      s.mem.read (s.cur.bsPtr.toNat + n) = 0x00 ∧ p = s.cur.bsPtr.toNat + n + 1)

/-! ### The zigzag (10_state.md R48) -/

/-- The diagonal traversal: diagonal d has the positions (row, column) with row + column = d, from the top right where d is
odd and from the bottom left where d is even. -/
def zigzagWalk : List Nat :=
  (List.range 15).flatMap (fun d =>
    let rows := (List.range 8).filter (fun r => decide (r ≤ d ∧ d - r < 8))
    (if d % 2 = 1 then rows else rows.reverse).map (fun r => 8 * r + (d - r)))

/-! ### Arithmetic over the integers -/

/-- wrap32(x) (00_scope.md R7): the signed 32-bit value congruent to x. -/
def wrap32 (x : Int) : Int := Int.bmod x (2 ^ 32)

/-- The weights of samples 0, 2, 4, 6 in outputs 0 to 3 of KERNEL_K12, its constants multiplied out (43_idct.md R200). -/
def k12Even : List (List Int) :=
  [[4096, 2217 + 3135, 4096, 2217], [4096, 2217, -4096, 2217 - 7567],
   [4096, -2217, -4096, -(2217 - 7567)], [4096, -(2217 + 3135), 4096, -2217]]

/-- The weights of samples 1, 3, 5, 7 in outputs 0 to 3 of KERNEL_K12 (43_idct.md R200). -/
def k12Odd : List (List Int) :=
  [[6149 + 4816 - 3685 - 1597, 4816, 4816 - 1597, 4816 - 3685],
   [4816, 12586 + 4816 - 10497 - 8034, 4816 - 10497, 4816 - 8034],
   [4816 - 1597, 4816 - 10497, 8410 + 4816 - 10497 - 1597, 4816],
   [4816 - 3685, 4816 - 8034, 4816, 1223 + 4816 - 3685 - 8034]]

/-- The weight of sample `j` in output `o` of KERNEL_K12: outputs 7 - o and o differ in the sign of the odd samples. -/
def k12Weight (o j : Nat) : Int :=
  if j % 2 = 0 then (k12Even.getD (min o (7 - o)) []).getD (j / 2) 0
  else if o < 4 then (k12Odd.getD o []).getD (j / 2) 0
  else -(k12Odd.getD (7 - o) []).getD (j / 2) 0

/-- Output `o` of KERNEL_K12's Butterfly for the samples `x 0` to `x 7` and a bias, over the integers (43_idct.md R200). -/
def k12Output (x : Nat → Int) (bias : Int) (o : Nat) : Int :=
  ((List.range 8).map (fun j => k12Weight o j * x j)).sum + bias

/-- clamp(x, 0, 255) (00_scope.md R7). -/
def clamp255 (x : Int) : Nat := (max 0 (min x 255)).toNat

/-- clamp(i, 0, n-1) (45_upsample.md R240, cx and cy). -/
def clampIndex (i : Int) (n : Nat) : Nat := (max 0 (min i ((n : Int) - 1))).toNat

/-- The value of `n` raw bits `v` under extend/receive (42_entropy.md R172). -/
def extended (n v : Nat) : Int := if v < 2 ^ (n - 1) then (v : Int) - (2 ^ n - 1) else v

/-- The bits of the register at an offset that a host write sets (10_state.md R20–R40), STATUS, CTRL and CMD apart. -/
def writableBits (off : Nat) : Word :=
  if (0x020 ≤ off ∧ off < 0x048) ∨ (0x100 ≤ off ∧ off < 0x200) then 0xFFFFFFFF
  else if off = 0x054 then 0x0000FFFF
  else 0

/-! ### Code lengths (41_tables.md R143) -/

/-- The code counter once the codes of lengths 1 to `l` are assigned. -/
def codesUsed (counts : List Nat) (l : Nat) : Nat := (counts.take l).foldl (fun u c => 2 * u + c) 0

/-- No length class overflows. -/
def LengthsFit (counts : List Nat) : Prop := ∀ l, 1 ≤ l → l ≤ 16 → codesUsed counts l ≤ 2 ^ l

/-- `l` is the first length class that overflows. -/
def FirstOverflow (counts : List Nat) (l : Nat) : Prop :=
  1 ≤ l ∧ l ≤ 16 ∧ 2 ^ l < codesUsed counts l ∧ ∀ j, 1 ≤ j → j < l → codesUsed counts j ≤ 2 ^ j

/-! ### Canonical decoding (41_tables.md R147) -/

/-- Canonical codes for code lengths in record order: each code is the one before plus 1, lengthened with zeros
("assign canonical codes in increasing length and increasing numeric order", 41_tables.md R143). -/
def canonicalCodesFrom (next size : Nat) : List Nat → List Nat
  | [] => []
  | l :: ls => (next * 2 ^ (l - size)) :: canonicalCodesFrom (next * 2 ^ (l - size) + 1) l ls

/-- codeof[k] of every symbol, from size[] alone. -/
def canonicalCodes (sizes : List Nat) : List Nat := canonicalCodesFrom 0 0 sizes

/-- size[k] (10_state.md R41). -/
def sizeAt (t : HuffTable) (k : Nat) : Nat := t.size.getD k 0

/-- codeof[k] (41_tables.md R143). -/
def codeAt (t : HuffTable) (k : Nat) : Nat := (canonicalCodes t.size).getD k 0

/-- The first `n` bits of a bit string whose first 32 bits are `bits` (00_scope.md R6). -/
def leadingBits (bits : Word) (n : Nat) : Nat := bits.toNat / 2 ^ (32 - n)

/-- CanonicalDecode(T, bits) (41_tables.md R147): the symbol whose code the bits begin with, and its length. -/
def canonicalDecode (t : HuffTable) (bits : Word) : Option (Byte × Nat) :=
  ((List.range t.n).find? (fun k =>
    leadingBits bits (sizeAt t k) == codeAt t k)).map
      (fun k => (t.values.getD k 0, sizeAt t k))

/-! ### The end of a run (70_reset_and_hazards.md R330) -/

/-- The host has made its last access and the core is idle. -/
def RunEnded (s : State) : Prop := s.host = [] ∧ s.busy = false

/-- The run ended faulted: never a successful final state. -/
def EndedFaulted (s : State) : Prop := RunEnded s ∧ s.fault = true

/-- The run ended with a soft scan end, which is not a fault (44_scan.md R224). -/
def EndedScanEarly (s : State) : Prop := RunEnded s ∧ s.scanEnd = true

/-- What is observed at the end of a run: MEM and every register as the host reads it, STATUS and TABLE_VALID among them. -/
structure Observation where
  mem : Memory
  registers : List Word
  deriving DecidableEq, Repr

/-- The observation of a state: the registers at offsets 0x000, 0x004, …, 0x1FC. -/
def observe (s : State) : Observation := ⟨s.mem, (List.range 128).map (fun i => readRegister (4 * i) s)⟩

end Sys2Proof.Safety
end

