-- ==== Sys2Proof/Certificates/Slice0/Obligations.lean ====
section
/-! DEFINITION. The statements for the provers, file by file of the spec. Each docstring names the rule or the section it
formalises; a clause that rests on the model's own choice says so. -/

section ObligationStatements

open Sys2Proof Sys2Proof.Machine Sys2Proof.Safety

/-! ### Encoding (30_encoding.md) -/

/-- Decoding the encoding of a well-formed command gives the command back, every field at every value it admits
(30_encoding.md R92, R94, R100). -/
def Obligations.DecodeOfEncode : Prop :=
  ∀ i : Instr, i.wellFormed = true → decode (encode i) = .ok i

/-- A word that decodes is the encoding of what it decodes to, and that command is well formed: no bit of an accepted word
is ignored (30_encoding.md R96, R97). -/
def Obligations.EncodeOfDecode : Prop :=
  ∀ (w : Word) (i : Instr), decode w = .ok i → i.wellFormed = true ∧ encode i = w

/-- The opcode table read as a decoder table (30_encoding.md section 2): a word is a row's command exactly when
(w AND mask) = match, RECEIVE N > 16 being that row's one refused field value; with the row's opcode and another result of
the mask, a reserved bit is set. -/
def Obligations.OpcodeTableDecodes : Prop :=
  ∀ w : Word, ∀ row ∈ opcodeTable,
    (w &&& row.mask = row.pattern ↔
      ((∃ i, decode w = .ok i ∧ i.mnemonic = row.mnemonic) ∨
        (row.mnemonic = "RECEIVE" ∧ decode w = .error .fieldRange))) ∧
    (w.extractLsb' 0 8 = row.pattern.extractLsb' 0 8 → w &&& row.mask ≠ row.pattern →
      decode w = .error .reservedBit)

/-- An illegal word faults in the step that offers it, with FAULT_INFO 1, 2 or 3, and changes only the state of acceptance
and of fault entry; every other word is accepted (30_encoding.md R95, R96, R97, R99). -/
def Obligations.IllegalWordsFault : Prop :=
  ∀ (s : State) (w : Word) (rest : List HostOp), s.rstN = true → s.busy = false → s.fault = false →
    s.host = .regWrite .word 0x00C w :: rest →
    (0x0C ≤ (w.extractLsb' 0 8).toNat →
      step s = .next (faultEntry ⟨.illegalCommand, 1⟩ (accept w { s with host := rest }))) ∧
    (∀ row ∈ opcodeTable, w.extractLsb' 0 8 = row.pattern.extractLsb' 0 8 → w &&& row.mask ≠ row.pattern →
      step s = .next (faultEntry ⟨.illegalCommand, 2⟩ (accept w { s with host := rest }))) ∧
    (w &&& 0xFFFFE0FF = 0x05 → 16 < (w.extractLsb' 8 5).toNat →
      step s = .next (faultEntry ⟨.illegalCommand, 3⟩ (accept w { s with host := rest }))) ∧
    ((∃ row ∈ opcodeTable, w &&& row.mask = row.pattern) →
      ¬(w &&& 0xFFFFE0FF = 0x05 ∧ 16 < (w.extractLsb' 8 5).toNat) →
      (∃ i, decode w = .ok i) ∧ step s = .next (accept w { s with host := rest }))

/-- Words written out bit by bit from the spec's encodings decode to the commands they stand for (30_encoding.md
section 4; 95_test_vectors.md section 2.11). -/
def Obligations.SampleWords : Prop :=
  decode 0x00000000 = .ok .nop ∧ decode 0x00000001 = .ok .loadDqt ∧ decode 0x00000002 = .ok .loadDht ∧
  decode 0x00000003 = .ok .startScan ∧ decode 0x00000504 = .ok (.huffDecode 5) ∧
  decode 0x00001005 = .ok (.receive 16) ∧ decode 0x00003906 = .ok (.decodeBlock 1 2 3 0) ∧
  decode 0x0000C006 = .ok (.decodeBlock 0 0 0 3) ∧ decode 0x00000007 = .ok .idct ∧
  decode 0x00000008 = .ok .endMcu ∧ decode 0x00000109 = .ok (.findMarker .skip) ∧
  decode 0x0000030A = .ok (.upsample .hv) ∧ decode 0x0000010B = .ok (.colorConvert .gray) ∧
  decode 0x0000000C = .error .reservedOpcode ∧ decode 0x00000100 = .error .reservedBit ∧
  decode 0x20001105 = .error .reservedBit ∧ decode 0x00001105 = .error .fieldRange

/-! ### Acceptance and the step (30_encoding.md section 5) -/

/-- A legal word offered to an idle core without a fault is accepted in that step, and the step after it runs exactly the
command it decodes to: at once where the host has nothing more to do, or at the host's WAIT. An idle core with nothing to do,
or at a WAIT, changes nothing. (That a host access costs one step and a command one more is the model's choice, logs 1 and 2.) -/
def Obligations.StepRunsAcceptedCommand : Prop :=
  (∀ (s : State) (w : Word) (i : Instr) (rest : List HostOp), s.rstN = true → s.busy = false → s.fault = false →
    s.host = .regWrite .word 0x00C w :: rest → decode w = .ok i →
    step s = .next { s with cmdLast := w, done := false, busy := true, host := rest }) ∧
  (∀ (s : State) (i : Instr), s.busy = true → decode s.cmdLast = .ok i → s.host = [] → step s = exec i s) ∧
  (∀ (s : State) (i : Instr) (rest : List HostOp), s.busy = true → decode s.cmdLast = .ok i →
    s.host = .wait :: rest → step s = exec i { s with host := rest }) ∧
  (∀ s : State, s.busy = false → s.host = [] → step s = .next s) ∧
  (∀ (s : State) (rest : List HostOp), s.busy = false → s.host = .wait :: rest → step s = .next { s with host := rest })

/-- OVERRUN (60_exceptions.md R291). -/
def Obligations.OverrunDropsWord : Prop :=
  (∀ (s : State) (w : Word) (rest : List HostOp), s.rstN = true → s.busy = true →
    s.host = .regWrite .word 0x00C w :: rest →
    ∃ t, step s = .next t ∧ t = { s with overrun := true, host := rest } ∧ irq t = irq s) ∧
  (∀ (s : State) (v : Word) (rest : List HostOp), s.rstN = true → s.busy = false → v.getLsbD 3 = true →
    s.host = .regWrite .word 0x008 v :: rest →
    ∃ t, step s = .next t ∧ t = { s with overrun := false, done := s.done && !v.getLsbD 1, host := rest })

/-- FAULT stays 1 until a hard or soft reset, and while it is 1 an idle core discards every CMD write
(60_exceptions.md section 3, R290's first two sentences). -/
def Obligations.FaultIsSticky : Prop :=
  (∀ s t : State, step s = .next t → s.fault = true → t.fault = false →
    ∃ rest, s.host = .rstN false :: rest ∨
      ∃ v : Word, s.rstN = true ∧ v.getLsbD 0 = true ∧ s.host = .regWrite .word 0x004 v :: rest) ∧
  (∀ (s : State) (w : Word) (rest : List HostOp), s.rstN = true → s.busy = false → s.fault = true →
    s.host = .regWrite .word 0x00C w :: rest → step s = .next { s with host := rest })

/-! ### The interrupt (60_exceptions.md section 4) -/

/-- The interrupt line as the host sees it through CTRL and STATUS, and what clears and masks it (60_exceptions.md R293,
R294). A CTRL write with SRST = 0 sets IRQ_EN and nothing else, BUSY = 1 included (10_state.md R22). -/
def Obligations.InterruptLine : Prop :=
  (∀ s : State, irq s =
    ((readRegister 0x004 s).getLsbD 1 && ((readRegister 0x008 s).getLsbD 1 || (readRegister 0x008 s).getLsbD 2))) ∧
  (∀ (s : State) (v : Word) (rest : List HostOp), s.rstN = true → s.busy = false → s.fault = false →
    v.getLsbD 1 = true → s.host = .regWrite .word 0x008 v :: rest → ∃ t, step s = .next t ∧ irq t = false) ∧
  (∀ (s : State) (w : Word) (i : Instr) (rest : List HostOp), s.rstN = true → s.busy = false → s.fault = false →
    decode w = .ok i → s.host = .regWrite .word 0x00C w :: rest → ∃ t, step s = .next t ∧ irq t = false) ∧
  (∀ (s : State) (v : Word) (rest : List HostOp),
    (s.host = .rstN false :: rest ∨
      (s.rstN = true ∧ v.getLsbD 0 = true ∧ s.host = .regWrite .word 0x004 v :: rest)) →
    ∃ t, step s = .next t ∧ irq t = false) ∧
  (∀ s t : State, step s = .next t → s.fault = true → irq s = true → irq t = false →
    ∃ rest, s.host = .rstN false :: rest ∨
      ∃ v : Word, (v.getLsbD 0 = true ∨ v.getLsbD 1 = false) ∧ s.host = .regWrite .word 0x004 v :: rest) ∧
  (∀ (s : State) (v : Word) (rest : List HostOp), s.rstN = true → v.getLsbD 0 = false → v.getLsbD 1 = true →
    (s.done = true ∨ s.fault = true) → s.host = .regWrite .word 0x004 v :: rest →
    ∃ t, step s = .next t ∧ irq t = true) ∧
  (∀ (s : State) (v : Word) (rest : List HostOp), s.rstN = true → v.getLsbD 0 = false →
    s.host = .regWrite .word 0x004 v :: rest →
    ∃ t, step s = .next t ∧ t = { s with irqEn := v.getLsbD 1, host := rest } ∧
      (v.getLsbD 1 = false → irq t = false))

/-! ### The register window (10_state.md) -/

/-- STATUS bit by bit, and what a host write to it does (10_state.md section 2, STATUS). -/
def Obligations.StatusRegister : Prop :=
  (∀ s : State,
    (readRegister 0x008 s).getLsbD 0 = s.busy ∧ (readRegister 0x008 s).getLsbD 1 = s.done ∧
    (readRegister 0x008 s).getLsbD 2 = s.fault ∧ (readRegister 0x008 s).getLsbD 3 = s.overrun ∧
    (readRegister 0x008 s).getLsbD 4 = s.scanEnd ∧ (readRegister 0x008 s).getLsbD 5 = s.cur.markerValid ∧
    (readRegister 0x008 s).getLsbD 5 = (readRegister 0x050 s).getLsbD 8 ∧
    (readRegister 0x008 s).getLsbD 6 = s.cur.nomore ∧ ∀ j, 7 ≤ j → (readRegister 0x008 s).getLsbD j = false) ∧
  (∀ (s : State) (v : Word) (rest : List HostOp), s.rstN = true → s.busy = false →
    s.host = .regWrite .word 0x008 v :: rest →
    step s = .next
      { s with
        done := s.done && !v.getLsbD 1
        overrun := s.overrun && !v.getLsbD 3
        host := rest })

/-- TABLE_VALID (10_state.md R37). -/
def Obligations.TableValidRegister : Prop :=
  (∀ (s : State) (i : Fin 8), (readRegister 0x05C s).getLsbD i.val = (s.ht.get i).isSome) ∧
  (∀ (s : State) (q : Fin 4), (readRegister 0x05C s).getLsbD (8 + q.val) = (s.qt.get q).isSome) ∧
  (∀ (s : State) (j : Nat), 12 ≤ j → (readRegister 0x05C s).getLsbD j = false) ∧
  readRegister 0x05C State.reset = 0

/-- An aligned word write to any register but CTRL, STATUS and CMD, while the core is idle, sets the register's writable
bits and leaves every other bit of the window as the host reads it (10_state.md section 1, the register summary). -/
def Obligations.RegisterReadAfterWrite : Prop :=
  ∀ (s : State) (a : BitVec 9) (v : Word) (rest : List HostOp), s.rstN = true → s.busy = false →
    a.toNat % 4 = 0 → a ≠ 0x004 → a ≠ 0x008 → a ≠ 0x00C → s.host = .regWrite .word a v :: rest →
    ∃ t, step s = .next t ∧ ∀ b : BitVec 9, b.toNat % 4 = 0 →
      readRegister b.toNat t =
        if a = b then (readRegister b.toNat s &&& ~~~writableBits a.toNat) ||| (v &&& writableBits a.toNat)
        else readRegister b.toNat s

/-- What the host may do to the registers while BUSY = 1, with its outcome (70_reset_and_hazards.md R316), and unaligned or
narrow accesses at any time (10_state.md sections 1 and 2). The field the value of a read lands in, and a free value where the
spec says any value, are the model's choice (log 19). -/
def Obligations.RegisterPortWhileBusy : Prop :=
  (∀ (s : State) (w : Word) (rest : List HostOp), s.rstN = true → s.busy = true →
    s.host = .regWrite .word 0x00C w :: rest → step s = .next { s with overrun := true, host := rest }) ∧
  (∀ (s : State) (off : BitVec 9) (v : Word) (rest : List HostOp), s.rstN = true → s.busy = true →
    off ≠ 0x004 → off ≠ 0x00C → s.host = .regWrite .word off v :: rest → step s = .next { s with host := rest }) ∧
  (∀ (s : State) (off : BitVec 9) (rest : List HostOp), s.rstN = true → s.busy = true → off.toNat % 4 = 0 →
    s.host = .regRead .word off :: rest →
    step s =
      if off = 0x000 ∨ off = 0x004 ∨ off = 0x008 then
        .next { s with hostRegData := readRegister off.toNat s, host := rest }
      else if 0x070 ≤ off.toNat ∧ off.toNat < 0x100 then .next { s with hostRegData := 0, host := rest }
      else .next { s with hostRegData := Config.freeWord s.draws 0, draws := s.draws + 1, host := rest }) ∧
  (∀ (s : State) (size : AccessSize) (off : BitVec 9) (v : Word) (rest : List HostOp), s.rstN = true →
    (size ≠ .word ∨ off.toNat % 4 ≠ 0) → s.host = .regWrite size off v :: rest →
    step s = .next { s with host := rest }) ∧
  (∀ (s : State) (off : BitVec 9) (rest : List HostOp), s.rstN = true → s.busy = false → off.toNat % 4 = 0 →
    s.host = .regRead .word off :: rest →
    step s = .next { s with hostRegData := readRegister off.toNat s, host := rest })

/-! ### Reset (10_state.md R51; 70_reset_and_hazards.md section 1) -/

/-- Reset values in one place (10_state.md R51), of the model's reset state, the soft reset and the hard reset, with MEM
kept by an idle core's soft reset; and the zigzag ROM (R48): the diagonal traversal, a permutation of 0..63 from 0 to 63. -/
def Obligations.ResetValues : Prop :=
  AtReset State.reset ∧ irq State.reset = false ∧ readRegister 0x000 State.reset = 0x4A504701 ∧
  State.reset.config.zigzag = zigzagTable ∧
  (zigzagTable.toList.map Fin.val = zigzagWalk ∧ zigzagWalk.length = 64 ∧ (∀ n : Nat, n < 64 → n ∈ zigzagWalk) ∧
    zigzagTable.get 0 = 0 ∧ zigzagTable.get 63 = 63) ∧
  (∀ s : State, AtReset (softReset s) ∧ irq (softReset s) = false ∧ readRegister 0x000 (softReset s) = 0x4A504701 ∧
    (softReset s).config = s.config ∧ (s.busy = false → (softReset s).mem = s.mem)) ∧
  (∀ s : State, AtReset (hardReset s) ∧ irq (hardReset s) = false ∧ readRegister 0x000 (hardReset s) = 0x4A504701 ∧
    (hardReset s).config = s.config)

/-- A CTRL write with SRST = 1 is a soft reset at any time: every register is at its reset value, no command is left
running, and each MEM byte outside the aborted command's write footprint is unchanged (70_reset_and_hazards.md R311). -/
def Obligations.SoftReset : Prop :=
  ∀ (s : State) (v : Word) (rest : List HostOp), s.rstN = true → v.getLsbD 0 = true →
    s.host = .regWrite .word 0x004 v :: rest →
    ∃ t, step s = .next t ∧ AtReset t ∧ t.rstN = true ∧ t.host = rest ∧ t.config = s.config ∧
      ∀ a : Nat,
        (∀ i reads dest, s.busy = true → decode s.cmdLast = .ok i → writerFootprint i s = some (reads, dest) →
          a ∉ dest.addresses) →
        t.mem.read a = s.mem.read a

/-- The hard reset (70_reset_and_hazards.md R310): the state it gives, held over every step while rst_n = 0 whatever the host
does, and the idle core after it. -/
def Obligations.HardReset : Prop :=
  (∀ (s : State) (rest : List HostOp), s.host = .rstN false :: rest →
    ∃ t, step s = .next t ∧ AtReset t ∧ irq t = false ∧ t.rstN = false ∧ t.host = rest ∧ t.config = s.config) ∧
  (∀ (s : State) (size : AccessSize) (off : BitVec 9) (v : Word) (rest : List HostOp), s.rstN = false →
    s.host = .regWrite size off v :: rest → step s = .next { s with host := rest }) ∧
  (∀ s t : State, AtReset s → s.rstN = false → step s = .next t →
    AtReset t ∧ irq t = false ∧ (t.rstN = false ∨ ∃ rest, s.host = .rstN true :: rest)) ∧
  (∀ (s : State) (rest : List HostOp), s.host = .rstN true :: rest →
    step s = .next { s with rstN := true, host := rest })

/-! ### Commands as a whole (10_state.md R52; 60_exceptions.md section 3; 70_reset_and_hazards.md section 4) -/

/-- Every command ends, in completion or in a fault: BUSY falls, and either DONE rises with FAULT as it was, or FAULT rises
with DONE as it was and FAULT_CMD naming the command (70_reset_and_hazards.md section 4, timing). So IssueCommand ends from every
state with rst_n = 1: it waits for a running command, and once BUSY = 0 the host reads the three fault registers where FAULT = 1
and RESULT where it is 0; offered to an idle core without a fault, a legal word's command runs on the ARGs written (section 2,
R315). That the host's polls cost one turn of the core is logs 1 and 2. -/
def Obligations.EveryCommandEnds : Prop :=
  (∀ (i : Instr) (s : State), ∃ t, exec i s = .next t ∧ t.busy = false ∧
    ((t.done = true ∧ t.fault = s.fault ∧ t.faultCode = s.faultCode ∧ t.faultInfo = s.faultInfo ∧
        t.faultCmd = s.faultCmd) ∨
      (t.fault = true ∧ t.done = s.done ∧ t.faultCmd = s.cmdLast))) ∧
  (∀ (w : Word) (args : List (Fin 8 × Word)) (s : State), s.rstN = true →
    ∃ t words, runCommand w args s = .next (t, words) ∧ t.busy = false ∧
      (t.fault = true → words = [t.faultCode, t.faultInfo, t.faultCmd]) ∧ (t.fault = false → words = [t.result])) ∧
  (∀ (w : Word) (i : Instr) (args : List (Fin 8 × Word)) (s t u : State) (words : List Word), s.rstN = true →
    s.busy = false → s.fault = false → decode w = .ok i →
    exec i (accept w
      { s with
        args := args.foldl (fun regs a => regs.set a.1 a.2) s.args
        hostRegData := readRegister 0x008 s }) = .next u →
    runCommand w args s = .next (t, words) → t = { u with hostRegData := t.hostRegData })

/-- No command changes what the host owns: ARG0–ARG7, BS_END, RI, CTRL, CMD, OVERRUN, the parameters, the reset pin and the
host's own accesses (10_state.md sections 2 and 7). -/
def Obligations.CommandsKeepHostState : Prop :=
  ∀ (i : Instr) (s t : State), exec i s = .next t →
    t.args = s.args ∧ t.bsEnd = s.bsEnd ∧ t.ri = s.ri ∧ t.irqEn = s.irqEn ∧ t.cmdLast = s.cmdLast ∧
    t.overrun = s.overrun ∧ t.config = s.config ∧ t.rstN = s.rstN ∧ t.host = s.host ∧
    t.hostRegData = s.hostRegData ∧ t.hostMemData = s.hostMemData

/-- Fault entry, the nine values of FAULT_CODE (60_exceptions.md R281) and everything a faulting command leaves unchanged
(R288): (a) nothing but the fault entry; (b) BAD_CODE_LENGTHS, the one slot; (c) a stream or Huffman fault, the cursor and
RESULT, and for DECODE_BLOCK also COEF and DCPRED[C]. After END_MCU's TODO is 0, the count that 44_scan.md R221 has written
before its refill: that R288's "unchanged" does not take this write back is the model's reading (log 14). -/
def Obligations.FaultLeavesRest : Prop :=
  (∀ (r : Raised) (s : State),
    faultEntry r s =
      { s with
        faultCode := BitVec.ofNat 32 (r.code.category * 256 + r.code.code)
        faultInfo := r.info, faultCmd := s.cmdLast, fault := true, busy := false }) ∧
  (∀ (f : FaultName) (info : Word) (s : State),
    (faultEntry ⟨f, info⟩ s).faultCode =
      match f with
      | .illegalCommand => 0x501
      | .addrRange => 0x502
      | .streamExhausted => 0x303
      | .badHuffmanCode => 0x404
      | .badCodeLengths => 0x105
      | .badDht => 0x106
      | .badDqt => 0x107
      | .unboundTable => 0x108
      | .unsupportedPrecision => 0x209) ∧
  (∀ (i : Instr) (s t : State), exec i s = .next t → s.fault = false → t.fault = true →
    ∃ r : Raised,
      (r.code ∈ [FaultName.illegalCommand, .unboundTable, .unsupportedPrecision, .badDqt, .badDht] ∧
        t = faultEntry r s) ∨
      (r.code = .addrRange ∧ checkedRows i s ≠ [] ∧ t = faultEntry r s) ∨
      (r.code = .badCodeLengths ∧ i = .loadDht ∧ ∃ slot : Fin 8,
        slot.val = 4 * ((s.mem.read (argNat s 0)).toNat / 16) + (s.mem.read (argNat s 0)).toNat % 16 ∧
        t = faultEntry r { s with ht := s.ht.set slot (t.ht.get slot), draws := t.draws }) ∨
      (r.code ∈ [FaultName.streamExhausted, .addrRange, .badHuffmanCode] ∧ usesStream i = true ∧
        t = faultEntry r
          { s with
            cur := t.cur, result := t.result, coef := t.coef, dcpred := t.dcpred, todo := t.todo, draws := t.draws } ∧
        (t.todo = if i = .endMcu then 0 else s.todo) ∧
        ((∀ dc ac q c, i ≠ .decodeBlock dc ac q c) → t.coef = s.coef ∧ t.dcpred = s.dcpred) ∧
        (∀ dc ac q c, i = .decodeBlock dc ac q c → ∀ j, j ≠ c → t.dcpred.get j = s.dcpred.get j)))

/-- MEM changes only in the write footprint of IDCT, UPSAMPLE and COLOR_CONVERT, and a command that faults or has no write
footprint leaves every byte (20_memory.md section 3; 70_reset_and_hazards.md section 4, "the core never"). -/
def Obligations.CommandMemFrame : Prop :=
  ∀ (i : Instr) (s t : State), exec i s = .next t →
    (∀ a : Nat, (∀ reads dest, writerFootprint i s = some (reads, dest) → a ∉ dest.addresses) →
      t.mem.read a = s.mem.read a) ∧
    (writerFootprint i s = none → t.mem = s.mem) ∧
    (s.fault = false → t.fault = true → t.mem = s.mem)

/-- What each command leaves of the tables, the cursor, the predictors, COEF, TODO and SCAN_END (10_state.md section 7). -/
def Obligations.CommandStateFrame : Prop :=
  ∀ (i : Instr) (s t : State), exec i s = .next t →
    (i ≠ .loadDht → t.ht = s.ht) ∧ (i ≠ .loadDqt → t.qt = s.qt) ∧
    (∀ slot : Fin 8, i = .loadDht →
      slot.val ≠ 4 * ((s.mem.read (argNat s 0)).toNat / 16) + (s.mem.read (argNat s 0)).toNat % 16 →
      t.ht.get slot = s.ht.get slot) ∧
    (∀ slot : Fin 4, i = .loadDqt → slot.val ≠ (s.mem.read (argNat s 0)).toNat % 16 →
      t.qt.get slot = s.qt.get slot) ∧
    (usesStream i = false → i ≠ .startScan → t.cur = s.cur) ∧
    (i ≠ .startScan → i ≠ .endMcu → t.todo = s.todo ∧ t.scanEnd = s.scanEnd) ∧
    ((∀ dc ac q c, i ≠ .decodeBlock dc ac q c) →
      t.coef = s.coef ∧ (i ≠ .startScan → i ≠ .endMcu → t.dcpred = s.dcpred)) ∧
    (∀ dc ac q c, i = .decodeBlock dc ac q c → ∀ j, j ≠ c → t.dcpred.get j = s.dcpred.get j) ∧
    (i ≠ .idct → t.idctBuf = s.idctBuf)

/-- The footprint check: a command whose footprint holds an address that does not exist raises ADDR_RANGE with the lowest
one modulo 2^32 and changes nothing else; with an empty footprint, or every address in MEM, its first check passes
(20_memory.md section 3; for LOAD_DHT the 17-byte first stage). -/
def Obligations.FootprintFault : Prop :=
  (∀ (i : Instr) (s : State) (a : Nat), LowestOutside s (checkedRows i s) a →
    exec i s = .next (faultEntry ⟨.addrRange, BitVec.ofNat 32 a⟩ s)) ∧
  (∀ (i : Instr) (s t : State), InMem s (checkedRows i s) → i ≠ .loadDht → usesStream i = false →
    s.fault = false → exec i s = .next t → t.fault = false ∨ t.faultCode ≠ 0x502)

/-- Every step keeps the machine's invariant: MEM in canonical form and inside MEM_SIZE, the bit cursor in one of the three
states of 10_state.md section 4 with zeros below its valid bits, every bound Huffman slot built by the table builder, and a
running command legal, accepted with FAULT = 0 and DONE = 0. -/
def Obligations.StepKeepsInvariant : Prop :=
  ∀ s t : State, MachineInv s → step s = .next t → MachineInv t

/-- The invariant holds after reset. -/
def Obligations.ResetInvariant : Prop := MachineInv State.reset

/-- No step changes a parameter, and each step takes exactly the host's next access (00_scope.md section 4; the host's
accesses as data are the model's choice, log 1). -/
def Obligations.StepKeepsParameters : Prop :=
  ∀ s t : State, step s = .next t → t.config = s.config ∧ t.host = s.host.tail

/-! ### Tables (41_tables.md) -/

/-- LOAD_DQT's outcomes in the order of its checks (41_tables.md section 1). -/
def Obligations.LoadDqtOutcomes : Prop :=
  ∀ s : State,
    (s.config.memSize < argNat s 0 + 65 →
      exec .loadDqt s =
        .next (faultEntry ⟨.addrRange, BitVec.ofNat 32 (max (argNat s 0) s.config.memSize)⟩ s)) ∧
    (argNat s 0 + 65 ≤ s.config.memSize →
      ((s.mem.read (argNat s 0)).toNat / 16 ≠ 0 →
        exec .loadDqt s =
          .next (faultEntry
            ⟨.unsupportedPrecision, BitVec.ofNat 32 ((s.mem.read (argNat s 0)).toNat / 16)⟩ s)) ∧
      ((s.mem.read (argNat s 0)).toNat / 16 = 0 → 3 < (s.mem.read (argNat s 0)).toNat % 16 →
        exec .loadDqt s =
          .next (faultEntry ⟨.badDqt, BitVec.ofNat 32 ((s.mem.read (argNat s 0)).toNat % 16)⟩ s)) ∧
      ∀ tq : Fin 4, (s.mem.read (argNat s 0)).toNat = tq.val →
        ∃ q : Vector Byte 64, (∀ k : Fin 64, q.get k = s.mem.read (argNat s 0 + 1 + k.val)) ∧
          exec .loadDqt s = .next (complete 65 { s with qt := s.qt.set tq (some q) }))

/-- LOAD_DHT of a record in MEM with a legal header, at most 256 symbols and code lengths that fit builds a table from the
record and installs it in slot Tc·4 + Th, nothing else (41_tables.md section 2). -/
def Obligations.LoadDhtInstalls : Prop :=
  ∀ (s : State) (slot : Fin 8) (n : Nat),
    argNat s 0 + 17 + n ≤ s.config.memSize →
    (s.mem.read (argNat s 0)).toNat / 16 ≤ 1 → (s.mem.read (argNat s 0)).toNat % 16 ≤ 3 →
    slot.val = 4 * ((s.mem.read (argNat s 0)).toNat / 16) + (s.mem.read (argNat s 0)).toNat % 16 →
    n = (recordCounts s.mem (argNat s 0)).sum → n ≤ 256 → LengthsFit (recordCounts s.mem (argNat s 0)) →
    ∃ t, buildHuffman (recordCounts s.mem (argNat s 0)) (readBytes s.mem (argNat s 0 + 17) n) = .ok t ∧
      exec .loadDht s = .next (complete (BitVec.ofNat 32 (17 + n)) { s with ht := s.ht.set slot (some t) })

/-- LOAD_DHT's faults in the order of its checks (41_tables.md section 2). The slot after BAD_CODE_LENGTHS is a free value
(log 15). -/
def Obligations.LoadDhtFaults : Prop :=
  ∀ (s : State) (n : Nat), n = (recordCounts s.mem (argNat s 0)).sum →
    (s.config.memSize < argNat s 0 + 17 →
      exec .loadDht s =
        .next (faultEntry ⟨.addrRange, BitVec.ofNat 32 (max (argNat s 0) s.config.memSize)⟩ s)) ∧
    (argNat s 0 + 17 ≤ s.config.memSize →
      ((1 < (s.mem.read (argNat s 0)).toNat / 16 ∨ 3 < (s.mem.read (argNat s 0)).toNat % 16) →
        exec .loadDht s = .next (faultEntry ⟨.badDht, 1⟩ s)) ∧
      (¬(1 < (s.mem.read (argNat s 0)).toNat / 16 ∨ 3 < (s.mem.read (argNat s 0)).toNat % 16) →
        (256 < n → exec .loadDht s = .next (faultEntry ⟨.badDht, 2⟩ s)) ∧
        (n ≤ 256 → s.config.memSize < argNat s 0 + 17 + n →
          exec .loadDht s = .next (faultEntry ⟨.addrRange, BitVec.ofNat 32 s.config.memSize⟩ s)) ∧
        (n ≤ 256 → argNat s 0 + 17 + n ≤ s.config.memSize →
          ∀ l, FirstOverflow (recordCounts s.mem (argNat s 0)) l →
            ∃ (slot : Fin 8) (any : Option HuffTable),
              slot.val = 4 * ((s.mem.read (argNat s 0)).toNat / 16) + (s.mem.read (argNat s 0)).toNat % 16 ∧
              exec .loadDht s =
                .next (faultEntry ⟨.badCodeLengths, BitVec.ofNat 32 l⟩
                  { s with ht := s.ht.set slot any, draws := s.draws + 1 }))))

/-- The builder accepts a legal record exactly when no length class overflows, and otherwise names the first that does;
what it builds holds n, size[] and values[] of 41_tables.md R142, with every code of length L below 2^L (section 3). -/
def Obligations.BuilderAccepts : Prop :=
  ∀ (counts : List Nat) (sym : List Byte), LegalRecord counts sym →
    (LengthsFit counts ↔ ∃ t, buildHuffman counts sym = .ok t) ∧
    (∀ l, FirstOverflow counts l → buildHuffman counts sym = .error ⟨.badCodeLengths, BitVec.ofNat 32 l⟩) ∧
    (∀ t, buildHuffman counts sym = .ok t →
      t.n = counts.sum ∧ t.values = sym ∧ t.size.length = t.n ∧
      (∀ k, k < t.n → 1 ≤ sizeAt t k ∧ sizeAt t k ≤ 16 ∧ codeAt t k < 2 ^ sizeAt t k ∧
        (counts.take (sizeAt t k - 1)).sum ≤ k ∧ k < (counts.take (sizeAt t k)).sum))

/-- maxcode[] and delta[] (41_tables.md R144). -/
def Obligations.BuilderArrays : Prop :=
  ∀ (counts : List Nat) (sym : List Byte) (t : HuffTable), LegalRecord counts sym →
    buildHuffman counts sym = .ok t →
    (∀ l, 1 ≤ l → l ≤ 16 →
      maxcodeAt t l = codesUsed counts l * 2 ^ (16 - l) ∧ maxcodeAt t l ≤ 2 ^ 16 ∧
      deltaAt t l = ((counts.take (l - 1)).sum : Int) - (2 * codesUsed counts (l - 1) : Int)) ∧
    maxcodeAt t 17 = 0xFFFFFFFF ∧
    ∀ k, k < t.n → (codeAt t k : Int) + deltaAt t (sizeAt t k) = k

/-- The fast table (41_tables.md R145). -/
def Obligations.FastTable : Prop :=
  ∀ t : HuffTable, Built t → t.fast.length = 512 ∧ ∀ i, i < 512 →
    (∀ k, k < t.n → sizeAt t k ≤ 9 → i / 2 ^ (9 - sizeAt t k) = codeAt t k →
      t.fast.getD i 0 = BitVec.ofNat 8 k) ∧
    ((∀ k, k < t.n → sizeAt t k ≤ 9 → i / 2 ^ (9 - sizeAt t k) ≠ codeAt t k) → t.fast.getD i 0 = 0xFF)

/-- The invariants of a built table (10_state.md R42). -/
def Obligations.BuiltTableInvariants : Prop :=
  ∀ t : HuffTable, Built t →
    (∀ j k, j ≤ k → k < t.n → sizeAt t j ≤ sizeAt t k) ∧
    (∀ j k, j < t.n → k < t.n → j ≠ k → sizeAt t j ≤ sizeAt t k →
      codeAt t k / 2 ^ (sizeAt t k - sizeAt t j) ≠ codeAt t j) ∧
    (∀ l, 1 ≤ l → l ≤ 16 →
      (∀ k, k < t.n → sizeAt t k = l → (∀ j, j < t.n → sizeAt t j = l → codeAt t j ≤ codeAt t k) →
        maxcodeAt t l = (1 + codeAt t k) * 2 ^ (16 - l)) ∧
      ((∀ k, k < t.n → sizeAt t k ≠ l) →
        maxcodeAt t l = if l = 1 then 0 else maxcodeAt t (l - 1))) ∧
    (∀ i, i < 512 →
      (t.fast.getD i 0 ≠ 0xFF →
        (t.fast.getD i 0).toNat < t.n ∧ sizeAt t (t.fast.getD i 0).toNat ≤ 9 ∧
          i / 2 ^ (9 - sizeAt t (t.fast.getD i 0).toNat) = codeAt t (t.fast.getD i 0).toNat) ∧
      (t.fast.getD i 0 = 0xFF → ∀ k, k < t.n → sizeAt t k ≤ 9 → i / 2 ^ (9 - sizeAt t k) = codeAt t k → k = 255))

/-- The fast and slow lookup of a built table is canonical decoding: the symbol whose code the bits begin with and its
length, or BAD_HUFFMAN_CODE(1); at most one code matches, and sub-code 4 never occurs (41_tables.md R147;
42_entropy.md section 1). -/
def Obligations.LookupIsCanonical : Prop :=
  ∀ t : HuffTable, Built t → ∀ c : Cursor,
    (∀ j k, j < t.n → k < t.n → leadingBits c.bitbuf (sizeAt t j) = codeAt t j →
      leadingBits c.bitbuf (sizeAt t k) = codeAt t k → j = k) ∧
    (∀ k, k < t.n → leadingBits c.bitbuf (sizeAt t k) = codeAt t k →
      lookupSymbol t c = .ok (t.values.getD k 0, consume (sizeAt t k) c)) ∧
    ((∀ k, k < t.n → leadingBits c.bitbuf (sizeAt t k) ≠ codeAt t k) →
      lookupSymbol t c = .error ⟨.badHuffmanCode, 1⟩) ∧
    lookupSymbol t c =
      match canonicalDecode t c.bitbuf with
      | some (v, l) => .ok (v, consume l c)
      | none => .error ⟨.badHuffmanCode, 1⟩

/-! ### The bitstream reader (40_cursor.md) -/

/-- Stuffing and the marker latch: the two ways a 0xFF byte of the stream is taken (40_cursor.md R112, R113). -/
def Obligations.StuffingAndMarkers : Prop :=
  ∀ (s : State) (c : Cursor), c.nomore = false → Fetchable s c.bsPtr.toNat → Fetchable s (c.bsPtr.toNat + 1) →
    s.mem.read c.bsPtr.toNat = 0xFF →
    (s.mem.read (c.bsPtr.toNat + 1) = 0x00 →
      refillByte s c = .ok (0xFF, { c with bsPtr := c.bsPtr + 2 })) ∧
    (s.mem.read (c.bsPtr.toNat + 1) ≠ 0x00 →
      refillByte s c =
        .ok (0x00,
          { c with
            bsPtr := c.bsPtr + 2
            markerCode := s.mem.read (c.bsPtr.toNat + 1)
            markerValid := true
            nomore := true }))

/-- Peek and ResetBitCursor (40_cursor.md R116, R117), and START_SCAN (44_scan.md R220). -/
def Obligations.PeekAndResetCursor : Prop :=
  (∀ (c : Cursor) (n : Nat), 1 ≤ n → n ≤ 16 →
    peek n c < 2 ^ n ∧ ∀ i, i < n → (peek n c).testBit i = c.bitbuf.getLsbD (32 - n + i)) ∧
  (∀ c : Cursor,
    resetBitCursor c =
      { c with bitbuf := 0, bitcnt := 0, nomore := false, markerValid := false, markerCode := 0xFF }) ∧
  (∀ s : State, exec .startScan s =
    .next (complete 0
      { s with
        cur := resetBitCursor s.cur, dcpred := Vector.replicate 4 0, todo := s.ri, scanEnd := false }))

/-- Refill: it cannot fault where the stream is ready, it leaves 24 to 31 valid bits, it keeps the bits that were valid, and
it keeps the cursor's invariants; one turn at a time, the byte it takes and where its bits go (40_cursor.md section 1;
10_state.md section 4). -/
def Obligations.RefillFills : Prop :=
  ∀ (s : State),
    (StreamReady 24 s → ∃ c, refill s s.cur = .ok c) ∧
    (∀ c, refill s s.cur = .ok c →
      24 ≤ c.bitcnt.toNat ∧
      leadingBits c.bitbuf s.cur.bitcnt.toNat = leadingBits s.cur.bitbuf s.cur.bitcnt.toNat ∧
      (CursorOk s.cur → CursorOk c)) ∧
    (∀ c : Cursor,
      (24 ≤ c.bitcnt.toNat → refill s c = .ok c) ∧
      (c.bitcnt.toNat < 24 →
        (∀ b c1, refillByte s c = .ok (b, c1) → refill s c = refill s (pushByte b c1)) ∧
        (∀ r, refillByte s c = .error r → refill s c = .error r))) ∧
    (∀ c : Cursor,
      (c.nomore = true → refillByte s c = .ok (0x00, c)) ∧
      (c.nomore = false → Fetchable s c.bsPtr.toNat → s.mem.read c.bsPtr.toNat ≠ 0xFF →
        refillByte s c = .ok (s.mem.read c.bsPtr.toNat, { c with bsPtr := c.bsPtr + 1 }))) ∧
    (∀ (b : Byte) (c : Cursor), c.bitcnt.toNat < 24 → c.bitbuf <<< c.bitcnt.toNat = 0 →
      pushByte b c = { c with bitbuf := (pushByte b c).bitbuf, bitcnt := c.bitcnt + 8 } ∧
      (pushByte b c).bitcnt.toNat = c.bitcnt.toNat + 8 ∧
      (∀ i, i < 8 → (pushByte b c).bitbuf.getLsbD (24 - c.bitcnt.toNat + i) = b.getLsbD i) ∧
      (∀ i, (i < 24 - c.bitcnt.toNat ∨ 32 - c.bitcnt.toNat ≤ i) →
        (pushByte b c).bitbuf.getLsbD i = c.bitbuf.getLsbD i))

/-- Zero padding (40_cursor.md R114): while NOMORE = 1 a refill reads no MEM, moves no pointer and appends zeros; and NOMORE
falls only by ResetBitCursor or a reset (or is any value after a fault, 60_exceptions.md section 3). -/
def Obligations.ZeroPadding : Prop :=
  (∀ (s : State) (c : Cursor), c.nomore = true →
    ∃ n : BitVec 5, 24 ≤ n.toNat ∧ refill s c = .ok { c with bitcnt := n }) ∧
  (∀ s t : State, step s = .next t → s.cur.nomore = true → t.cur.nomore = false →
    t.fault = true ∨ AtReset t ∨
      ((decode s.cmdLast = .ok .startScan ∨ decode s.cmdLast = .ok .endMcu) ∧ t.cur = resetBitCursor s.cur))

/-- The read-ahead bound: when a refill latches a marker, BS_PTR stands just after it, and a restart goes on from there
(40_cursor.md section 1). -/
def Obligations.ReadAheadBound : Prop :=
  ∀ (s : State) (c c' : Cursor), c.nomore = false → refill s c = .ok c' → c'.nomore = true →
    ∃ p : Nat, c'.bsPtr.toNat = p + 2 ∧ s.mem.read p = 0xFF ∧ s.mem.read (p + 1) = c'.markerCode ∧
      c'.markerCode ≠ 0x00 ∧ c'.markerValid = true ∧ (resetBitCursor c').bsPtr.toNat = p + 2

/-- A fetch at or past BS_END raises STREAM_EXHAUSTED, one at or past MEM_SIZE before BS_END raises ADDR_RANGE, each with the
address of the fetch: the fetches of a refill, first or second byte of a turn, in every command that refills, and every fetch of
FIND_MARKER, which reads even with NOMORE = 1 (40_cursor.md sections 1 and 2; 60_exceptions.md sections 1 to 3). That
END_MCU's fault leaves TODO at the 0 it has counted down to is the model's reading (log 14). -/
def Obligations.StreamFetchFaults : Prop :=
  ∀ (s : State) (r : Raised),
    (∀ c : Cursor, c.nomore = false →
      (FetchFault s c.bsPtr.toNat r ∨
        Fetchable s c.bsPtr.toNat ∧ s.mem.read c.bsPtr.toNat = 0xFF ∧ FetchFault s (c.bsPtr.toNat + 1) r) →
      refillByte s c = .error r ∧ (c.bitcnt.toNat < 24 → refill s c = .error r)) ∧
    (refill s s.cur = .error r →
      (∀ n : BitVec 5, n.toNat ≤ 16 → s.cur.bitcnt.toNat < n.toNat → exec (.receive n) s = .next (streamFault r s)) ∧
      (∀ (i : Fin 8) (t : HuffTable), s.ht.get i = some t → s.cur.bitcnt.toNat < 16 →
        exec (.huffDecode i) s = .next (streamFault r s)) ∧
      (∀ (dc ac q c : Fin 4) (tdc tac : HuffTable) (quant : Vector Byte 64), s.ht.get (dcSlot dc) = some tdc →
        s.ht.get (acSlot ac) = some tac → s.qt.get q = some quant → s.cur.bitcnt.toNat < 16 →
        exec (.decodeBlock dc ac q c) s = .next (blockFault r c s)) ∧
      (s.ri ≠ 0 → s.todo.toNat ≤ 1 → s.cur.markerValid = false → s.cur.bitcnt.toNat < 24 →
        exec .endMcu s = .next (streamFault r { s with todo := 0 }))) ∧
    (∀ (m : FindMode) (n : Nat), FillRun s n → FetchFault s (s.cur.bsPtr.toNat + n) r →
      exec (.findMarker m) s = .next (streamFault r s)) ∧
    (∀ p e : Nat, SkipStart s p → p ≤ e → (∀ a, p ≤ a → a < e → Fetchable s a) →
      (∀ j, p ≤ j → j + 1 < e → ¬MarkerAt s j) → FetchFault s e r →
      exec (.findMarker .skip) s = .next (streamFault r s))

/-- NOP sets RESULT = 0 and DONE and changes nothing else (40_cursor.md section 2). -/
def Obligations.NopCompletes : Prop :=
  ∀ s : State, exec .nop s = .next { s with result := 0, busy := false, done := true }

/-- FIND_MARKER in strict mode: a latched marker is taken with no fetch; a data byte, or 0xFF 0x00, is "not found" with its
bytes consumed; a run of 0xFF and a code is found. The run may start with a latched 0xFF (40_cursor.md section 2). -/
def Obligations.FindMarkerStrict : Prop :=
  ∀ s : State,
    (∀ m : FindMode, s.cur.markerValid = true → s.cur.markerCode ≠ 0xFF →
      exec (.findMarker m) s =
        .next (complete (0x100 ||| s.cur.markerCode.setWidth 32)
          { s with cur := { s.cur with markerValid := false, markerCode := 0xFF } })) ∧
    (s.cur.markerValid = false → Fetchable s s.cur.bsPtr.toNat → s.mem.read s.cur.bsPtr.toNat ≠ 0xFF →
      exec (.findMarker .strict) s =
        .next (complete 0x0FF { s with cur := { s.cur with bsPtr := s.cur.bsPtr + 1 } })) ∧
    (∀ (n : Nat) (m : FindMode),
      (s.cur.markerValid = false ∧ 1 ≤ n ∨ s.cur.markerValid = true ∧ s.cur.markerCode = 0xFF) →
      (∀ j, j < n → s.mem.read (s.cur.bsPtr.toNat + j) = 0xFF) → Fetchable s (s.cur.bsPtr.toNat + n) →
      s.mem.read (s.cur.bsPtr.toNat + n) ≠ 0xFF →
      (s.mem.read (s.cur.bsPtr.toNat + n) ≠ 0x00 →
        exec (.findMarker m) s =
          .next (complete (0x100 ||| (s.mem.read (s.cur.bsPtr.toNat + n)).setWidth 32)
            { s with
              cur :=
                { s.cur with
                  markerValid := false
                  markerCode := if s.cur.markerValid = true then 0xFF else s.cur.markerCode
                  bsPtr := s.cur.bsPtr + BitVec.ofNat 32 (n + 1) } })) ∧
      (s.mem.read (s.cur.bsPtr.toNat + n) = 0x00 →
        exec (.findMarker .strict) s =
          .next (complete 0x0FF
            { s with
              cur :=
                { s.cur with
                  markerValid := false
                  markerCode := if s.cur.markerValid = true then 0xFF else s.cur.markerCode
                  bsPtr := s.cur.bsPtr + BitVec.ofNat 32 (n + 1) } })))

/-- FIND_MARKER in skip mode finds the first marker of the stream and leaves BS_PTR just after it: from BS_PTR with no latch,
and from a latched 0xFF whose run ends in 0x00, after which it goes on skipping (40_cursor.md section 2; 90_conflicts.md
C9). -/
def Obligations.FindMarkerSkip : Prop :=
  ∀ (s : State) (p0 p : Nat), SkipStart s p0 → p0 ≤ p → Fetchable s (p + 1) → MarkerAt s p →
    (∀ j, p0 ≤ j → j < p → ¬MarkerAt s j) →
    exec (.findMarker .skip) s =
      .next (complete (0x100 ||| (s.mem.read (p + 1)).setWidth 32)
        { s with
          cur :=
            { s.cur with
              markerValid := false
              markerCode := if s.cur.markerValid = true then 0xFF else s.cur.markerCode
              bsPtr := BitVec.ofNat 32 (p + 2) } })

/-! ### The entropy decoder (42_entropy.md) -/

/-- ReceiveExtend (42_entropy.md R172). -/
def Obligations.ReceiveExtendValue : Prop :=
  ∀ (s : State) (n : Nat) (c : Cursor), n ≤ 16 →
    (n = 0 → receiveExtend s n c = .ok (0, c)) ∧
    (1 ≤ n → n ≤ c.bitcnt.toNat →
      ∃ v : Word, receiveExtend s n c = .ok (v, consume n c) ∧ v.toInt = extended n (peek n c)) ∧
    (1 ≤ n → c.bitcnt.toNat < n →
      (∀ r, refill s c = .error r → receiveExtend s n c = .error r) ∧
      (∀ c1, refill s c = .ok c1 →
        ∃ v : Word, receiveExtend s n c = .ok (v, consume n c1) ∧ v.toInt = extended n (peek n c1))) ∧
    (1 ≤ n → ∀ c1 : Cursor,
      (-(2 ^ n - 1) ≤ extended n (peek n c1) ∧ extended n (peek n c1) ≤ -2 ^ (n - 1)) ∨
        (2 ^ (n - 1) ≤ extended n (peek n c1) ∧ extended n (peek n c1) ≤ 2 ^ n - 1))

/-- RECEIVE returns the next N bits extended and consumes them, refilling first where too few are valid; N = 0 touches
nothing; N > 16 is refused (42_entropy.md section 2). -/
def Obligations.ReceiveResult : Prop :=
  ∀ (n : BitVec 5) (s : State),
    (n = 0 → exec (.receive n) s = .next (complete 0 s)) ∧
    (1 ≤ n.toNat → n.toNat ≤ 16 → n.toNat ≤ s.cur.bitcnt.toNat →
      ∃ v : Word, v.toInt = extended n.toNat (peek n.toNat s.cur) ∧
        exec (.receive n) s = .next (complete v { s with cur := consume n.toNat s.cur })) ∧
    (1 ≤ n.toNat → n.toNat ≤ 16 → s.cur.bitcnt.toNat < n.toNat → StreamReady n.toNat s →
      ∃ (c : Cursor) (v : Word), refill s s.cur = .ok c ∧ v.toInt = extended n.toNat (peek n.toNat c) ∧
        exec (.receive n) s = .next (complete v { s with cur := consume n.toNat c })) ∧
    (16 < n.toNat → exec (.receive n) s = .next (faultEntry ⟨.illegalCommand, 3⟩ s))

/-- HUFF_DECODE of a bound slot returns the symbol of the code that the bits begin with and consumes that code, refilling
first below 16 valid bits; where no code matches it raises BAD_HUFFMAN_CODE(1). DecodeSymbol, which DECODE_BLOCK uses too, is
that refill and that lookup (42_entropy.md sections 1 and 2). -/
def Obligations.HuffDecodeResult : Prop :=
  (∀ (s : State) (t : HuffTable) (c : Cursor),
    (16 ≤ c.bitcnt.toNat → decodeSymbol s t c = lookupSymbol t c) ∧
    (c.bitcnt.toNat < 16 → ∀ c1, refill s c = .ok c1 → decodeSymbol s t c = lookupSymbol t c1) ∧
    (c.bitcnt.toNat < 16 → ∀ r, refill s c = .error r → decodeSymbol s t c = .error r)) ∧
  ∀ (i : Fin 8) (t : HuffTable) (s : State), s.ht.get i = some t → Built t →
    (∀ k, 16 ≤ s.cur.bitcnt.toNat → k < t.n → leadingBits s.cur.bitbuf (sizeAt t k) = codeAt t k →
      exec (.huffDecode i) s =
        .next (complete ((t.values.getD k 0).setWidth 32) { s with cur := consume (sizeAt t k) s.cur })) ∧
    (s.cur.bitcnt.toNat < 16 → StreamReady 16 s →
      ∃ c, refill s s.cur = .ok c ∧
        (∀ k, k < t.n → leadingBits c.bitbuf (sizeAt t k) = codeAt t k →
          exec (.huffDecode i) s =
            .next (complete ((t.values.getD k 0).setWidth 32) { s with cur := consume (sizeAt t k) c })) ∧
        ((∀ k, k < t.n → leadingBits c.bitbuf (sizeAt t k) ≠ codeAt t k) →
          exec (.huffDecode i) s = .next (streamFault ⟨.badHuffmanCode, 1⟩ s))) ∧
    (16 ≤ s.cur.bitcnt.toNat → (∀ k, k < t.n → leadingBits s.cur.bitbuf (sizeAt t k) ≠ codeAt t k) →
      exec (.huffDecode i) s = .next (streamFault ⟨.badHuffmanCode, 1⟩ s))

/-- An unbound slot stops HUFF_DECODE and DECODE_BLOCK before any state changes: the DC slot, then the AC slot, then the
quantization slot (42_entropy.md section 2; 60_exceptions.md section 3, priority). -/
def Obligations.UnboundTableFaults : Prop :=
  ∀ s : State,
    (∀ i : Fin 8, s.ht.get i = none →
      exec (.huffDecode i) s = .next (faultEntry ⟨.unboundTable, BitVec.ofNat 32 i.val⟩ s)) ∧
    (∀ (dc ac q c : Fin 4) (dcs acs : Fin 8), dcs.val = dc.val → acs.val = 4 + ac.val →
      (s.ht.get dcs = none →
        exec (.decodeBlock dc ac q c) s = .next (faultEntry ⟨.unboundTable, BitVec.ofNat 32 dc.val⟩ s)) ∧
      (s.ht.get dcs ≠ none → s.ht.get acs = none →
        exec (.decodeBlock dc ac q c) s = .next (faultEntry ⟨.unboundTable, BitVec.ofNat 32 (4 + ac.val)⟩ s)) ∧
      (s.ht.get dcs ≠ none → s.ht.get acs ≠ none → s.qt.get q = none →
        exec (.decodeBlock dc ac q c) s = .next (faultEntry ⟨.unboundTable, BitVec.ofNat 32 (8 + q.val)⟩ s)))

/-- DECODE_BLOCK of a block whose DC category, magnitude and end-of-block symbol are all in the valid bits: the predictor
takes the difference, COEF holds the dequantized predictor and zeros, and RESULT is 1 plus the symbol's run
(42_entropy.md section 2). -/
def Obligations.DecodeBlockDcOnly : Prop :=
  ∀ (dc ac q c : Fin 4) (dcs acs : Fin 8) (tdc tac : HuffTable) (quant : Vector Byte 64) (s : State) (k j size : Nat),
    dcs.val = dc.val → acs.val = 4 + ac.val →
    s.ht.get dcs = some tdc → s.ht.get acs = some tac → s.qt.get q = some quant → Built tdc → Built tac →
    k < tdc.n → leadingBits s.cur.bitbuf (sizeAt tdc k) = codeAt tdc k →
    size = (tdc.values.getD k 0).toNat → size ≤ 16 →
    16 ≤ s.cur.bitcnt.toNat → sizeAt tdc k + size + 16 ≤ s.cur.bitcnt.toNat →
    j < tac.n → leadingBits (s.cur.bitbuf <<< (sizeAt tdc k + size)) (sizeAt tac j) = codeAt tac j →
    (tac.values.getD j 0).toNat % 16 = 0 → tac.values.getD j 0 ≠ 0xF0 →
    ∃ d pred : Word,
      d.toInt = (if size = 0 then 0 else extended size (leadingBits (s.cur.bitbuf <<< sizeAt tdc k) size)) ∧
      pred = s.dcpred.get c + d ∧
      exec (.decodeBlock dc ac q c) s =
        .next (complete (BitVec.ofNat 32 (1 + (tac.values.getD j 0).toNat / 16))
          { s with
            cur := consume (sizeAt tac j) (consume size (consume (sizeAt tdc k) s.cur))
            dcpred := s.dcpred.set c pred
            coef := (Vector.replicate 64 0).set 0 (pred * (quant.get 0).setWidth 32) })

/-- DECODE_BLOCK with its tables bound: the DC difference, the AC loop from k = 1 on a block that holds only the dequantized
predictor, and the fault of either; and what a completed one leaves: DCPRED[C] takes the DC difference and no other predictor
changes, COEF[0] is the dequantized predictor, every position from RESULT on is 0, and only the cursor, DCPRED[C], COEF and
RESULT change (42_entropy.md sections 2 and 3). The bound 77 is the last position plus the longest run that may end a block. -/
def Obligations.DecodeBlockOutcome : Prop :=
  (∀ (s : State) (t : HuffTable) (c : Cursor),
    (∀ r, decodeSymbol s t c = .error r → decodeDc s t c = .error r) ∧
    (∀ cat c1, decodeSymbol s t c = .ok (cat, c1) →
      (16 < cat.toNat → decodeDc s t c = .error ⟨.badHuffmanCode, 2⟩) ∧
      (cat.toNat ≤ 16 → decodeDc s t c = receiveExtend s cat.toNat c1))) ∧
  (∀ (dc ac q c : Fin 4) (s : State) (tdc tac : HuffTable) (quant : Vector Byte 64),
    s.ht.get (dcSlot dc) = some tdc → s.ht.get (acSlot ac) = some tac → s.qt.get q = some quant →
    (∀ r, decodeDc s tdc s.cur = .error r → exec (.decodeBlock dc ac q c) s = .next (blockFault r c s)) ∧
    (∀ (d pred : Word) (c1 : Cursor) (b0 : BlockState), decodeDc s tdc s.cur = .ok (d, c1) →
      pred = s.dcpred.get c + d →
      b0 = ⟨c1, (Vector.replicate 64 0).set 0 (pred * (quant.get 0).setWidth 32), 1⟩ →
      (∀ r, acLoop s tac quant 63 b0 = .error r → exec (.decodeBlock dc ac q c) s = .next (blockFault r c s)) ∧
      (∀ b, acLoop s tac quant 63 b0 = .ok b →
        exec (.decodeBlock dc ac q c) s =
          .next (complete (BitVec.ofNat 32 b.k)
            { s with cur := b.cur, dcpred := s.dcpred.set c pred, coef := b.coef })))) ∧
  ∀ (dc ac q c : Fin 4) (s t : State), s.config.zigzag = zigzagTable → s.fault = false →
    exec (.decodeBlock dc ac q c) s = .next t → t.fault = false →
    ∃ (tdc tac : HuffTable) (quant : Vector Byte 64) (d : Word) (c1 : Cursor) (k : Nat),
      s.ht.get (dcSlot dc) = some tdc ∧ s.ht.get (acSlot ac) = some tac ∧ s.qt.get q = some quant ∧
      decodeDc s tdc s.cur = .ok (d, c1) ∧ 1 ≤ k ∧ k ≤ 77 ∧
      t = complete (BitVec.ofNat 32 k)
        { s with cur := t.cur, dcpred := s.dcpred.set c (s.dcpred.get c + d), coef := t.coef } ∧
      t.coef.get 0 = (s.dcpred.get c + d) * (quant.get 0).setWidth 32 ∧
      ∀ j : Fin 64, k ≤ j.val → t.coef.get (zigzagTable.get j) = 0

/-- One turn of DECODE_BLOCK's AC loop, the dequantizer and the zigzag reorder; and the loop as repeated turns while k < 64,
of which 63 are enough (42_entropy.md sections 2 and 3). -/
def Obligations.AcCoefficients : Prop :=
  (∀ (s : State) (t : HuffTable) (q : Vector Byte 64) (b : BlockState),
    (∀ r, decodeSymbol s t b.cur = .error r → acStep s t q b = .error r) ∧
    ∀ (rs : Byte) (c1 : Cursor), decodeSymbol s t b.cur = .ok (rs, c1) →
      (rs.toNat % 16 = 0 → rs ≠ 0xF0 → acStep s t q b = .ok (⟨c1, b.coef, b.k + rs.toNat / 16⟩, true)) ∧
      ((rs.toNat % 16 ≠ 0 ∨ rs = 0xF0) → 63 < b.k + rs.toNat / 16 →
        acStep s t q b = .error ⟨.badHuffmanCode, 3⟩) ∧
      ((rs.toNat % 16 ≠ 0 ∨ rs = 0xF0) → b.k + rs.toNat / 16 ≤ 63 →
        ∀ r, receiveExtend s (rs.toNat % 16) c1 = .error r → acStep s t q b = .error r) ∧
      (∀ (j : Fin 64) (v : Word) (c2 : Cursor), (rs.toNat % 16 ≠ 0 ∨ rs = 0xF0) → j.val = b.k + rs.toNat / 16 →
        receiveExtend s (rs.toNat % 16) c1 = .ok (v, c2) →
        acStep s t q b =
          .ok (⟨c2, b.coef.set (s.config.zigzag.get j) (v * (q.get j).setWidth 32), j.val + 1⟩, false))) ∧
  (∀ (s : State) (t : HuffTable) (q : Vector Byte 64) (b : BlockState), 1 ≤ b.k →
    (64 ≤ b.k → acLoop s t q 63 b = .ok b) ∧
    (b.k < 64 →
      (∀ r, acStep s t q b = .error r → acLoop s t q 63 b = .error r) ∧
      (∀ b1, acStep s t q b = .ok (b1, true) → acLoop s t q 63 b = .ok b1) ∧
      (∀ b1, acStep s t q b = .ok (b1, false) → acLoop s t q 63 b = acLoop s t q 63 b1)) ∧
    ∀ n : Nat, 63 ≤ n → acLoop s t q n b = acLoop s t q 63 b)

/-! ### The IDCT (43_idct.md) -/

/-- IDCT writes the 64 samples of COEF at D + r·S + c, no other byte, and changes nothing else but V, which is a free value
(43_idct.md section 3; log 8). -/
def Obligations.IdctWritesBlock : Prop :=
  ∀ (s : State), 8 ≤ argLow s 1 → argNat s 0 + 7 * argLow s 1 + 8 ≤ s.config.memSize →
    ∃ t, exec .idct s = .next t ∧
      t = complete 0 { s with mem := t.mem, idctBuf := t.idctBuf, draws := t.draws } ∧
      (∀ r c : Nat, r < 8 → c < 8 →
        t.mem.read (argNat s 0 + r * argLow s 1 + c) = blockAt (idctBlock s.config.kernel s.coef) r c) ∧
      Untouched s t (idctRows s)

/-- IDCT with a stride below 8, which overlaps its own rows: it completes, no other byte changes, a byte that one sample alone
is written to holds it, and a byte written more than once is any value (70_reset_and_hazards.md section 3; 43_idct.md section 3;
that R320's "any value" goes before the narrower words of 20_memory.md R76 is log 17). -/
def Obligations.IdctSelfOverlap : Prop :=
  ∀ (s : State), argLow s 1 < 8 → argNat s 0 + 7 * argLow s 1 + 8 ≤ s.config.memSize →
    ∃ t, exec .idct s = .next t ∧
      t = complete 0 { s with mem := t.mem, idctBuf := t.idctBuf, draws := t.draws } ∧
      (∀ r c : Nat, r < 8 → c < 8 → WrittenOnce (idctRows s) r c →
        t.mem.read (argNat s 0 + r * argLow s 1 + c) = blockAt (idctBlock s.config.kernel s.coef) r c) ∧
      Untouched s t (idctRows s)

/-- The two passes under KERNEL_K12 over the integers: the vertical pass is wrap32 of the butterfly of a column with VBIAS 512,
shifted by 10, the horizontal one that of a row of the vertical pass with HBIAS 257·2^16, shifted by 17 and clamped
(43_idct.md sections 1 and 2). A DC-only block is uniform, clamp(floor((d + 1028) / 8), 0, 255), so an all-zero block gives 128
everywhere (section 4). -/
def Obligations.IdctArithmetic : Prop :=
  (∀ (coef : Vector Word 64) (r c : Nat), r < 8 → c < 8 →
    (blockAt (verticalPass .k12 coef) r c).toInt =
      wrap32 (k12Output (fun j => (blockAt coef j c).toInt) 512 r) / 1024 ∧
    (blockAt (idctBlock .k12 coef) r c).toNat =
      clamp255 (wrap32 (k12Output (fun j => (blockAt (verticalPass .k12 coef) r j).toInt) (257 * 65536) c) / 131072)) ∧
  (∀ (d : Word) (j : Fin 64), -65536 < d.toInt → d.toInt < 65536 →
    ((idctBlock .k12 ((Vector.replicate 64 0).set 0 d)).get j).toNat = clamp255 ((d.toInt + 1028) / 8)) ∧
  (∀ j : Fin 64, (idctBlock .k12 (Vector.replicate 64 0)).get j = 128)

/-! ### Scans (44_scan.md) -/

/-- END_MCU: no restart interval; before a restart point; a restart taken; a soft scan end; with the restart point's refill
where no marker is latched, and its fault (44_scan.md sections 1 and 2; 60_exceptions.md section 3). That fault
leaves TODO at the 0 it has counted down to, the model's reading (log 14). -/
def Obligations.EndMcuOutcomes : Prop :=
  ∀ s : State,
    (s.ri = 0 → exec .endMcu s = .next (complete 0 s)) ∧
    (s.ri ≠ 0 → 2 ≤ s.todo.toNat → exec .endMcu s = .next (complete 0 { s with todo := s.todo - 1 })) ∧
    (s.ri ≠ 0 → s.todo.toNat ≤ 1 → ∀ c : Cursor,
      ((s.cur.markerValid = true ∨ 24 ≤ s.cur.bitcnt.toNat) ∧ c = s.cur ∨
        s.cur.markerValid = false ∧ s.cur.bitcnt.toNat < 24 ∧ refill s s.cur = .ok c) →
      (c.markerValid = true ∧ 0xD0 ≤ c.markerCode.toNat ∧ c.markerCode.toNat ≤ 0xD7 →
        exec .endMcu s =
          .next (complete 1
            { s with
              cur := { c with bitbuf := 0, bitcnt := 0, nomore := false, markerValid := false, markerCode := 0xFF }
              dcpred := Vector.replicate 4 0
              todo := s.ri })) ∧
      (¬(c.markerValid = true ∧ 0xD0 ≤ c.markerCode.toNat ∧ c.markerCode.toNat ≤ 0xD7) →
        exec .endMcu s = .next (complete 2 { s with cur := c, todo := 0, scanEnd := true }))) ∧
    (s.ri ≠ 0 → s.todo.toNat ≤ 1 → s.cur.markerValid = false → s.cur.bitcnt.toNat < 24 →
      ∀ r : Raised, refill s s.cur = .error r →
        exec .endMcu s = .next (streamFault r { s with todo := 0 }))

/-- The DC predictor reset property (44_scan.md R223). -/
def Obligations.PredictorReset : Prop :=
  (∀ s t : State,
    (exec .startScan s = .next t ∨ (exec .endMcu s = .next t ∧ s.fault = false ∧ t.fault = false ∧ t.result = 1)) →
    ∀ c : Fin 4, t.dcpred.get c = 0) ∧
  (∀ (s t : State) (dc ac q c : Fin 4), s.dcpred.get c = 0 → s.config.zigzag = zigzagTable → s.fault = false →
    exec (.decodeBlock dc ac q c) s = .next t → t.fault = false →
    ∃ (tdc : HuffTable) (quant : Vector Byte 64) (d : Word) (c1 : Cursor),
      s.ht.get (dcSlot dc) = some tdc ∧ s.qt.get q = some quant ∧ decodeDc s tdc s.cur = .ok (d, c1) ∧
      (∀ p : Vector Word 4, decodeDc { s with dcpred := p } tdc s.cur = .ok (d, c1)) ∧
      t.dcpred.get c = d ∧ t.coef.get 0 = d * (quant.get 0).setWidth 32)

/-! ### Upsampling (45_upsample.md) -/

/-- The four filters of UPSAMPLE (45_upsample.md R241, R242, R243, R244), each output sample from the input plane, with the
command's frame; an empty plane completes with nothing written (R240). Planes may overlap: where the destination meets the
source every destination byte is any value, and where it meets itself each byte written more than once is
(70_reset_and_hazards.md R320; log 16). That a byte written once keeps its sample in a destination that meets itself
(`OutputIs`, log 17), and the counter of free values (log 12), are the model's choice. -/
def Obligations.UpsampleFilters : Prop :=
  (∀ (m : UpsampleMode) (s : State), (argLow s 3 = 0 ∨ argHigh s 3 = 0) →
    exec (.upsample m) s = .next (complete 0 s)) ∧
  (∀ (m : UpsampleMode) (s : State), UpsampleFits m s →
    ∃ t, exec (.upsample m) s = .next t ∧ t = complete 0 { s with mem := t.mem, draws := t.draws } ∧
      Untouched s t (upsampleRows m s) ∧
      (UpsampleReady m s → t.draws = s.draws) ∧
      (Apart [upsampleReads s] (upsampleRows m s) →
        (m = .copy → ∀ y x : Nat, y < argHigh s 3 → x < argLow s 3 →
          OutputIs t.mem (upsampleRows m s) y x (planeAt s.mem (upsampleReads s) y x)) ∧
        (m = .h → ∀ y i : Nat, y < argHigh s 3 → i < argLow s 3 →
          OutputIs t.mem (upsampleRows m s) y (2 * i)
            ((3 * planeAt s.mem (upsampleReads s) y i
              + planeAt s.mem (upsampleReads s) y (clampIndex ((i : Int) - 1) (argLow s 3)) + 2) / 4) ∧
          OutputIs t.mem (upsampleRows m s) y (2 * i + 1)
            ((3 * planeAt s.mem (upsampleReads s) y i
              + planeAt s.mem (upsampleReads s) y (clampIndex ((i : Int) + 1) (argLow s 3)) + 2) / 4)) ∧
        (m = .v → ∀ j x : Nat, j < argHigh s 3 → x < argLow s 3 →
          OutputIs t.mem (upsampleRows m s) (2 * j) x
            ((3 * planeAt s.mem (upsampleReads s) j x
              + planeAt s.mem (upsampleReads s) (clampIndex ((j : Int) - 1) (argHigh s 3)) x + 2) / 4) ∧
          OutputIs t.mem (upsampleRows m s) (2 * j + 1) x
            ((3 * planeAt s.mem (upsampleReads s) j x
              + planeAt s.mem (upsampleReads s) (clampIndex ((j : Int) + 1) (argHigh s 3)) x + 2) / 4)) ∧
        (m = .hv → ∀ j i e f : Nat, j < argHigh s 3 → i < argLow s 3 →
          (e = 0 ∧ f = clampIndex ((j : Int) - 1) (argHigh s 3) ∨
            e = 1 ∧ f = clampIndex ((j : Int) + 1) (argHigh s 3)) →
          ∀ g : Nat → Nat,
            (∀ x, g x = 3 * planeAt s.mem (upsampleReads s) j x + planeAt s.mem (upsampleReads s) f x) →
            OutputIs t.mem (upsampleRows m s) (2 * j + e) (2 * i)
              ((3 * g i + g (clampIndex ((i : Int) - 1) (argLow s 3)) + 8) / 16) ∧
            OutputIs t.mem (upsampleRows m s) (2 * j + e) (2 * i + 1)
              ((3 * g i + g (clampIndex ((i : Int) + 1) (argLow s 3)) + 8) / 16))))

/-- Every output sample lies between the smallest and the largest input sample of the plane, so a constant plane stays
constant (45_upsample.md section 2, properties). -/
def Obligations.UpsampleBounds : Prop :=
  ∀ (m : UpsampleMode) (s : State) (lo hi : Nat), UpsampleReady m s →
    (∀ y x : Nat, y < argHigh s 3 → x < argLow s 3 →
      lo ≤ planeAt s.mem (upsampleReads s) y x ∧ planeAt s.mem (upsampleReads s) y x ≤ hi) →
    ∃ t, exec (.upsample m) s = .next t ∧ ∀ y x : Nat, y < (upsampleRows m s).count → x < (upsampleRows m s).len →
      lo ≤ planeAt t.mem (upsampleRows m s) y x ∧ planeAt t.mem (upsampleRows m s) y x ≤ hi

/-! ### Colour conversion (46_color.md) -/

/-- COLOR_CONVERT writes R, G, B, 0xFF for every pixel, from YCC or, in gray mode, from Y alone, and no other byte; read as a
little-endian word a pixel is 0xFFBBGGRR; an empty size completes with nothing written (46_color.md R260 to R263). Regions may
overlap: where the output meets a plane that is read every output byte is any value, and where it meets itself (os < 4w) each
byte written more than once is (70_reset_and_hazards.md R320; log 16). That a byte written once keeps its value in an output that
meets itself (log 17), and the counter of free values (log 12), are the model's choice. -/
def Obligations.ColorConvertPixels : Prop :=
  (∀ (m : ColorMode) (s : State), (argLow s 4 = 0 ∨ argHigh s 4 = 0) →
    exec (.colorConvert m) s = .next (complete 0 s)) ∧
  (∀ (m : ColorMode) (s : State), ColorFits m s →
    ∃ t, exec (.colorConvert m) s = .next t ∧ t = complete 0 { s with mem := t.mem, draws := t.draws } ∧
      Untouched s t (colorRows s) ∧
      (Apart (colorReads m s) (colorRows s) → WritesOnce (colorRows s) → t.draws = s.draws) ∧
      (Apart (colorReads m s) (colorRows s) →
        ∀ y x a : Nat, y < argHigh s 4 → x < argLow s 4 → a = argNat s 3 + y * argNat s 6 + 4 * x →
          ∃ p : Pixel,
            (m = .gray → p = ⟨s.mem.read (argNat s 0 + y * argLow s 5 + x), s.mem.read (argNat s 0 + y * argLow s 5 + x),
              s.mem.read (argNat s 0 + y * argLow s 5 + x)⟩) ∧
            (m = .ycc → p = yccPixel s.config.csc (s.mem.read (argNat s 0 + y * argLow s 5 + x))
              (s.mem.read (argNat s 1 + y * argHigh s 5 + x)) (s.mem.read (argNat s 2 + y * argHigh s 5 + x))) ∧
            (WrittenOnce (colorRows s) y (4 * x) → t.mem.read a = p.r) ∧
            (WrittenOnce (colorRows s) y (4 * x + 1) → t.mem.read (a + 1) = p.g) ∧
            (WrittenOnce (colorRows s) y (4 * x + 2) → t.mem.read (a + 2) = p.b) ∧
            (WrittenOnce (colorRows s) y (4 * x + 3) → t.mem.read (a + 3) = 0xFF) ∧
            ((∀ j, j < 4 → WrittenOnce (colorRows s) y (4 * x + j)) →
              littleEndianValue t.mem a 4 = 0xFF000000 + p.b.toNat * 65536 + p.g.toNat * 256 + p.r.toNat)))

/-- YCC with the default CSC_COEF over the integers: no intermediate wraps (46_color.md section 2). -/
def Obligations.ColorArithmetic : Prop :=
  ∀ y cb cr : Byte,
    (yccPixel defaultCsc y cb cr).r.toNat =
      clamp255 (((y.toNat : Int) * 65536 + 32768 + 91881 * ((cr.toNat : Int) - 128)) / 65536) ∧
    (yccPixel defaultCsc y cb cr).g.toNat =
      clamp255 (((y.toNat : Int) * 65536 + 32768 - 46793 * ((cr.toNat : Int) - 128)
        - 22544 * ((cb.toNat : Int) - 128)) / 65536) ∧
    (yccPixel defaultCsc y cb cr).b.toNat =
      clamp255 (((y.toNat : Int) * 65536 + 32768 + 116130 * ((cb.toNat : Int) - 128)) / 65536)

/-- The properties of the conversion with the default CSC_COEF (46_color.md R264). -/
def Obligations.ColorProperties : Prop :=
  (∀ y : Byte, yccPixel defaultCsc y 128 128 = ⟨y, y, y⟩) ∧
  (∀ y y' cb cr : Byte, y.toNat ≤ y'.toNat →
    (yccPixel defaultCsc y cb cr).r.toNat ≤ (yccPixel defaultCsc y' cb cr).r.toNat ∧
    (yccPixel defaultCsc y cb cr).g.toNat ≤ (yccPixel defaultCsc y' cb cr).g.toNat ∧
    (yccPixel defaultCsc y cb cr).b.toNat ≤ (yccPixel defaultCsc y' cb cr).b.toNat) ∧
  (∀ y cb cb' cr : Byte, (yccPixel defaultCsc y cb cr).r = (yccPixel defaultCsc y cb' cr).r) ∧
  (∀ y cb cr cr' : Byte, (yccPixel defaultCsc y cb cr).b = (yccPixel defaultCsc y cb cr').b)

/-! ### The host's MEM port (20_memory.md section 2) -/

/-- A host MEM access of `n` bytes is little-endian: a write sets byte i to bits [8i+7:8i], and a read gives them back; no
other byte changes, and a read changes no byte (20_memory.md section 2). While BUSY = 1, or past MEM_SIZE, the port stops
under a name of its own (log 20, the model's choice). -/
def Obligations.HostMemAccess : Prop :=
  (∀ (s : State) (a : Word) (n v : Nat) (rest : List HostOp), s.rstN = true → s.busy = false →
    a.toNat + n ≤ s.config.memSize → s.host = .memWrite a n v :: rest →
    ∃ t, step s = .next t ∧ t = { s with mem := t.mem, host := rest } ∧
      (∀ i, i < n → (t.mem.read (a.toNat + i)).toNat = v / 256 ^ i % 256) ∧
      (∀ b : Nat, (b < a.toNat ∨ a.toNat + n ≤ b) → t.mem.read b = s.mem.read b) ∧
      littleEndianValue t.mem a.toNat n = v % 256 ^ n) ∧
  (∀ (s : State) (a : Word) (n : Nat) (rest : List HostOp), s.rstN = true → s.busy = false →
    a.toNat + n ≤ s.config.memSize → s.host = .memRead a n :: rest →
    step s = .next { s with hostMemData := littleEndianValue s.mem a.toNat n, host := rest }) ∧
  (∀ (s : State) (a : Word) (n v : Nat) (rest : List HostOp), s.rstN = true →
    (s.host = .memWrite a n v :: rest ∨ s.host = .memRead a n :: rest) →
    (s.busy = true → step s = .refused .memWhileBusy) ∧
    (s.busy = false → 0 < n → s.config.memSize < a.toNat + n →
      step s = .fault (.memPortRange (max a.toNat s.config.memSize))))

end ObligationStatements
end

