-- ==== Sys2Proof/Laws/Cursor.lean ====
section
/-! SUPPORT. What each primitive of the bitstream reader and the entropy decoder can do, said once (40_cursor.md R110–R117;
42_entropy.md R170–R172). -/
namespace Sys2Proof.Machine

/-! ### Small lemmas -/

@[simp] theorem pushByte_bitbuf (b : Byte) (c : Cursor) :
    (pushByte b c).bitbuf = c.bitbuf ||| (b.setWidth 32 <<< (24 - c.bitcnt.toNat)) := rfl
@[simp] theorem pushByte_bitcnt (b : Byte) (c : Cursor) : (pushByte b c).bitcnt = c.bitcnt + 8 := rfl
@[simp] theorem pushByte_nomore (b : Byte) (c : Cursor) : (pushByte b c).nomore = c.nomore := rfl
@[simp] theorem pushByte_markerValid (b : Byte) (c : Cursor) : (pushByte b c).markerValid = c.markerValid := rfl
@[simp] theorem pushByte_markerCode (b : Byte) (c : Cursor) : (pushByte b c).markerCode = c.markerCode := rfl
@[simp] theorem pushByte_bsPtr (b : Byte) (c : Cursor) : (pushByte b c).bsPtr = c.bsPtr := rfl
@[simp] theorem consume_bitbuf (n : Nat) (c : Cursor) : (consume n c).bitbuf = c.bitbuf <<< n := rfl
@[simp] theorem consume_bitcnt (n : Nat) (c : Cursor) : (consume n c).bitcnt = c.bitcnt - BitVec.ofNat 5 n := rfl
@[simp] theorem consume_nomore (n : Nat) (c : Cursor) : (consume n c).nomore = c.nomore := rfl
@[simp] theorem consume_markerValid (n : Nat) (c : Cursor) : (consume n c).markerValid = c.markerValid := rfl
@[simp] theorem consume_markerCode (n : Nat) (c : Cursor) : (consume n c).markerCode = c.markerCode := rfl
@[simp] theorem consume_bsPtr (n : Nat) (c : Cursor) : (consume n c).bsPtr = c.bsPtr := rfl
@[simp] theorem resetBitCursor_bsPtr (c : Cursor) : (resetBitCursor c).bsPtr = c.bsPtr := rfl
@[simp] theorem resetBitCursor_bitcnt (c : Cursor) : (resetBitCursor c).bitcnt = 0 := rfl
@[simp] theorem resetBitCursor_bitbuf (c : Cursor) : (resetBitCursor c).bitbuf = 0 := rfl
@[simp] theorem resetBitCursor_nomore (c : Cursor) : (resetBitCursor c).nomore = false := rfl
@[simp] theorem resetBitCursor_markerValid (c : Cursor) : (resetBitCursor c).markerValid = false := rfl
@[simp] theorem resetBitCursor_markerCode (c : Cursor) : (resetBitCursor c).markerCode = 0xFF := rfl
@[simp] theorem dropLatch_nomore (c : Cursor) : (dropLatch c).nomore = c.nomore := rfl
@[simp] theorem dropLatch_bsPtr (c : Cursor) : (dropLatch c).bsPtr = c.bsPtr := rfl
@[simp] theorem dropLatch_bitbuf (c : Cursor) : (dropLatch c).bitbuf = c.bitbuf := rfl
@[simp] theorem dropLatch_bitcnt (c : Cursor) : (dropLatch c).bitcnt = c.bitcnt := rfl
@[simp] theorem dropLatch_markerValid (c : Cursor) : (dropLatch c).markerValid = false := rfl
@[simp] theorem dropLatch_markerCode (c : Cursor) : (dropLatch c).markerCode = 0xFF := rfl

/-! ### ReadStreamByte and Refill -/

/-- A fetch that succeeds. -/
theorem readStreamByte_ok {s : State} {c c' : Cursor} {b : Byte} (h : readStreamByte s c = .ok (b, c')) :
    c.bsPtr.toNat < s.bsEnd.toNat ∧ c.bsPtr.toNat < s.config.memSize ∧ b = s.mem.read c.bsPtr.toNat ∧
      c' = { c with bsPtr := c.bsPtr + 1 } := by
  unfold readStreamByte at h
  split at h
  · cases h
  · split at h
    · cases h
    · cases h
      exact ⟨by omega, by omega, rfl, rfl⟩

/-- A fetch that faults. -/
theorem readStreamByte_error {s : State} {c : Cursor} {r : Raised} (h : readStreamByte s c = .error r) :
    (s.bsEnd.toNat ≤ c.bsPtr.toNat ∧ r = ⟨.streamExhausted, c.bsPtr⟩) ∨
      (c.bsPtr.toNat < s.bsEnd.toNat ∧ s.config.memSize ≤ c.bsPtr.toNat ∧ r = ⟨.addrRange, c.bsPtr⟩) := by
  unfold readStreamByte at h
  split at h
  · cases h; exact .inl ⟨by assumption, rfl⟩
  · split at h
    · cases h; exact .inr ⟨by omega, by assumption, rfl⟩
    · cases h

/-- One turn of Refill that succeeds (40_cursor.md R111): padding, a data byte, a stuffed pair or a marker. -/
theorem refillByte_ok {s : State} {c c' : Cursor} {b : Byte} (h : refillByte s c = .ok (b, c')) :
    (c.nomore = true ∧ b = 0x00 ∧ c' = c) ∨
    (c.nomore = false ∧ b ≠ 0xFF ∧ readStreamByte s c = .ok (b, c')) ∨
    (∃ c1, c.nomore = false ∧ b = 0xFF ∧ readStreamByte s c = .ok (0xFF, c1) ∧ readStreamByte s c1 = .ok (0x00, c')) ∨
    (∃ c1 c2 m, c.nomore = false ∧ b = 0x00 ∧ m ≠ 0x00 ∧ readStreamByte s c = .ok (0xFF, c1) ∧
      readStreamByte s c1 = .ok (m, c2) ∧
      c' = { c2 with markerCode := m, markerValid := true, nomore := true }) := by
  unfold refillByte at h
  cases hn : c.nomore
  · simp only [hn, Bool.false_eq_true, if_false] at h
    cases h1 : readStreamByte s c with
    | error r => simp [h1] at h
    | ok p =>
      obtain ⟨x, c1⟩ := p
      simp only [h1] at h
      split at h
      · rename_i hx
        subst hx
        cases h2 : readStreamByte s c1 with
        | error r => simp [h2] at h
        | ok q =>
          obtain ⟨m, c2⟩ := q
          simp only [h2] at h
          split at h
          · rename_i hm
            subst hm
            cases h
            exact .inr (.inr (.inl ⟨c1, rfl, rfl, rfl, h2⟩))
          · rename_i hm
            cases h
            exact .inr (.inr (.inr ⟨c1, c2, m, rfl, rfl, hm, rfl, h2, rfl⟩))
      · rename_i hx
        cases h
        exact .inr (.inl ⟨rfl, hx, rfl⟩)
  · simp only [hn, if_true] at h
    cases h
    exact .inl ⟨rfl, rfl, rfl⟩

/-- A property that every turn of Refill keeps is kept by the loop. -/
theorem refillLoop_induct {s : State} (P : Cursor → Prop)
    (hstep : ∀ c b c1, P c → c.bitcnt.toNat < 24 → refillByte s c = .ok (b, c1) → P (pushByte b c1))
    (n : Nat) {c c' : Cursor} (hc : P c) (h : refillLoop s n c = .ok c') : P c' := by
  induction n generalizing c with
  | zero => cases h; exact hc
  | succ n ih =>
    unfold refillLoop at h
    split at h
    · rename_i hlt
      cases hb : refillByte s c with
      | error r => simp [hb] at h
      | ok p =>
        obtain ⟨b, c1⟩ := p
        simp only [hb] at h
        exact ih (hstep c b c1 hc hlt hb) h
    · cases h; exact hc

/-- A property that every turn of Refill keeps is kept by a refill that runs when fewer than `n` bits are valid. -/
theorem refillBelow_induct {s : State} (P : Cursor → Prop)
    (hstep : ∀ c b c1, P c → c.bitcnt.toNat < 24 → refillByte s c = .ok (b, c1) → P (pushByte b c1))
    (n : Nat) {c c' : Cursor} (hc : P c) (h : refillBelow s n c = .ok c') : P c' := by
  unfold refillBelow at h
  split at h
  · exact refillLoop_induct P hstep 3 hc h
  · cases h; exact hc

/-! ### The entropy decoder -/

/-- DecodeSymbol that succeeds: a refill below 16 bits, then the lookup. -/
theorem decodeSymbol_ok {s : State} {t : HuffTable} {c c' : Cursor} {v : Byte} (h : decodeSymbol s t c = .ok (v, c')) :
    ∃ c1, refillBelow s 16 c = .ok c1 ∧ lookupSymbol t c1 = .ok (v, c') := by
  unfold decodeSymbol at h
  cases h1 : refillBelow s 16 c with
  | error r => simp [h1] at h
  | ok c1 => exact ⟨c1, rfl, by simpa [h1] using h⟩

/-- The lookup that succeeds: some symbol, and its length consumed. -/
theorem lookupSymbol_ok {t : HuffTable} {c c' : Cursor} {v : Byte} (h : lookupSymbol t c = .ok (v, c')) :
    (∃ k, k = (t.fast.getD (peek 9 c) 0xFF).toNat ∧ k ≠ 0xFF ∧ v = t.values.getD k 0 ∧
      c' = consume (t.size.getD k 0) c) ∨
    ((t.fast.getD (peek 9 c) 0xFF).toNat = 0xFF ∧ slowPath t c = .ok (v, c')) := by
  simp only [lookupSymbol] at h
  split at h
  · rename_i hk
    cases h
    exact .inl ⟨_, rfl, hk, rfl, rfl⟩
  · rename_i hk
    exact .inr ⟨by simpa using hk, h⟩

/-- The slow path that succeeds: a length in 1..16 whose bracket the window falls in. -/
theorem slowPath_ok {t : HuffTable} {c c' : Cursor} {v : Byte} (h : slowPath t c = .ok (v, c')) :
    ∃ l, 1 ≤ l ∧ l ≤ 16 ∧ peek 16 c < maxcodeAt t l ∧ (∀ j, 1 ≤ j → j < l → maxcodeAt t j ≤ peek 16 c) ∧
      0 ≤ (peek l c : Int) + deltaAt t l ∧ (peek l c : Int) + deltaAt t l < t.n ∧
      v = t.values.getD ((peek l c : Int) + deltaAt t l).toNat 0 ∧ c' = consume l c := by
  unfold slowPath at h
  cases hf : (List.range' 1 16).find? (fun l => decide (peek 16 c < maxcodeAt t l)) with
  | none => simp [hf] at h
  | some l =>
    simp only [hf] at h
    have hmem := List.mem_of_find?_eq_some hf
    have hp := List.find?_some hf
    rw [List.mem_range'_1] at hmem
    split at h
    · cases h
    · rename_i hidx
      cases h
      refine ⟨l, hmem.1, by omega, by simpa using hp, ?_, by omega, by omega, rfl, rfl⟩
      intro j hj hjl
      obtain ⟨-, as, bs, hsplit, hnot⟩ := List.find?_eq_some_iff_append.1 hf
      have hjm : j ∈ as := by
        have hpw : (as ++ l :: bs).Pairwise (· < ·) := hsplit ▸ List.pairwise_lt_range' (s := 1) (n := 16)
        have hj' : j ∈ as ++ l :: bs := hsplit ▸ List.mem_range'_1.2 ⟨hj, by omega⟩
        rcases List.mem_append.1 hj' with hja | hjb
        · exact hja
        · rcases List.mem_cons.1 hjb with rfl | hjb'
          · omega
          · have := (List.pairwise_cons.1 (List.pairwise_append.1 hpw).2.1).1 j hjb'
            omega
      have := hnot j hjm
      simpa using this

/-- ReceiveExtend that succeeds. -/
theorem receiveExtend_ok {s : State} {n : Nat} {c c' : Cursor} {v : Word} (h : receiveExtend s n c = .ok (v, c')) :
    (n = 0 ∧ v = 0 ∧ c' = c) ∨
    (n ≠ 0 ∧ ∃ c1, refillBelow s n c = .ok c1 ∧ v = extend n (peek n c1) ∧ c' = consume n c1) := by
  unfold receiveExtend at h
  split at h
  · cases h; exact .inl ⟨by assumption, rfl, rfl⟩
  · rename_i hn
    cases h1 : refillBelow s n c with
    | error r => simp [h1] at h
    | ok c1 =>
      simp only [h1] at h
      cases h
      exact .inr ⟨hn, c1, rfl, rfl, rfl⟩

/-! ### The AC loop -/

/-- One turn of the AC loop that succeeds: the block ends at a symbol of size 0 other than ZRL, or a coefficient is stored
at a position of at most 63 (42_entropy.md R175, R178). -/
theorem acStep_ok {s : State} {t : HuffTable} {q : Vector Byte 64} {b b' : BlockState} {last : Bool}
    (h : acStep s t q b = .ok (b', last)) :
    ∃ rs c1, decodeSymbol s t b.cur = .ok (rs, c1) ∧
      ((last = true ∧ rs.toNat % 16 = 0 ∧ rs ≠ 0xF0 ∧ b' = ⟨c1, b.coef, b.k + rs.toNat / 16⟩) ∨
       (last = false ∧ b.k + rs.toNat / 16 ≤ 63 ∧ ∃ v c2, receiveExtend s (rs.toNat % 16) c1 = .ok (v, c2) ∧
          b' = ⟨c2, storeCoef s (b.k + rs.toNat / 16) (dequantize q (b.k + rs.toNat / 16) v) b.coef,
                b.k + rs.toNat / 16 + 1⟩)) := by
  unfold acStep at h
  cases h1 : decodeSymbol s t b.cur with
  | error r => simp [h1] at h
  | ok p =>
    obtain ⟨rs, c1⟩ := p
    simp only [h1] at h
    refine ⟨rs, c1, rfl, ?_⟩
    split at h
    · rename_i hs
      cases h
      exact .inl ⟨rfl, hs.1, hs.2, rfl⟩
    · split at h
      · cases h
      · rename_i hk
        cases h2 : receiveExtend s (rs.toNat % 16) c1 with
        | error r => simp [h2] at h
        | ok p2 =>
          obtain ⟨v, c2⟩ := p2
          simp only [h2] at h
          cases h
          exact .inr ⟨rfl, by omega, v, c2, rfl, rfl⟩

/-- A property that every turn of the AC loop keeps is kept by the loop. -/
theorem acLoop_induct {s : State} {t : HuffTable} {q : Vector Byte 64} (P : BlockState → Prop)
    (hstep : ∀ b b' last, P b → b.k < 64 → acStep s t q b = .ok (b', last) → P b')
    (n : Nat) {b b' : BlockState} (hb : P b) (h : acLoop s t q n b = .ok b') : P b' := by
  induction n generalizing b with
  | zero => cases h; exact hb
  | succ n ih =>
    unfold acLoop at h
    split at h
    · rename_i hk
      cases h1 : acStep s t q b with
      | error r => simp [h1] at h
      | ok p =>
        obtain ⟨b1, last⟩ := p
        cases last
        · simp only [h1] at h
          exact ih (hstep b b1 false hb hk h1) h
        · simp only [h1] at h
          cases h
          exact hstep b _ true hb hk h1
    · cases h; exact hb

/-! ### FIND_MARKER -/

/-- A property that every fetch keeps is kept by the marker scan. -/
theorem scanMarker_induct {s : State} {m : FindMode} (P : Cursor → Prop)
    (hstep : ∀ c b c1, P c → readStreamByte s c = .ok (b, c1) → P c1)
    (n : Nat) {run : Bool} {x : Byte} {c c' : Cursor} {v : Word} (hc : P c)
    (h : scanMarker s m n run x c = .ok (v, c')) : P c' := by
  induction n generalizing run x c with
  | zero => cases h
  | succ n ih =>
    unfold scanMarker at h
    split at h
    · cases h1 : readStreamByte s c with
      | error r => simp [h1] at h
      | ok p =>
        obtain ⟨y, c1⟩ := p
        simp only [h1] at h
        exact ih (hstep c y c1 hc h1) h
    · split at h
      · cases h; exact hc
      · split at h
        · cases h; exact hc
        · cases h1 : readStreamByte s c with
          | error r => simp [h1] at h
          | ok p =>
            obtain ⟨y, c1⟩ := p
            simp only [h1] at h
            exact ih (hstep c y c1 hc h1) h

end Sys2Proof.Machine
end

