-- ==== Sys2Proof/Laws/Memory.lean ====
section
/-! SUPPORT. The laws of MEM (20_memory.md R70, R78): a read after a write, what a write leaves alone, and the canonical form,
which every memory operation keeps. -/
namespace Sys2Proof.Machine

/-! ### What the operations leave of `fill` -/

@[simp] theorem Memory.write_fill (m : Memory) (a : Nat) (v : Byte) : (m.write a v).fill = m.fill := rfl

@[simp] theorem Memory.unlisted_write (m : Memory) (a b : Nat) (v : Byte) :
    (m.write a v).unlisted b = m.unlisted b := rfl

@[simp] theorem Memory.writeAll_nil (m : Memory) : m.writeAll [] = m := rfl

@[simp] theorem Memory.writeAll_cons (m : Memory) (w : Nat × Byte) (ws : List (Nat × Byte)) :
    m.writeAll (w :: ws) = (m.write w.1 w.2).writeAll ws := rfl

theorem Memory.writeAll_append (m : Memory) (ws vs : List (Nat × Byte)) :
    m.writeAll (ws ++ vs) = (m.writeAll ws).writeAll vs := by
  induction ws generalizing m with
  | nil => rfl
  | cons w ws ih => exact ih _

/-! ### Reads after one write -/

theorem lookupCell_insertCell_same (d : Byte) (a : Nat) (v : Byte) (cs : List Host.Cell) (h : ∀ c ∈ cs, c.1 ≠ a) :
    lookupCell d a (insertCell a v cs) = v := by
  induction cs with
  | nil => simp [insertCell, lookupCell]
  | cons c cs ih =>
    have hc : c.1 ≠ a := h c (by simp)
    have ih' := ih (fun x hx => h x (by simp [hx]))
    by_cases hlt : a < c.1 <;> simp [insertCell, lookupCell, hlt, hc, ih']

theorem lookupCell_insertCell_other (d : Byte) (a b : Nat) (v : Byte) (cs : List Host.Cell) (h : b ≠ a) :
    lookupCell d b (insertCell a v cs) = lookupCell d b cs := by
  have h' : a ≠ b := Ne.symm h
  induction cs with
  | nil => simp [insertCell, lookupCell, h']
  | cons c cs ih =>
    unfold insertCell
    by_cases hlt : a < c.1
    · simp [hlt, lookupCell, h']
    · simp [hlt, lookupCell, ih]

theorem lookupCell_filter_same (d : Byte) (a : Nat) (cs : List Host.Cell) :
    lookupCell d a (cs.filter (fun c => c.1 != a)) = d := by
  induction cs with
  | nil => rfl
  | cons c cs ih =>
    by_cases hc : c.1 = a <;> simp_all [lookupCell]

theorem lookupCell_filter_other (d : Byte) (a b : Nat) (cs : List Host.Cell) (h : b ≠ a) :
    lookupCell d b (cs.filter (fun c => c.1 != a)) = lookupCell d b cs := by
  induction cs with
  | nil => rfl
  | cons c cs ih =>
    by_cases hc : c.1 = a
    · have : c.1 ≠ b := by omega
      have hab : a ≠ b := Ne.symm h
      simp [lookupCell, hc, hab, ih]
    · by_cases hb : c.1 = b <;> simp [lookupCell, hc, hb, ih, h]

@[simp] theorem Memory.read_write_same (m : Memory) (a : Nat) (v : Byte) : (m.write a v).read a = v := by
  unfold Memory.read
  rw [Memory.unlisted_write]
  simp only [Memory.write]
  split
  · rw [lookupCell_filter_same]; simp_all
  · exact lookupCell_insertCell_same _ _ _ _ (by simp)

theorem Memory.read_write_other (m : Memory) (a b : Nat) (v : Byte) (h : b ≠ a) :
    (m.write a v).read b = m.read b := by
  unfold Memory.read
  rw [Memory.unlisted_write]
  simp only [Memory.write]
  split
  · exact lookupCell_filter_other _ _ _ _ h
  · rw [lookupCell_insertCell_other _ _ _ _ _ h, lookupCell_filter_other _ _ _ _ h]

/-! ### Reads after many writes -/

/-- A byte no write names is as before. -/
theorem Memory.read_writeAll_other (m : Memory) (ws : List (Nat × Byte)) (b : Nat) (h : ∀ w ∈ ws, w.1 ≠ b) :
    (m.writeAll ws).read b = m.read b := by
  induction ws generalizing m with
  | nil => rfl
  | cons w ws ih =>
    rw [Memory.writeAll_cons, ih _ (fun x hx => h x (by simp [hx]))]
    exact Memory.read_write_other _ _ _ _ (Ne.symm (h w (by simp)))

/-- A byte that the writes name once holds what they write there. -/
theorem Memory.read_writeAll_mem (m : Memory) (ws : List (Nat × Byte)) (a : Nat) (v : Byte)
    (hn : ws.Pairwise (fun x y => x.1 ≠ y.1)) (h : (a, v) ∈ ws) : (m.writeAll ws).read a = v := by
  induction ws generalizing m with
  | nil => simp at h
  | cons w ws ih =>
    rw [List.pairwise_cons] at hn
    rcases List.mem_cons.1 h with rfl | h'
    · rw [Memory.writeAll_cons, Memory.read_writeAll_other _ _ _ (fun x hx => Ne.symm (hn.1 x hx))]
      exact Memory.read_write_same _ _ _
    · exact ih _ hn.2 h'

/-- A byte that the writes name once holds what they write there, whatever the other writes are. -/
theorem Memory.read_writeAll_once (m : Memory) (ws : List (Nat × Byte)) (a : Nat) (v : Byte) (hn : writeCount ws a = 1)
    (h : (a, v) ∈ ws) : (m.writeAll ws).read a = v := by
  induction ws generalizing m with
  | nil => simp at h
  | cons w ws ih =>
    rw [writeCount, List.countP_cons] at hn
    by_cases hw : w.1 = a
    · have h0 : ∀ x ∈ ws, x.1 ≠ a := by
        have : ws.countP (fun x => x.1 == a) = 0 := by simpa [hw] using hn
        simpa [List.countP_eq_zero] using this
      rcases List.mem_cons.1 h with rfl | h'
      · rw [Memory.writeAll_cons, Memory.read_writeAll_other _ _ _ h0]
        exact Memory.read_write_same _ _ _
      · exact absurd rfl (h0 _ h')
    · rcases List.mem_cons.1 h with rfl | h'
      · exact absurd rfl hw
      · exact ih _ (by simpa [writeCount, hw] using hn) h'

/-! ### The writes of a destination that overlaps itself -/

/-- The overlapping writes name what the writes name. -/
theorem overlapBytes_addresses (d : Nat) (ws : List (Nat × Byte)) (P : Nat → Prop) (h : ∀ w ∈ ws, P w.1) :
    ∀ w ∈ overlapBytes d ws, P w.1 := by
  intro w hw
  simp only [overlapBytes, List.mem_map] at hw
  obtain ⟨x, hx, rfl⟩ := hw
  split <;> exact h x hx

/-- The overlapping writes name each address as often as the writes do. -/
theorem writeCount_overlapBytes (d : Nat) (ws : List (Nat × Byte)) (a : Nat) :
    writeCount (overlapBytes d ws) a = writeCount ws a := by
  unfold overlapBytes
  generalize hc : writeCount ws = n
  rw [← congrFun hc a]
  simp only [writeCount, List.countP_map]
  refine List.countP_congr fun w _ => ?_
  simp only [Function.comp]
  split <;> simp

/-- A byte that the writes name once keeps its value among the overlapping writes. -/
theorem mem_overlapBytes (d : Nat) (ws : List (Nat × Byte)) (a : Nat) (v : Byte) (hn : writeCount ws a = 1)
    (h : (a, v) ∈ ws) : (a, v) ∈ overlapBytes d ws :=
  List.mem_map.2 ⟨(a, v), h, by simp [hn]⟩

/-! ### The canonical form -/

theorem Memory.wf_iff (m : Memory) :
    m.wf = true ↔ m.cells.Pairwise (fun c d => c.1 < d.1) ∧ ∀ c ∈ m.cells, c.2 ≠ m.unlisted c.1 := by
  simp [Memory.wf, List.all_eq_true]

theorem mem_insertCell (a : Nat) (v : Byte) (cs : List Host.Cell) (c : Host.Cell) :
    c ∈ insertCell a v cs ↔ c = (a, v) ∨ c ∈ cs := by
  induction cs with
  | nil => simp [insertCell]
  | cons x cs ih =>
    by_cases hlt : a < x.1 <;> simp [insertCell, hlt, ih]
    tauto

theorem insertCell_sorted (a : Nat) (v : Byte) (cs : List Host.Cell) (hs : cs.Pairwise (fun c d => c.1 < d.1))
    (ha : ∀ c ∈ cs, c.1 ≠ a) : (insertCell a v cs).Pairwise (fun c d => c.1 < d.1) := by
  induction cs with
  | nil => simp [insertCell]
  | cons c cs ih =>
    rw [List.pairwise_cons] at hs
    have hca : c.1 ≠ a := ha c (by simp)
    by_cases hlt : a < c.1
    · simp only [insertCell, hlt, if_true, List.pairwise_cons]
      refine ⟨?_, hs.1, hs.2⟩
      intro x hx
      rcases List.mem_cons.1 hx with rfl | hx'
      · exact hlt
      · exact lt_trans hlt (hs.1 x hx')
    · simp only [insertCell, hlt, if_false, List.pairwise_cons]
      refine ⟨?_, ih hs.2 (fun x hx => ha x (by simp [hx]))⟩
      intro x hx
      rcases (mem_insertCell a v cs x).1 hx with rfl | hx'
      · show c.1 < a
        omega
      · exact hs.1 x hx'

/-- The cells after a write: the old ones at other addresses, and the byte written where it differs from what an unlisted
address reads as. -/
theorem Memory.mem_cells_write (m : Memory) (a : Nat) (v : Byte) (c : Host.Cell) (h : c ∈ (m.write a v).cells) :
    (c = (a, v) ∧ v ≠ m.unlisted a) ∨ (c ∈ m.cells ∧ c.1 ≠ a) := by
  simp only [Memory.write] at h
  split at h
  · right; simpa using h
  · rename_i hv
    rcases (mem_insertCell _ _ _ _).1 h with rfl | h'
    · exact .inl ⟨rfl, hv⟩
    · right; simpa using h'

theorem Memory.write_wf (m : Memory) (a : Nat) (v : Byte) (h : m.wf = true) : (m.write a v).wf = true := by
  rw [Memory.wf_iff] at h ⊢
  refine ⟨?_, ?_⟩
  · simp only [Memory.write]
    split
    · exact h.1.filter _
    · exact insertCell_sorted _ _ _ (h.1.filter _) (by simp)
  · intro c hc
    rw [Memory.unlisted_write]
    rcases Memory.mem_cells_write m a v c hc with ⟨rfl, hv⟩ | ⟨hm, _⟩
    · exact hv
    · exact h.2 c hm

theorem Memory.writeAll_wf (m : Memory) (ws : List (Nat × Byte)) (h : m.wf = true) : (m.writeAll ws).wf = true := by
  induction ws generalizing m with
  | nil => exact h
  | cons w ws ih => exact ih _ (Memory.write_wf _ _ _ h)

theorem reset_mem_wf : State.reset.mem.wf = true := by decide

/-! ### Which addresses are listed -/

/-- Writes below a bound list nothing at or above it. -/
theorem Memory.writeAll_bound (m : Memory) (ws : List (Nat × Byte)) (n : Nat) (hm : ∀ c ∈ m.cells, c.1 < n)
    (hw : ∀ w ∈ ws, w.1 < n) : ∀ c ∈ (m.writeAll ws).cells, c.1 < n := by
  induction ws generalizing m with
  | nil => exact hm
  | cons w ws ih =>
    refine ih _ ?_ (fun x hx => hw x (by simp [hx]))
    intro c hc
    rcases Memory.mem_cells_write m _ _ c hc with ⟨rfl, _⟩ | ⟨h, _⟩
    · exact hw w (by simp)
    · exact hm c h

end Sys2Proof.Machine
end

