-- ==== Sys2Proof/Laws/State.lean ====
section
/-! SUPPORT. What each named update of State does to each field, true by rfl, so that no proof unfolds a record update. -/
namespace Sys2Proof.Machine

/-! ### complete -/

@[simp] theorem complete_config (v : Word) (s : State) : (complete v s).config = s.config := rfl
@[simp] theorem complete_host (v : Word) (s : State) : (complete v s).host = s.host := rfl
@[simp] theorem complete_draws (v : Word) (s : State) : (complete v s).draws = s.draws := rfl
@[simp] theorem complete_hostRegData (v : Word) (s : State) : (complete v s).hostRegData = s.hostRegData := rfl
@[simp] theorem complete_hostMemData (v : Word) (s : State) : (complete v s).hostMemData = s.hostMemData := rfl
@[simp] theorem complete_rstN (v : Word) (s : State) : (complete v s).rstN = s.rstN := rfl
@[simp] theorem complete_irqEn (v : Word) (s : State) : (complete v s).irqEn = s.irqEn := rfl
@[simp] theorem complete_busy (v : Word) (s : State) : (complete v s).busy = false := rfl
@[simp] theorem complete_done (v : Word) (s : State) : (complete v s).done = true := rfl
@[simp] theorem complete_fault (v : Word) (s : State) : (complete v s).fault = s.fault := rfl
@[simp] theorem complete_overrun (v : Word) (s : State) : (complete v s).overrun = s.overrun := rfl
@[simp] theorem complete_scanEnd (v : Word) (s : State) : (complete v s).scanEnd = s.scanEnd := rfl
@[simp] theorem complete_cmdLast (v : Word) (s : State) : (complete v s).cmdLast = s.cmdLast := rfl
@[simp] theorem complete_result (v : Word) (s : State) : (complete v s).result = v := rfl
@[simp] theorem complete_faultCode (v : Word) (s : State) : (complete v s).faultCode = s.faultCode := rfl
@[simp] theorem complete_faultInfo (v : Word) (s : State) : (complete v s).faultInfo = s.faultInfo := rfl
@[simp] theorem complete_faultCmd (v : Word) (s : State) : (complete v s).faultCmd = s.faultCmd := rfl
@[simp] theorem complete_args (v : Word) (s : State) : (complete v s).args = s.args := rfl
@[simp] theorem complete_bsEnd (v : Word) (s : State) : (complete v s).bsEnd = s.bsEnd := rfl
@[simp] theorem complete_cur (v : Word) (s : State) : (complete v s).cur = s.cur := rfl
@[simp] theorem complete_ri (v : Word) (s : State) : (complete v s).ri = s.ri := rfl
@[simp] theorem complete_todo (v : Word) (s : State) : (complete v s).todo = s.todo := rfl
@[simp] theorem complete_ht (v : Word) (s : State) : (complete v s).ht = s.ht := rfl
@[simp] theorem complete_qt (v : Word) (s : State) : (complete v s).qt = s.qt := rfl
@[simp] theorem complete_dcpred (v : Word) (s : State) : (complete v s).dcpred = s.dcpred := rfl
@[simp] theorem complete_coef (v : Word) (s : State) : (complete v s).coef = s.coef := rfl
@[simp] theorem complete_idctBuf (v : Word) (s : State) : (complete v s).idctBuf = s.idctBuf := rfl
@[simp] theorem complete_mem (v : Word) (s : State) : (complete v s).mem = s.mem := rfl

/-! ### faultEntry -/

@[simp] theorem faultEntry_config (r : Raised) (s : State) : (faultEntry r s).config = s.config := rfl
@[simp] theorem faultEntry_host (r : Raised) (s : State) : (faultEntry r s).host = s.host := rfl
@[simp] theorem faultEntry_draws (r : Raised) (s : State) : (faultEntry r s).draws = s.draws := rfl
@[simp] theorem faultEntry_hostRegData (r : Raised) (s : State) : (faultEntry r s).hostRegData = s.hostRegData := rfl
@[simp] theorem faultEntry_hostMemData (r : Raised) (s : State) : (faultEntry r s).hostMemData = s.hostMemData := rfl
@[simp] theorem faultEntry_rstN (r : Raised) (s : State) : (faultEntry r s).rstN = s.rstN := rfl
@[simp] theorem faultEntry_irqEn (r : Raised) (s : State) : (faultEntry r s).irqEn = s.irqEn := rfl
@[simp] theorem faultEntry_busy (r : Raised) (s : State) : (faultEntry r s).busy = false := rfl
@[simp] theorem faultEntry_done (r : Raised) (s : State) : (faultEntry r s).done = s.done := rfl
@[simp] theorem faultEntry_fault (r : Raised) (s : State) : (faultEntry r s).fault = true := rfl
@[simp] theorem faultEntry_overrun (r : Raised) (s : State) : (faultEntry r s).overrun = s.overrun := rfl
@[simp] theorem faultEntry_scanEnd (r : Raised) (s : State) : (faultEntry r s).scanEnd = s.scanEnd := rfl
@[simp] theorem faultEntry_cmdLast (r : Raised) (s : State) : (faultEntry r s).cmdLast = s.cmdLast := rfl
@[simp] theorem faultEntry_result (r : Raised) (s : State) : (faultEntry r s).result = s.result := rfl
@[simp] theorem faultEntry_faultCode (r : Raised) (s : State) : (faultEntry r s).faultCode = r.code.word := rfl
@[simp] theorem faultEntry_faultInfo (r : Raised) (s : State) : (faultEntry r s).faultInfo = r.info := rfl
@[simp] theorem faultEntry_faultCmd (r : Raised) (s : State) : (faultEntry r s).faultCmd = s.cmdLast := rfl
@[simp] theorem faultEntry_args (r : Raised) (s : State) : (faultEntry r s).args = s.args := rfl
@[simp] theorem faultEntry_bsEnd (r : Raised) (s : State) : (faultEntry r s).bsEnd = s.bsEnd := rfl
@[simp] theorem faultEntry_cur (r : Raised) (s : State) : (faultEntry r s).cur = s.cur := rfl
@[simp] theorem faultEntry_ri (r : Raised) (s : State) : (faultEntry r s).ri = s.ri := rfl
@[simp] theorem faultEntry_todo (r : Raised) (s : State) : (faultEntry r s).todo = s.todo := rfl
@[simp] theorem faultEntry_ht (r : Raised) (s : State) : (faultEntry r s).ht = s.ht := rfl
@[simp] theorem faultEntry_qt (r : Raised) (s : State) : (faultEntry r s).qt = s.qt := rfl
@[simp] theorem faultEntry_dcpred (r : Raised) (s : State) : (faultEntry r s).dcpred = s.dcpred := rfl
@[simp] theorem faultEntry_coef (r : Raised) (s : State) : (faultEntry r s).coef = s.coef := rfl
@[simp] theorem faultEntry_idctBuf (r : Raised) (s : State) : (faultEntry r s).idctBuf = s.idctBuf := rfl
@[simp] theorem faultEntry_mem (r : Raised) (s : State) : (faultEntry r s).mem = s.mem := rfl

/-! ### streamFault -/

@[simp] theorem streamFault_config (r : Raised) (s : State) : (streamFault r s).config = s.config := rfl
@[simp] theorem streamFault_host (r : Raised) (s : State) : (streamFault r s).host = s.host := rfl
@[simp] theorem streamFault_draws (r : Raised) (s : State) : (streamFault r s).draws = s.draws + 1 := rfl
@[simp] theorem streamFault_hostRegData (r : Raised) (s : State) : (streamFault r s).hostRegData = s.hostRegData := rfl
@[simp] theorem streamFault_hostMemData (r : Raised) (s : State) : (streamFault r s).hostMemData = s.hostMemData := rfl
@[simp] theorem streamFault_rstN (r : Raised) (s : State) : (streamFault r s).rstN = s.rstN := rfl
@[simp] theorem streamFault_irqEn (r : Raised) (s : State) : (streamFault r s).irqEn = s.irqEn := rfl
@[simp] theorem streamFault_busy (r : Raised) (s : State) : (streamFault r s).busy = false := rfl
@[simp] theorem streamFault_done (r : Raised) (s : State) : (streamFault r s).done = s.done := rfl
@[simp] theorem streamFault_fault (r : Raised) (s : State) : (streamFault r s).fault = true := rfl
@[simp] theorem streamFault_overrun (r : Raised) (s : State) : (streamFault r s).overrun = s.overrun := rfl
@[simp] theorem streamFault_scanEnd (r : Raised) (s : State) : (streamFault r s).scanEnd = s.scanEnd := rfl
@[simp] theorem streamFault_cmdLast (r : Raised) (s : State) : (streamFault r s).cmdLast = s.cmdLast := rfl
@[simp] theorem streamFault_result (r : Raised) (s : State) : (streamFault r s).result = Config.freeWord s.draws 6 := rfl
@[simp] theorem streamFault_faultCode (r : Raised) (s : State) : (streamFault r s).faultCode = r.code.word := rfl
@[simp] theorem streamFault_faultInfo (r : Raised) (s : State) : (streamFault r s).faultInfo = r.info := rfl
@[simp] theorem streamFault_faultCmd (r : Raised) (s : State) : (streamFault r s).faultCmd = s.cmdLast := rfl
@[simp] theorem streamFault_args (r : Raised) (s : State) : (streamFault r s).args = s.args := rfl
@[simp] theorem streamFault_bsEnd (r : Raised) (s : State) : (streamFault r s).bsEnd = s.bsEnd := rfl
@[simp] theorem streamFault_cur (r : Raised) (s : State) : (streamFault r s).cur = freeCursor s.draws := rfl
@[simp] theorem streamFault_ri (r : Raised) (s : State) : (streamFault r s).ri = s.ri := rfl
@[simp] theorem streamFault_todo (r : Raised) (s : State) : (streamFault r s).todo = s.todo := rfl
@[simp] theorem streamFault_ht (r : Raised) (s : State) : (streamFault r s).ht = s.ht := rfl
@[simp] theorem streamFault_qt (r : Raised) (s : State) : (streamFault r s).qt = s.qt := rfl
@[simp] theorem streamFault_dcpred (r : Raised) (s : State) : (streamFault r s).dcpred = s.dcpred := rfl
@[simp] theorem streamFault_coef (r : Raised) (s : State) : (streamFault r s).coef = s.coef := rfl
@[simp] theorem streamFault_idctBuf (r : Raised) (s : State) : (streamFault r s).idctBuf = s.idctBuf := rfl
@[simp] theorem streamFault_mem (r : Raised) (s : State) : (streamFault r s).mem = s.mem := rfl

/-! ### restartFault -/

@[simp] theorem restartFault_config (r : Raised) (s : State) : (restartFault r s).config = s.config := rfl
@[simp] theorem restartFault_host (r : Raised) (s : State) : (restartFault r s).host = s.host := rfl
@[simp] theorem restartFault_draws (r : Raised) (s : State) : (restartFault r s).draws = s.draws + 1 := rfl
@[simp] theorem restartFault_hostRegData (r : Raised) (s : State) : (restartFault r s).hostRegData = s.hostRegData := rfl
@[simp] theorem restartFault_hostMemData (r : Raised) (s : State) : (restartFault r s).hostMemData = s.hostMemData := rfl
@[simp] theorem restartFault_rstN (r : Raised) (s : State) : (restartFault r s).rstN = s.rstN := rfl
@[simp] theorem restartFault_irqEn (r : Raised) (s : State) : (restartFault r s).irqEn = s.irqEn := rfl
@[simp] theorem restartFault_busy (r : Raised) (s : State) : (restartFault r s).busy = false := rfl
@[simp] theorem restartFault_done (r : Raised) (s : State) : (restartFault r s).done = s.done := rfl
@[simp] theorem restartFault_fault (r : Raised) (s : State) : (restartFault r s).fault = true := rfl
@[simp] theorem restartFault_overrun (r : Raised) (s : State) : (restartFault r s).overrun = s.overrun := rfl
@[simp] theorem restartFault_scanEnd (r : Raised) (s : State) : (restartFault r s).scanEnd = s.scanEnd := rfl
@[simp] theorem restartFault_cmdLast (r : Raised) (s : State) : (restartFault r s).cmdLast = s.cmdLast := rfl
@[simp] theorem restartFault_result (r : Raised) (s : State) : (restartFault r s).result = Config.freeWord s.draws 6 := rfl
@[simp] theorem restartFault_faultCode (r : Raised) (s : State) : (restartFault r s).faultCode = r.code.word := rfl
@[simp] theorem restartFault_faultInfo (r : Raised) (s : State) : (restartFault r s).faultInfo = r.info := rfl
@[simp] theorem restartFault_faultCmd (r : Raised) (s : State) : (restartFault r s).faultCmd = s.cmdLast := rfl
@[simp] theorem restartFault_args (r : Raised) (s : State) : (restartFault r s).args = s.args := rfl
@[simp] theorem restartFault_bsEnd (r : Raised) (s : State) : (restartFault r s).bsEnd = s.bsEnd := rfl
@[simp] theorem restartFault_cur (r : Raised) (s : State) : (restartFault r s).cur = freeCursor s.draws := rfl
@[simp] theorem restartFault_ri (r : Raised) (s : State) : (restartFault r s).ri = s.ri := rfl
@[simp] theorem restartFault_todo (r : Raised) (s : State) : (restartFault r s).todo = countDown s.todo := rfl
@[simp] theorem restartFault_ht (r : Raised) (s : State) : (restartFault r s).ht = s.ht := rfl
@[simp] theorem restartFault_qt (r : Raised) (s : State) : (restartFault r s).qt = s.qt := rfl
@[simp] theorem restartFault_dcpred (r : Raised) (s : State) : (restartFault r s).dcpred = s.dcpred := rfl
@[simp] theorem restartFault_coef (r : Raised) (s : State) : (restartFault r s).coef = s.coef := rfl
@[simp] theorem restartFault_idctBuf (r : Raised) (s : State) : (restartFault r s).idctBuf = s.idctBuf := rfl
@[simp] theorem restartFault_mem (r : Raised) (s : State) : (restartFault r s).mem = s.mem := rfl

/-- Where the count is used up, the fault is that of the state with TODO 0. -/
theorem restartFault_eq (r : Raised) (s : State) (hz : countDown s.todo = 0) :
    restartFault r s = streamFault r { s with todo := 0 } := by
  rw [restartFault, hz]

/-! ### blockFault -/

@[simp] theorem blockFault_config (r : Raised) (c : Fin 4) (s : State) : (blockFault r c s).config = s.config := rfl
@[simp] theorem blockFault_host (r : Raised) (c : Fin 4) (s : State) : (blockFault r c s).host = s.host := rfl
@[simp] theorem blockFault_draws (r : Raised) (c : Fin 4) (s : State) : (blockFault r c s).draws = s.draws + 1 := rfl
@[simp] theorem blockFault_hostRegData (r : Raised) (c : Fin 4) (s : State) : (blockFault r c s).hostRegData = s.hostRegData := rfl
@[simp] theorem blockFault_hostMemData (r : Raised) (c : Fin 4) (s : State) : (blockFault r c s).hostMemData = s.hostMemData := rfl
@[simp] theorem blockFault_rstN (r : Raised) (c : Fin 4) (s : State) : (blockFault r c s).rstN = s.rstN := rfl
@[simp] theorem blockFault_irqEn (r : Raised) (c : Fin 4) (s : State) : (blockFault r c s).irqEn = s.irqEn := rfl
@[simp] theorem blockFault_busy (r : Raised) (c : Fin 4) (s : State) : (blockFault r c s).busy = false := rfl
@[simp] theorem blockFault_done (r : Raised) (c : Fin 4) (s : State) : (blockFault r c s).done = s.done := rfl
@[simp] theorem blockFault_fault (r : Raised) (c : Fin 4) (s : State) : (blockFault r c s).fault = true := rfl
@[simp] theorem blockFault_overrun (r : Raised) (c : Fin 4) (s : State) : (blockFault r c s).overrun = s.overrun := rfl
@[simp] theorem blockFault_scanEnd (r : Raised) (c : Fin 4) (s : State) : (blockFault r c s).scanEnd = s.scanEnd := rfl
@[simp] theorem blockFault_cmdLast (r : Raised) (c : Fin 4) (s : State) : (blockFault r c s).cmdLast = s.cmdLast := rfl
@[simp] theorem blockFault_result (r : Raised) (c : Fin 4) (s : State) : (blockFault r c s).result = Config.freeWord s.draws 6 := rfl
@[simp] theorem blockFault_faultCode (r : Raised) (c : Fin 4) (s : State) : (blockFault r c s).faultCode = r.code.word := rfl
@[simp] theorem blockFault_faultInfo (r : Raised) (c : Fin 4) (s : State) : (blockFault r c s).faultInfo = r.info := rfl
@[simp] theorem blockFault_faultCmd (r : Raised) (c : Fin 4) (s : State) : (blockFault r c s).faultCmd = s.cmdLast := rfl
@[simp] theorem blockFault_args (r : Raised) (c : Fin 4) (s : State) : (blockFault r c s).args = s.args := rfl
@[simp] theorem blockFault_bsEnd (r : Raised) (c : Fin 4) (s : State) : (blockFault r c s).bsEnd = s.bsEnd := rfl
@[simp] theorem blockFault_cur (r : Raised) (c : Fin 4) (s : State) : (blockFault r c s).cur = freeCursor s.draws := rfl
@[simp] theorem blockFault_ri (r : Raised) (c : Fin 4) (s : State) : (blockFault r c s).ri = s.ri := rfl
@[simp] theorem blockFault_todo (r : Raised) (c : Fin 4) (s : State) : (blockFault r c s).todo = s.todo := rfl
@[simp] theorem blockFault_ht (r : Raised) (c : Fin 4) (s : State) : (blockFault r c s).ht = s.ht := rfl
@[simp] theorem blockFault_qt (r : Raised) (c : Fin 4) (s : State) : (blockFault r c s).qt = s.qt := rfl
@[simp] theorem blockFault_dcpred (r : Raised) (c : Fin 4) (s : State) : (blockFault r c s).dcpred = s.dcpred.set c (Config.freeWord s.draws 7) := rfl
@[simp] theorem blockFault_coef (r : Raised) (c : Fin 4) (s : State) : (blockFault r c s).coef = Config.freeWords s.draws := rfl
@[simp] theorem blockFault_idctBuf (r : Raised) (c : Fin 4) (s : State) : (blockFault r c s).idctBuf = s.idctBuf := rfl
@[simp] theorem blockFault_mem (r : Raised) (c : Fin 4) (s : State) : (blockFault r c s).mem = s.mem := rfl

/-! ### slotFault -/

@[simp] theorem slotFault_config (r : Raised) (i : Fin 8) (s : State) : (slotFault r i s).config = s.config := rfl
@[simp] theorem slotFault_host (r : Raised) (i : Fin 8) (s : State) : (slotFault r i s).host = s.host := rfl
@[simp] theorem slotFault_draws (r : Raised) (i : Fin 8) (s : State) : (slotFault r i s).draws = s.draws + 1 := rfl
@[simp] theorem slotFault_hostRegData (r : Raised) (i : Fin 8) (s : State) : (slotFault r i s).hostRegData = s.hostRegData := rfl
@[simp] theorem slotFault_hostMemData (r : Raised) (i : Fin 8) (s : State) : (slotFault r i s).hostMemData = s.hostMemData := rfl
@[simp] theorem slotFault_rstN (r : Raised) (i : Fin 8) (s : State) : (slotFault r i s).rstN = s.rstN := rfl
@[simp] theorem slotFault_irqEn (r : Raised) (i : Fin 8) (s : State) : (slotFault r i s).irqEn = s.irqEn := rfl
@[simp] theorem slotFault_busy (r : Raised) (i : Fin 8) (s : State) : (slotFault r i s).busy = false := rfl
@[simp] theorem slotFault_done (r : Raised) (i : Fin 8) (s : State) : (slotFault r i s).done = s.done := rfl
@[simp] theorem slotFault_fault (r : Raised) (i : Fin 8) (s : State) : (slotFault r i s).fault = true := rfl
@[simp] theorem slotFault_overrun (r : Raised) (i : Fin 8) (s : State) : (slotFault r i s).overrun = s.overrun := rfl
@[simp] theorem slotFault_scanEnd (r : Raised) (i : Fin 8) (s : State) : (slotFault r i s).scanEnd = s.scanEnd := rfl
@[simp] theorem slotFault_cmdLast (r : Raised) (i : Fin 8) (s : State) : (slotFault r i s).cmdLast = s.cmdLast := rfl
@[simp] theorem slotFault_result (r : Raised) (i : Fin 8) (s : State) : (slotFault r i s).result = s.result := rfl
@[simp] theorem slotFault_faultCode (r : Raised) (i : Fin 8) (s : State) : (slotFault r i s).faultCode = r.code.word := rfl
@[simp] theorem slotFault_faultInfo (r : Raised) (i : Fin 8) (s : State) : (slotFault r i s).faultInfo = r.info := rfl
@[simp] theorem slotFault_faultCmd (r : Raised) (i : Fin 8) (s : State) : (slotFault r i s).faultCmd = s.cmdLast := rfl
@[simp] theorem slotFault_args (r : Raised) (i : Fin 8) (s : State) : (slotFault r i s).args = s.args := rfl
@[simp] theorem slotFault_bsEnd (r : Raised) (i : Fin 8) (s : State) : (slotFault r i s).bsEnd = s.bsEnd := rfl
@[simp] theorem slotFault_cur (r : Raised) (i : Fin 8) (s : State) : (slotFault r i s).cur = s.cur := rfl
@[simp] theorem slotFault_ri (r : Raised) (i : Fin 8) (s : State) : (slotFault r i s).ri = s.ri := rfl
@[simp] theorem slotFault_todo (r : Raised) (i : Fin 8) (s : State) : (slotFault r i s).todo = s.todo := rfl
@[simp] theorem slotFault_ht (r : Raised) (i : Fin 8) (s : State) : (slotFault r i s).ht = s.ht.set i (Config.freeSlot s.draws) := rfl
@[simp] theorem slotFault_qt (r : Raised) (i : Fin 8) (s : State) : (slotFault r i s).qt = s.qt := rfl
@[simp] theorem slotFault_dcpred (r : Raised) (i : Fin 8) (s : State) : (slotFault r i s).dcpred = s.dcpred := rfl
@[simp] theorem slotFault_coef (r : Raised) (i : Fin 8) (s : State) : (slotFault r i s).coef = s.coef := rfl
@[simp] theorem slotFault_idctBuf (r : Raised) (i : Fin 8) (s : State) : (slotFault r i s).idctBuf = s.idctBuf := rfl
@[simp] theorem slotFault_mem (r : Raised) (i : Fin 8) (s : State) : (slotFault r i s).mem = s.mem := rfl

/-! ### accept -/

@[simp] theorem accept_config (w : Word) (s : State) : (accept w s).config = s.config := rfl
@[simp] theorem accept_host (w : Word) (s : State) : (accept w s).host = s.host := rfl
@[simp] theorem accept_draws (w : Word) (s : State) : (accept w s).draws = s.draws := rfl
@[simp] theorem accept_hostRegData (w : Word) (s : State) : (accept w s).hostRegData = s.hostRegData := rfl
@[simp] theorem accept_hostMemData (w : Word) (s : State) : (accept w s).hostMemData = s.hostMemData := rfl
@[simp] theorem accept_rstN (w : Word) (s : State) : (accept w s).rstN = s.rstN := rfl
@[simp] theorem accept_irqEn (w : Word) (s : State) : (accept w s).irqEn = s.irqEn := rfl
@[simp] theorem accept_busy (w : Word) (s : State) : (accept w s).busy = true := rfl
@[simp] theorem accept_done (w : Word) (s : State) : (accept w s).done = false := rfl
@[simp] theorem accept_fault (w : Word) (s : State) : (accept w s).fault = s.fault := rfl
@[simp] theorem accept_overrun (w : Word) (s : State) : (accept w s).overrun = s.overrun := rfl
@[simp] theorem accept_scanEnd (w : Word) (s : State) : (accept w s).scanEnd = s.scanEnd := rfl
@[simp] theorem accept_cmdLast (w : Word) (s : State) : (accept w s).cmdLast = w := rfl
@[simp] theorem accept_result (w : Word) (s : State) : (accept w s).result = s.result := rfl
@[simp] theorem accept_faultCode (w : Word) (s : State) : (accept w s).faultCode = s.faultCode := rfl
@[simp] theorem accept_faultInfo (w : Word) (s : State) : (accept w s).faultInfo = s.faultInfo := rfl
@[simp] theorem accept_faultCmd (w : Word) (s : State) : (accept w s).faultCmd = s.faultCmd := rfl
@[simp] theorem accept_args (w : Word) (s : State) : (accept w s).args = s.args := rfl
@[simp] theorem accept_bsEnd (w : Word) (s : State) : (accept w s).bsEnd = s.bsEnd := rfl
@[simp] theorem accept_cur (w : Word) (s : State) : (accept w s).cur = s.cur := rfl
@[simp] theorem accept_ri (w : Word) (s : State) : (accept w s).ri = s.ri := rfl
@[simp] theorem accept_todo (w : Word) (s : State) : (accept w s).todo = s.todo := rfl
@[simp] theorem accept_ht (w : Word) (s : State) : (accept w s).ht = s.ht := rfl
@[simp] theorem accept_qt (w : Word) (s : State) : (accept w s).qt = s.qt := rfl
@[simp] theorem accept_dcpred (w : Word) (s : State) : (accept w s).dcpred = s.dcpred := rfl
@[simp] theorem accept_coef (w : Word) (s : State) : (accept w s).coef = s.coef := rfl
@[simp] theorem accept_idctBuf (w : Word) (s : State) : (accept w s).idctBuf = s.idctBuf := rfl
@[simp] theorem accept_mem (w : Word) (s : State) : (accept w s).mem = s.mem := rfl

/-! ### rearm -/

@[simp] theorem rearm_config (c : Cursor) (s : State) : (rearm c s).config = s.config := rfl
@[simp] theorem rearm_host (c : Cursor) (s : State) : (rearm c s).host = s.host := rfl
@[simp] theorem rearm_draws (c : Cursor) (s : State) : (rearm c s).draws = s.draws := rfl
@[simp] theorem rearm_hostRegData (c : Cursor) (s : State) : (rearm c s).hostRegData = s.hostRegData := rfl
@[simp] theorem rearm_hostMemData (c : Cursor) (s : State) : (rearm c s).hostMemData = s.hostMemData := rfl
@[simp] theorem rearm_rstN (c : Cursor) (s : State) : (rearm c s).rstN = s.rstN := rfl
@[simp] theorem rearm_irqEn (c : Cursor) (s : State) : (rearm c s).irqEn = s.irqEn := rfl
@[simp] theorem rearm_busy (c : Cursor) (s : State) : (rearm c s).busy = s.busy := rfl
@[simp] theorem rearm_done (c : Cursor) (s : State) : (rearm c s).done = s.done := rfl
@[simp] theorem rearm_fault (c : Cursor) (s : State) : (rearm c s).fault = s.fault := rfl
@[simp] theorem rearm_overrun (c : Cursor) (s : State) : (rearm c s).overrun = s.overrun := rfl
@[simp] theorem rearm_scanEnd (c : Cursor) (s : State) : (rearm c s).scanEnd = s.scanEnd := rfl
@[simp] theorem rearm_cmdLast (c : Cursor) (s : State) : (rearm c s).cmdLast = s.cmdLast := rfl
@[simp] theorem rearm_result (c : Cursor) (s : State) : (rearm c s).result = s.result := rfl
@[simp] theorem rearm_faultCode (c : Cursor) (s : State) : (rearm c s).faultCode = s.faultCode := rfl
@[simp] theorem rearm_faultInfo (c : Cursor) (s : State) : (rearm c s).faultInfo = s.faultInfo := rfl
@[simp] theorem rearm_faultCmd (c : Cursor) (s : State) : (rearm c s).faultCmd = s.faultCmd := rfl
@[simp] theorem rearm_args (c : Cursor) (s : State) : (rearm c s).args = s.args := rfl
@[simp] theorem rearm_bsEnd (c : Cursor) (s : State) : (rearm c s).bsEnd = s.bsEnd := rfl
@[simp] theorem rearm_cur (c : Cursor) (s : State) : (rearm c s).cur = resetBitCursor c := rfl
@[simp] theorem rearm_ri (c : Cursor) (s : State) : (rearm c s).ri = s.ri := rfl
@[simp] theorem rearm_todo (c : Cursor) (s : State) : (rearm c s).todo = s.ri := rfl
@[simp] theorem rearm_ht (c : Cursor) (s : State) : (rearm c s).ht = s.ht := rfl
@[simp] theorem rearm_qt (c : Cursor) (s : State) : (rearm c s).qt = s.qt := rfl
@[simp] theorem rearm_dcpred (c : Cursor) (s : State) : (rearm c s).dcpred = Vector.replicate 4 0 := rfl
@[simp] theorem rearm_coef (c : Cursor) (s : State) : (rearm c s).coef = s.coef := rfl
@[simp] theorem rearm_idctBuf (c : Cursor) (s : State) : (rearm c s).idctBuf = s.idctBuf := rfl
@[simp] theorem rearm_mem (c : Cursor) (s : State) : (rearm c s).mem = s.mem := rfl

/-! ### freeIdctBuffer -/

@[simp] theorem freeIdctBuffer_config (s : State) : (freeIdctBuffer s).config = s.config := rfl
@[simp] theorem freeIdctBuffer_host (s : State) : (freeIdctBuffer s).host = s.host := rfl
@[simp] theorem freeIdctBuffer_draws (s : State) : (freeIdctBuffer s).draws = s.draws + 1 := rfl
@[simp] theorem freeIdctBuffer_hostRegData (s : State) : (freeIdctBuffer s).hostRegData = s.hostRegData := rfl
@[simp] theorem freeIdctBuffer_hostMemData (s : State) : (freeIdctBuffer s).hostMemData = s.hostMemData := rfl
@[simp] theorem freeIdctBuffer_rstN (s : State) : (freeIdctBuffer s).rstN = s.rstN := rfl
@[simp] theorem freeIdctBuffer_irqEn (s : State) : (freeIdctBuffer s).irqEn = s.irqEn := rfl
@[simp] theorem freeIdctBuffer_busy (s : State) : (freeIdctBuffer s).busy = s.busy := rfl
@[simp] theorem freeIdctBuffer_done (s : State) : (freeIdctBuffer s).done = s.done := rfl
@[simp] theorem freeIdctBuffer_fault (s : State) : (freeIdctBuffer s).fault = s.fault := rfl
@[simp] theorem freeIdctBuffer_overrun (s : State) : (freeIdctBuffer s).overrun = s.overrun := rfl
@[simp] theorem freeIdctBuffer_scanEnd (s : State) : (freeIdctBuffer s).scanEnd = s.scanEnd := rfl
@[simp] theorem freeIdctBuffer_cmdLast (s : State) : (freeIdctBuffer s).cmdLast = s.cmdLast := rfl
@[simp] theorem freeIdctBuffer_result (s : State) : (freeIdctBuffer s).result = s.result := rfl
@[simp] theorem freeIdctBuffer_faultCode (s : State) : (freeIdctBuffer s).faultCode = s.faultCode := rfl
@[simp] theorem freeIdctBuffer_faultInfo (s : State) : (freeIdctBuffer s).faultInfo = s.faultInfo := rfl
@[simp] theorem freeIdctBuffer_faultCmd (s : State) : (freeIdctBuffer s).faultCmd = s.faultCmd := rfl
@[simp] theorem freeIdctBuffer_args (s : State) : (freeIdctBuffer s).args = s.args := rfl
@[simp] theorem freeIdctBuffer_bsEnd (s : State) : (freeIdctBuffer s).bsEnd = s.bsEnd := rfl
@[simp] theorem freeIdctBuffer_cur (s : State) : (freeIdctBuffer s).cur = s.cur := rfl
@[simp] theorem freeIdctBuffer_ri (s : State) : (freeIdctBuffer s).ri = s.ri := rfl
@[simp] theorem freeIdctBuffer_todo (s : State) : (freeIdctBuffer s).todo = s.todo := rfl
@[simp] theorem freeIdctBuffer_ht (s : State) : (freeIdctBuffer s).ht = s.ht := rfl
@[simp] theorem freeIdctBuffer_qt (s : State) : (freeIdctBuffer s).qt = s.qt := rfl
@[simp] theorem freeIdctBuffer_dcpred (s : State) : (freeIdctBuffer s).dcpred = s.dcpred := rfl
@[simp] theorem freeIdctBuffer_coef (s : State) : (freeIdctBuffer s).coef = s.coef := rfl
@[simp] theorem freeIdctBuffer_idctBuf (s : State) : (freeIdctBuffer s).idctBuf = Config.freeWords s.draws := rfl
@[simp] theorem freeIdctBuffer_mem (s : State) : (freeIdctBuffer s).mem = s.mem := rfl

/-! ### resetRegisters -/

@[simp] theorem resetRegisters_config (s : State) : (resetRegisters s).config = s.config := rfl
@[simp] theorem resetRegisters_host (s : State) : (resetRegisters s).host = s.host := rfl
@[simp] theorem resetRegisters_draws (s : State) : (resetRegisters s).draws = s.draws + 2 := rfl
@[simp] theorem resetRegisters_hostRegData (s : State) : (resetRegisters s).hostRegData = s.hostRegData := rfl
@[simp] theorem resetRegisters_hostMemData (s : State) : (resetRegisters s).hostMemData = s.hostMemData := rfl
@[simp] theorem resetRegisters_rstN (s : State) : (resetRegisters s).rstN = s.rstN := rfl
@[simp] theorem resetRegisters_irqEn (s : State) : (resetRegisters s).irqEn = false := rfl
@[simp] theorem resetRegisters_busy (s : State) : (resetRegisters s).busy = false := rfl
@[simp] theorem resetRegisters_done (s : State) : (resetRegisters s).done = false := rfl
@[simp] theorem resetRegisters_fault (s : State) : (resetRegisters s).fault = false := rfl
@[simp] theorem resetRegisters_overrun (s : State) : (resetRegisters s).overrun = false := rfl
@[simp] theorem resetRegisters_scanEnd (s : State) : (resetRegisters s).scanEnd = false := rfl
@[simp] theorem resetRegisters_cmdLast (s : State) : (resetRegisters s).cmdLast = 0 := rfl
@[simp] theorem resetRegisters_result (s : State) : (resetRegisters s).result = 0 := rfl
@[simp] theorem resetRegisters_faultCode (s : State) : (resetRegisters s).faultCode = 0 := rfl
@[simp] theorem resetRegisters_faultInfo (s : State) : (resetRegisters s).faultInfo = 0 := rfl
@[simp] theorem resetRegisters_faultCmd (s : State) : (resetRegisters s).faultCmd = 0 := rfl
@[simp] theorem resetRegisters_args (s : State) : (resetRegisters s).args = Vector.replicate 8 0 := rfl
@[simp] theorem resetRegisters_bsEnd (s : State) : (resetRegisters s).bsEnd = 0 := rfl
@[simp] theorem resetRegisters_cur (s : State) : (resetRegisters s).cur = Cursor.reset := rfl
@[simp] theorem resetRegisters_ri (s : State) : (resetRegisters s).ri = 0 := rfl
@[simp] theorem resetRegisters_todo (s : State) : (resetRegisters s).todo = 0 := rfl
@[simp] theorem resetRegisters_ht (s : State) : (resetRegisters s).ht = Vector.replicate 8 none := rfl
@[simp] theorem resetRegisters_qt (s : State) : (resetRegisters s).qt = Vector.replicate 4 none := rfl
@[simp] theorem resetRegisters_dcpred (s : State) : (resetRegisters s).dcpred = Vector.replicate 4 0 := rfl
@[simp] theorem resetRegisters_coef (s : State) : (resetRegisters s).coef = Config.freeWords s.draws := rfl
@[simp] theorem resetRegisters_idctBuf (s : State) : (resetRegisters s).idctBuf = Config.freeWords (s.draws + 1) := rfl
@[simp] theorem resetRegisters_mem (s : State) : (resetRegisters s).mem = s.mem := rfl

end Sys2Proof.Machine
end

