-- ==== Sys2Proof/Laws/Footprint.lean ====
section
/-! SUPPORT. The laws of footprints (20_memory.md R75, R76): what a passed check says, where a command's writes go, and
everything `storeRows` can do. -/
namespace Sys2Proof.Machine

/-! ### The range check -/

theorem Rows.mem_addresses (r : Rows) (a : Nat) :
    a ∈ r.addresses ↔ ∃ y < r.count, ∃ x < r.len, r.addr y x = a := by
  simp [Rows.addresses]

theorem Rows.addr_eq (r : Rows) (y x : Nat) : r.addr y x = r.addr y 0 + x := by simp [Rows.addr]

theorem lowestOut_eq_none (memSize : Nat) (rs : List Rows) :
    lowestOut memSize rs = none ↔ ∀ r ∈ rs, ∀ y < r.count, r.len = 0 ∨ r.addr y 0 + r.len ≤ memSize := by
  simp only [lowestOut, List.min?_eq_none_iff, List.flatMap_eq_nil_iff, List.filterMap_eq_nil_iff, List.mem_range]
  refine forall_congr' fun r => imp_congr_right fun _ => forall_congr' fun y => imp_congr_right fun _ => ?_
  unfold Rows.rowOut
  split <;> simp_all

/-- A passed check: every row with a byte in it ends inside MEM. -/
theorem checkFootprint_eq_none (s : State) (rs : List Rows) :
    checkFootprint s rs = none ↔
      ∀ r ∈ rs, ∀ y < r.count, r.len = 0 ∨ r.addr y 0 + r.len ≤ s.config.memSize := by
  rw [← lowestOut_eq_none]
  simp [checkFootprint]

/-- A passed check: every address of the footprint exists. -/
theorem addresses_lt_of_check (s : State) (rs : List Rows) (h : checkFootprint s rs = none) (r : Rows) (hr : r ∈ rs)
    (a : Nat) (ha : a ∈ r.addresses) : a < s.config.memSize := by
  obtain ⟨y, hy, x, hx, rfl⟩ := (r.mem_addresses a).1 ha
  rcases (checkFootprint_eq_none s rs).1 h r hr y hy with h0 | h1
  · omega
  · rw [Rows.addr_eq]; omega

theorem checkFootprint_code {s : State} {rs : List Rows} {r : Raised} (h : checkFootprint s rs = some r) :
    r.code = .addrRange := by
  simp only [checkFootprint, Option.map_eq_some_iff] at h
  obtain ⟨a, -, rfl⟩ := h
  rfl

/-! ### Where the writes go -/

theorem idctWrites_addresses (dest : Rows) (p : Vector Byte 64) (hl : dest.len = 8) (hc : dest.count = 8) :
    ∀ w ∈ idctWrites dest p, w.1 ∈ dest.addresses := by
  intro w hw
  simp only [idctWrites, List.mem_flatMap, List.mem_map, List.mem_range] at hw
  obtain ⟨r, hr, c, hc', rfl⟩ := hw
  exact (dest.mem_addresses _).2 ⟨r, by omega, c, by omega, rfl⟩

theorem upsampleWrites_addresses (mode : UpsampleMode) (m : Memory) (src dest : Rows) :
    ∀ w ∈ upsampleWrites mode m src dest, w.1 ∈ dest.addresses := by
  intro w hw
  simp only [upsampleWrites, List.mem_flatMap, List.mem_map, List.mem_range] at hw
  obtain ⟨y, hy, x, hx, rfl⟩ := hw
  exact (dest.mem_addresses _).2 ⟨y, hy, x, hx, rfl⟩

theorem colorWrites_addresses (m : ColorMode) (s : State) :
    ∀ w ∈ colorWrites m s, w.1 ∈ (colorRows s).addresses := by
  intro w hw
  simp only [colorWrites, List.mem_flatMap, List.mem_range, pixelWrites, List.mem_cons, List.not_mem_nil,
    or_false] at hw
  obtain ⟨y, hy, x, hx, hw⟩ := hw
  have haddr : ∀ k < 4, (colorRows s).addr y (4 * x) + k ∈ (colorRows s).addresses := by
    intro k hk
    refine ((colorRows s).mem_addresses _).2 ⟨y, hy, 4 * x + k, ?_, ?_⟩
    · simp only [colorRows]; omega
    · simp only [Rows.addr]; omega
  rcases hw with rfl | rfl | rfl | rfl
  · exact haddr 0 (by omega)
  · exact haddr 1 (by omega)
  · exact haddr 2 (by omega)
  · exact haddr 3 (by omega)

theorem drawnBytes_addresses (d : Nat) (ws : List (Nat × Byte)) (P : Nat → Prop) (h : ∀ w ∈ ws, P w.1) :
    ∀ w ∈ drawnBytes d ws, P w.1 := by
  intro w hw
  simp only [drawnBytes, List.mem_map] at hw
  obtain ⟨x, hx, rfl⟩ := hw
  exact h x hx

/-! ### Overlap (20_memory.md R76) -/

/-- Footprints without a common address do not meet. -/
theorem Rows.meets_eq_false (r q : Rows) (h : ∀ a ∈ r.addresses, a ∉ q.addresses) : r.meets q = false := by
  simp only [Rows.meets, List.any_eq_false, List.mem_range, rangesMeet, Bool.and_eq_true, decide_eq_true_eq,
    not_and, not_lt, List.any_eq_true, not_exists, and_imp]
  intro y hy z hz hr hq hlt
  by_contra hn
  refine h (max (r.addr y 0) (q.addr z 0)) ((r.mem_addresses _).2 ⟨y, hy, max (r.addr y 0) (q.addr z 0) - r.addr y 0, ?_, ?_⟩)
    ((q.mem_addresses _).2 ⟨z, hz, max (r.addr y 0) (q.addr z 0) - q.addr z 0, ?_, ?_⟩)
  · omega
  · rw [Rows.addr_eq]; omega
  · omega
  · rw [Rows.addr_eq]; omega

/-- Among writes that go row by row, the address of a row and column that no other shares is named once. -/
theorem writeCount_rows (n l : Nat) (f : Nat → Nat → Nat) (g : Nat → Nat → Byte) (y x : Nat) (hy : y < n) (hx : x < l)
    (h : ∀ z, z < n → ∀ w, w < l → f z w = f y x → z = y ∧ w = x) :
    writeCount ((List.range n).flatMap (fun z => (List.range l).map (fun w => (f z w, g z w)))) (f y x) = 1 := by
  have hrow : ∀ z ∈ List.range n,
      ((List.range l).map (fun w => (f z w, g z w))).countP (fun v => v.1 == f y x) = if z = y then 1 else 0 := by
    intro z hz
    rw [List.mem_range] at hz
    rw [List.countP_map]
    by_cases hzy : z = y
    · subst hzy
      rw [if_pos rfl, ← List.count_eq_one_of_mem List.nodup_range (List.mem_range.2 hx)]
      refine List.countP_congr fun w hw => ?_
      have := h z hz w (List.mem_range.1 hw)
      simp only [Function.comp, beq_iff_eq]
      exact ⟨fun e => (this e).2, fun e => by rw [e]⟩
    · rw [if_neg hzy, List.countP_eq_zero]
      intro w hw
      have := h z hz w (List.mem_range.1 hw)
      simp only [Function.comp, beq_iff_eq]
      exact fun e => hzy (this e).1
  have hmap := List.map_congr_left hrow
  rw [writeCount, List.countP_flatMap]
  refine Eq.trans (congrArg List.sum hmap) ?_
  clear hmap hrow h
  induction n with
  | zero => omega
  | succ n ih =>
    rw [List.range_succ, List.map_append, List.sum_append]
    by_cases hyn : y = n
    · subst hyn
      have h0 : ((List.range y).map (fun z => if z = y then 1 else 0)).sum = 0 := by
        rw [List.sum_eq_zero]
        simp only [List.mem_map, List.mem_range]
        rintro _ ⟨z, hz, rfl⟩
        rw [if_neg (by omega)]
      simp [h0]
    · rw [ih (by omega)]
      simp [Ne.symm hyn]

/-! ### storeRows -/

/-- Everything `storeRows` can do: it changes MEM and the draw counter, in one of three ways. -/
theorem storeRows_cases (reads : List Rows) (dest : Rows) (ws : List (Nat × Byte)) (s : State) :
    (reads.any (fun r => r.meets dest) = true ∧ storeRows reads dest ws s =
        { s with mem := s.mem.writeAll (drawnBytes s.draws ws), draws := s.draws + 1 }) ∨
    (reads.any (fun r => r.meets dest) = false ∧ dest.selfMeets = true ∧ storeRows reads dest ws s =
        { s with mem := s.mem.writeAll (overlapBytes s.draws ws), draws := s.draws + 1 }) ∨
    (reads.any (fun r => r.meets dest) = false ∧ dest.selfMeets = false ∧ storeRows reads dest ws s =
        { s with mem := s.mem.writeAll ws }) := by
  unfold storeRows
  cases h1 : reads.any (fun r => r.meets dest) <;> cases h2 : dest.selfMeets <;> simp

/-- The frame of `storeRows`: only MEM and the draw counter change. -/
theorem storeRows_frame (reads : List Rows) (dest : Rows) (ws : List (Nat × Byte)) (s : State) :
    storeRows reads dest ws s =
      { s with mem := (storeRows reads dest ws s).mem, draws := (storeRows reads dest ws s).draws } := by
  rcases storeRows_cases reads dest ws s with ⟨_, h⟩ | ⟨_, _, h⟩ | ⟨_, _, h⟩ <;> rw [h]

/-- A byte that no write names is as before. -/
theorem storeRows_read_other (reads : List Rows) (dest : Rows) (ws : List (Nat × Byte)) (s : State) (a : Nat)
    (h : ∀ w ∈ ws, w.1 ≠ a) : (storeRows reads dest ws s).mem.read a = s.mem.read a := by
  rcases storeRows_cases reads dest ws s with ⟨_, e⟩ | ⟨_, _, e⟩ | ⟨_, _, e⟩ <;> rw [e]
  · exact Memory.read_writeAll_other _ _ _ (drawnBytes_addresses _ _ (· ≠ a) h)
  · exact Memory.read_writeAll_other _ _ _ (overlapBytes_addresses _ _ (· ≠ a) h)
  · exact Memory.read_writeAll_other _ _ _ h

/-- Where nothing read is written, a byte that the writes name once holds what they write there, whether the destination
overlaps itself elsewhere or not. -/
theorem storeRows_read_once (reads : List Rows) (dest : Rows) (ws : List (Nat × Byte)) (s : State) (a : Nat) (v : Byte)
    (hr : reads.any (fun r => r.meets dest) = false) (hn : writeCount ws a = 1) (h : (a, v) ∈ ws) :
    (storeRows reads dest ws s).mem.read a = v := by
  rcases storeRows_cases reads dest ws s with ⟨e, _⟩ | ⟨_, _, e⟩ | ⟨_, _, e⟩
  · simp [hr] at e
  · rw [e]
    exact Memory.read_writeAll_once _ _ _ _ (by rw [writeCount_overlapBytes, hn]) (mem_overlapBytes _ _ _ _ hn h)
  · rw [e]
    exact Memory.read_writeAll_once _ _ _ _ hn h

/-- `storeRows` keeps the canonical form of MEM. -/
theorem storeRows_wf (reads : List Rows) (dest : Rows) (ws : List (Nat × Byte)) (s : State) (h : s.mem.wf = true) :
    (storeRows reads dest ws s).mem.wf = true := by
  rcases storeRows_cases reads dest ws s with ⟨_, e⟩ | ⟨_, _, e⟩ | ⟨_, _, e⟩ <;> rw [e]
  · exact Memory.writeAll_wf _ _ h
  · exact Memory.writeAll_wf _ _ h
  · exact Memory.writeAll_wf _ _ h

/-- `storeRows` lists nothing at or above a bound on MEM and on the writes. -/
theorem storeRows_bound (reads : List Rows) (dest : Rows) (ws : List (Nat × Byte)) (s : State) (n : Nat)
    (hm : ∀ c ∈ s.mem.cells, c.1 < n) (hw : ∀ w ∈ ws, w.1 < n) :
    ∀ c ∈ (storeRows reads dest ws s).mem.cells, c.1 < n := by
  rcases storeRows_cases reads dest ws s with ⟨_, e⟩ | ⟨_, _, e⟩ | ⟨_, _, e⟩ <;> rw [e]
  · exact Memory.writeAll_bound _ _ _ hm (drawnBytes_addresses _ _ (· < n) hw)
  · exact Memory.writeAll_bound _ _ _ hm (overlapBytes_addresses _ _ (· < n) hw)
  · exact Memory.writeAll_bound _ _ _ hm hw

/-- Rows that do not meet themselves have one address per row and column. -/
theorem Rows.addr_injective (r : Rows) (h : r.selfMeets = false) {y z x w : Nat} (hy : y < r.count) (hz : z < r.count)
    (hx : x < r.len) (hw : w < r.len) (e : r.addr y x = r.addr z w) : y = z ∧ x = w := by
  simp only [Rows.selfMeets, Bool.and_eq_false_iff, decide_eq_false_iff_not, not_lt] at h
  simp only [Rows.addr] at e
  rcases h with h | h
  · have hyz : y = z := by omega
    subst hyz
    exact ⟨rfl, by omega⟩
  · rcases Nat.lt_trichotomy y z with hlt | heq | hgt
    · have : (y + 1) * r.stride ≤ z * r.stride := Nat.mul_le_mul_right _ hlt
      have h2 : (y + 1) * r.stride = y * r.stride + r.stride := Nat.succ_mul _ _
      omega
    · subst heq
      exact ⟨rfl, by omega⟩
    · have : (z + 1) * r.stride ≤ y * r.stride := Nat.mul_le_mul_right _ hgt
      have h2 : (z + 1) * r.stride = z * r.stride + r.stride := Nat.succ_mul _ _
      omega

end Sys2Proof.Machine
end

