-- ==== Sys2Proof/Laws/Exec.lean ====
section
/-! SUPPORT. What each command's meaning and each host move can do, said once: every way it can end, as an equation. Proofs
cite these instead of unfolding a meaning. -/
namespace Sys2Proof.Machine

/-! ### Endings -/

@[simp] theorem finishStream_ok (s : State) (v : Word) (c : Cursor) :
    finishStream s (.ok (v, c)) = complete v { s with cur := c } := rfl

@[simp] theorem finishStream_error (s : State) (r : Raised) : finishStream s (.error r) = streamFault r s := rfl

/-- The two ways a command on the reader ends. -/
theorem finishStream_cases (s : State) (e : Except Raised (Word × Cursor)) :
    (∃ v c, e = .ok (v, c) ∧ finishStream s e = complete v { s with cur := c }) ∨
      (∃ r, e = .error r ∧ finishStream s e = streamFault r s) := by
  cases e with
  | error r => exact .inr ⟨r, rfl, rfl⟩
  | ok p => exact .inl ⟨p.1, p.2, rfl, rfl⟩

/-! ### Table loads -/

/-- LOAD_DQT's four ways to end, in the order of its checks (41_tables.md R140). -/
theorem execLoadDqt_cases (s : State) :
    ∃ t, execLoadDqt s = .next t ∧
      ((∃ r, checkFootprint s [recordRows (argNat s 0) 65] = some r ∧ t = faultEntry r s) ∨
       (checkFootprint s [recordRows (argNat s 0) 65] = none ∧
         ((highNibble (s.mem.read (argNat s 0)) ≠ 0 ∧
            t = faultEntry ⟨.unsupportedPrecision, BitVec.ofNat 32 (highNibble (s.mem.read (argNat s 0)))⟩ s) ∨
          (highNibble (s.mem.read (argNat s 0)) = 0 ∧ 3 < lowNibble (s.mem.read (argNat s 0)) ∧
            t = faultEntry ⟨.badDqt, BitVec.ofNat 32 (lowNibble (s.mem.read (argNat s 0)))⟩ s) ∨
          (highNibble (s.mem.read (argNat s 0)) = 0 ∧ lowNibble (s.mem.read (argNat s 0)) ≤ 3 ∧
            t = complete 65
              { s with
                qt := s.qt.set (Fin.ofNat 4 (lowNibble (s.mem.read (argNat s 0)))) (some (quantBytes s.mem (argNat s 0))) })))) := by
  simp only [execLoadDqt]
  split
  · exact ⟨_, rfl, .inl ⟨_, by assumption, rfl⟩⟩
  · rename_i hc
    split
    · exact ⟨_, rfl, .inr ⟨hc, .inl ⟨by assumption, rfl⟩⟩⟩
    · rename_i hp
      split
      · exact ⟨_, rfl, .inr ⟨hc, .inr (.inl ⟨by simpa using hp, by assumption, rfl⟩)⟩⟩
      · exact ⟨_, rfl, .inr ⟨hc, .inr (.inr ⟨by simpa using hp, by omega, rfl⟩)⟩⟩

/-- LOAD_DHT's ways to end: a fault that changes nothing else, BAD_CODE_LENGTHS, or a table built and installed
(41_tables.md R141). -/
theorem execLoadDht_cases (s : State) :
    ∃ t, execLoadDht s = .next t ∧
      ((∃ r, (r.code = .addrRange ∨ r.code = .badDht) ∧ t = faultEntry r s) ∨
       (∃ r, highNibble (s.mem.read (argNat s 0)) ≤ 1 ∧ lowNibble (s.mem.read (argNat s 0)) ≤ 3 ∧
          buildHuffman (recordCounts s.mem (argNat s 0))
              (readBytes s.mem (argNat s 0 + 17) (recordCounts s.mem (argNat s 0)).sum) = .error r ∧
          t = slotFault r (recordSlot (highNibble (s.mem.read (argNat s 0))) (lowNibble (s.mem.read (argNat s 0)))) s) ∨
       (∃ table, highNibble (s.mem.read (argNat s 0)) ≤ 1 ∧ lowNibble (s.mem.read (argNat s 0)) ≤ 3 ∧
          (recordCounts s.mem (argNat s 0)).sum ≤ 256 ∧
          buildHuffman (recordCounts s.mem (argNat s 0))
            (readBytes s.mem (argNat s 0 + 17) (recordCounts s.mem (argNat s 0)).sum) = .ok table ∧
          t = complete (BitVec.ofNat 32 (17 + (recordCounts s.mem (argNat s 0)).sum))
              { s with
                ht := s.ht.set (recordSlot (highNibble (s.mem.read (argNat s 0))) (lowNibble (s.mem.read (argNat s 0))))
                  (some table) })) := by
  simp only [execLoadDht]
  split
  · rename_i r hr
    exact ⟨_, rfl, .inl ⟨r, .inl (checkFootprint_code hr), rfl⟩⟩
  · split
    · exact ⟨_, rfl, .inl ⟨_, .inr rfl, rfl⟩⟩
    · rename_i hnib
      refine ⟨_, rfl, ?_⟩
      unfold loadDhtBody
      split
      · exact .inl ⟨_, .inr rfl, rfl⟩
      · rename_i hn
        split
        · rename_i r hr
          exact .inl ⟨r, .inl (checkFootprint_code hr), rfl⟩
        · split
          · rename_i r hr
            exact .inr (.inl ⟨r, by omega, by omega, hr, rfl⟩)
          · rename_i table ht
            exact .inr (.inr ⟨table, by omega, by omega, by omega, ht, rfl⟩)

/-! ### The entropy decoder -/

/-- HUFF_DECODE's ways to end (42_entropy.md R173). -/
theorem execHuffDecode_cases (i : Fin 8) (s : State) :
    ∃ t, execHuffDecode i s = .next t ∧
      ((s.ht.get i = none ∧ t = faultEntry ⟨.unboundTable, BitVec.ofNat 32 i.val⟩ s) ∨
       (∃ table v c, s.ht.get i = some table ∧ decodeSymbol s table s.cur = .ok (v, c) ∧
          t = complete (v.setWidth 32) { s with cur := c }) ∨
       (∃ table r, s.ht.get i = some table ∧ decodeSymbol s table s.cur = .error r ∧ t = streamFault r s)) := by
  unfold execHuffDecode
  cases h : s.ht.get i with
  | none => exact ⟨_, rfl, .inl ⟨rfl, rfl⟩⟩
  | some table =>
    cases hd : decodeSymbol s table s.cur with
    | error r => exact ⟨_, rfl, .inr (.inr ⟨table, r, rfl, hd, by simp [hd, Except.map]⟩)⟩
    | ok p => exact ⟨_, rfl, .inr (.inl ⟨table, p.1, p.2, rfl, hd, by simp [hd, Except.map]⟩)⟩

/-- RECEIVE's ways to end (42_entropy.md R174). -/
theorem execReceive_cases (n : BitVec 5) (s : State) :
    ∃ t, execReceive n s = .next t ∧
      ((16 < n.toNat ∧ t = faultEntry ⟨.illegalCommand, Illegal.fieldRange.info⟩ s) ∨
       (n.toNat ≤ 16 ∧ ∃ v c, receiveExtend s n.toNat s.cur = .ok (v, c) ∧ t = complete v { s with cur := c }) ∨
       (n.toNat ≤ 16 ∧ ∃ r, receiveExtend s n.toNat s.cur = .error r ∧ t = streamFault r s)) := by
  unfold execReceive
  split
  · exact ⟨_, rfl, .inl ⟨by assumption, rfl⟩⟩
  · rename_i hn
    refine ⟨_, rfl, .inr ?_⟩
    rcases finishStream_cases s (receiveExtend s n.toNat s.cur) with ⟨v, c, h, e⟩ | ⟨r, h, e⟩
    · exact .inl ⟨by omega, v, c, h, e⟩
    · exact .inr ⟨by omega, r, h, e⟩

/-- DECODE_BLOCK's ways to end: an unbound slot, a block decoded, or a fault in the middle (42_entropy.md R175). -/
theorem execDecodeBlock_cases (dc ac q c : Fin 4) (s : State) :
    ∃ t, execDecodeBlock dc ac q c s = .next t ∧
      ((∃ info, t = faultEntry ⟨.unboundTable, info⟩ s) ∨
       (∃ tdc tac quant, s.ht.get (dcSlot dc) = some tdc ∧ s.ht.get (acSlot ac) = some tac ∧ s.qt.get q = some quant ∧
         ((∃ r, decodeBlockData s tdc tac quant c = .error r ∧ t = blockFault r c s) ∨
          (∃ pred b, decodeBlockData s tdc tac quant c = .ok (pred, b) ∧
            t = complete (BitVec.ofNat 32 b.k)
                  { s with cur := b.cur, dcpred := s.dcpred.set c pred, coef := b.coef })))) := by
  unfold execDecodeBlock
  cases h1 : s.ht.get (dcSlot dc) with
  | none => exact ⟨_, rfl, .inl ⟨_, rfl⟩⟩
  | some tdc =>
    cases h2 : s.ht.get (acSlot ac) with
    | none => exact ⟨_, rfl, .inl ⟨_, rfl⟩⟩
    | some tac =>
      cases h3 : s.qt.get q with
      | none => exact ⟨_, rfl, .inl ⟨_, rfl⟩⟩
      | some quant =>
        dsimp only
        cases h4 : decodeBlockData s tdc tac quant c with
        | error r => exact ⟨_, rfl, .inr ⟨tdc, tac, quant, rfl, rfl, rfl, .inl ⟨r, h4, rfl⟩⟩⟩
        | ok p => exact ⟨_, rfl, .inr ⟨tdc, tac, quant, rfl, rfl, rfl, .inr ⟨p.1, p.2, h4, rfl⟩⟩⟩

/-! ### Scans -/

/-- END_MCU's ways to end (44_scan.md R221). -/
theorem execEndMcu_cases (s : State) :
    ∃ t, execEndMcu s = .next t ∧
      ((s.ri = 0 ∧ t = complete 0 s) ∨
       (s.ri ≠ 0 ∧ countDown s.todo ≠ 0 ∧ t = complete 0 { s with todo := countDown s.todo }) ∨
       (s.ri ≠ 0 ∧ countDown s.todo = 0 ∧
         ((∃ r, restartRefill s s.cur = .error r ∧ t = restartFault r s) ∨
          (∃ c, restartRefill s s.cur = .ok c ∧ restartLatched c = true ∧ t = complete 1 (rearm c s)) ∨
          (∃ c, restartRefill s s.cur = .ok c ∧ restartLatched c = false ∧
            t = complete 2 { s with cur := c, todo := countDown s.todo, scanEnd := true })))) := by
  unfold execEndMcu
  by_cases h1 : s.ri = 0
  · exact ⟨complete 0 s, by rw [if_pos h1], .inl ⟨h1, rfl⟩⟩
  · by_cases h2 : countDown s.todo = 0
    · refine ⟨restartPoint s, by rw [if_neg h1, if_pos h2], .inr (.inr ⟨h1, h2, ?_⟩)⟩
      unfold restartPoint
      cases h3 : restartRefill s s.cur with
      | error r => exact .inl ⟨r, rfl, rfl⟩
      | ok c =>
        cases h4 : restartLatched c with
        | true => exact .inr (.inl ⟨c, rfl, h4, by simp [h4]⟩)
        | false => exact .inr (.inr ⟨c, rfl, h4, by simp [h4]⟩)
    · exact ⟨_, by rw [if_neg h1, if_neg h2], .inr (.inl ⟨h1, h2, rfl⟩)⟩

/-- FIND_MARKER's ways to end (40_cursor.md R119). -/
theorem execFindMarker_cases (m : FindMode) (s : State) :
    ∃ t, execFindMarker m s = .next t ∧
      ((∃ v c, findMarker s m s.cur = .ok (v, c) ∧ t = complete v { s with cur := c }) ∨
       (∃ r, findMarker s m s.cur = .error r ∧ t = streamFault r s)) :=
  ⟨_, rfl, finishStream_cases s _⟩

/-! ### The commands that write MEM -/

/-- IDCT's two ways to end (43_idct.md R204). -/
theorem execIdct_cases (s : State) :
    ∃ t, execIdct s = .next t ∧
      ((∃ r, checkFootprint s [idctRows s] = some r ∧ t = faultEntry r s) ∨
       (checkFootprint s [idctRows s] = none ∧
        t = complete 0 (freeIdctBuffer (storeRows [] (idctRows s)
              (idctWrites (idctRows s) (idctBlock s.config.kernel s.coef)) s)))) := by
  simp only [execIdct]
  split
  · exact ⟨_, rfl, .inl ⟨_, by assumption, rfl⟩⟩
  · exact ⟨_, rfl, .inr ⟨by assumption, rfl⟩⟩

/-- UPSAMPLE's three ways to end (45_upsample.md R240). -/
theorem execUpsample_cases (m : UpsampleMode) (s : State) :
    ∃ t, execUpsample m s = .next t ∧
      (((argLow s 3 = 0 ∨ argHigh s 3 = 0) ∧ t = complete 0 s) ∨
       (argLow s 3 ≠ 0 ∧ argHigh s 3 ≠ 0 ∧
         ((∃ r, checkFootprint s [upsampleReads s, upsampleRows m s] = some r ∧ t = faultEntry r s) ∨
          (checkFootprint s [upsampleReads s, upsampleRows m s] = none ∧
            t = complete 0 (storeRows [upsampleReads s] (upsampleRows m s)
                  (upsampleWrites m s.mem (upsampleReads s) (upsampleRows m s)) s))))) := by
  simp only [execUpsample]
  split
  · exact ⟨_, rfl, .inl ⟨by assumption, rfl⟩⟩
  · rename_i h
    have h' : argLow s 3 ≠ 0 ∧ argHigh s 3 ≠ 0 := by simpa [upsampleReads] using h
    split
    · exact ⟨_, rfl, .inr ⟨h'.1, h'.2, .inl ⟨_, by assumption, rfl⟩⟩⟩
    · exact ⟨_, rfl, .inr ⟨h'.1, h'.2, .inr ⟨by assumption, rfl⟩⟩⟩

/-- COLOR_CONVERT's three ways to end (46_color.md R260). -/
theorem execColorConvert_cases (m : ColorMode) (s : State) :
    ∃ t, execColorConvert m s = .next t ∧
      (((argLow s 4 = 0 ∨ argHigh s 4 = 0) ∧ t = complete 0 s) ∨
       (argLow s 4 ≠ 0 ∧ argHigh s 4 ≠ 0 ∧
         ((∃ r, checkFootprint s (colorReads m s ++ [colorRows s]) = some r ∧ t = faultEntry r s) ∨
          (checkFootprint s (colorReads m s ++ [colorRows s]) = none ∧
            t = complete 0 (storeRows (colorReads m s) (colorRows s) (colorWrites m s) s))))) := by
  simp only [execColorConvert]
  split
  · exact ⟨_, rfl, .inl ⟨by assumption, rfl⟩⟩
  · rename_i h
    have h' : argLow s 4 ≠ 0 ∧ argHigh s 4 ≠ 0 := by simpa using h
    split
    · exact ⟨_, rfl, .inr ⟨h'.1, h'.2, .inl ⟨_, by assumption, rfl⟩⟩⟩
    · exact ⟨_, rfl, .inr ⟨h'.1, h'.2, .inr ⟨by assumption, rfl⟩⟩⟩

/-! ### The host's moves -/

/-- Accesses made after others that went through. -/
theorem runAccesses_append {ops more : List HostOp} {s t : State} {ws : List Word}
    (h : runAccesses ops s = .next (t, ws)) {u : State} {vs : List Word} (h' : runAccesses more t = .next (u, vs)) :
    runAccesses (ops ++ more) s = .next (u, ws ++ vs) := by
  induction ops generalizing s ws with
  | nil => cases h; simpa using h'
  | cons op ops ih =>
    simp only [runAccesses] at h
    split at h
    · cases h
    · cases h
    · rename_i s1 h1
      split at h
      · cases h
      · cases h
      · rename_i p h2
        cases h
        simp only [List.cons_append, runAccesses, h1, ih h2, List.append_assoc]

/-- A MEM access that goes through (20_memory.md R73). -/
theorem memPort_next {a n : Nat} {s k t : State} (h : memPort a n s k = .next t) :
    s.rstN = true ∧ s.busy = false ∧ (n = 0 ∨ a + n ≤ s.config.memSize) ∧ t = k := by
  unfold memPort at h
  split at h
  · rename_i hr
    split at h
    · cases h
    · rename_i hb
      split at h
      · cases h
      · rename_i hn
        cases h
        exact ⟨hr, by simpa using hb, by omega, rfl⟩
  · cases h

/-- What an abort can do (70_reset_and_hazards.md R311): nothing, or any value in the bytes of the write footprint. -/
theorem abortCommand_cases (i : Instr) (s : State) :
    abortCommand i s = s ∨
      ∃ reads dest, writerFootprint i s = some (reads, dest) ∧ checkFootprint s (reads ++ [dest]) = none ∧
        abortCommand i s =
          { s with
            mem := s.mem.writeAll (dest.addresses.map (fun a => (a, Config.freeByteAt s.draws a)))
            draws := s.draws + 1 } := by
  unfold abortCommand
  cases h : writerFootprint i s with
  | none => exact .inl rfl
  | some p =>
    obtain ⟨reads, dest⟩ := p
    cases hc : checkFootprint s (reads ++ [dest]) with
    | some r => exact .inl (by simp only [hc])
    | none => exact .inr ⟨reads, dest, rfl, hc, by simp only [hc]⟩

/-- What a soft reset can do (70_reset_and_hazards.md R311): the registers reset, after an abort of the running command. -/
theorem softReset_cases (s : State) :
    softReset s = resetRegisters s ∨
      ∃ i, s.busy = true ∧ decode s.cmdLast = .ok i ∧ softReset s = resetRegisters (abortCommand i s) := by
  unfold softReset
  cases hb : s.busy with
  | false => exact .inl (by simp)
  | true =>
    cases hd : decode s.cmdLast with
    | ok i => exact .inr ⟨i, rfl, rfl, by simp⟩
    | error e => exact .inl (by simp)

end Sys2Proof.Machine
end

