-- ==== Sys2Proof/Laws/Ends.lean ====
section
/-! SUPPORT. Every way a command ends, said once over all commands (60_exceptions.md R288): a completion with what it may
change, or one of the three kinds of fault. Statements over all commands split on `Ends`, not on the twelve meanings. -/
namespace Sys2Proof.Machine

open Sys2Proof.Safety

/-! ### Which faults the stream commands raise -/

/-- A fault of 60_exceptions.md R288(c). -/
def StreamCode (r : Raised) : Prop :=
  r.code = .streamExhausted ∨ r.code = .addrRange ∨ r.code = .badHuffmanCode

theorem readStreamByte_code {s : State} {c : Cursor} {r : Raised} (h : readStreamByte s c = .error r) : StreamCode r := by
  rcases readStreamByte_error h with ⟨-, rfl⟩ | ⟨-, -, rfl⟩
  · exact .inl rfl
  · exact .inr (.inl rfl)

theorem refillByte_code {s : State} {c : Cursor} {r : Raised} (h : refillByte s c = .error r) : StreamCode r := by
  unfold refillByte at h
  split at h
  · cases h
  · cases h1 : readStreamByte s c with
    | error r1 => simp only [h1] at h; cases h; exact readStreamByte_code h1
    | ok p =>
      obtain ⟨x, c1⟩ := p
      simp only [h1] at h
      split at h
      · cases h2 : readStreamByte s c1 with
        | error r1 => simp only [h2] at h; cases h; exact readStreamByte_code h2
        | ok q =>
          obtain ⟨m, c2⟩ := q
          simp only [h2] at h
          split at h <;> cases h
      · cases h

theorem refillLoop_code {s : State} (n : Nat) {c : Cursor} {r : Raised} (h : refillLoop s n c = .error r) :
    StreamCode r := by
  induction n generalizing c with
  | zero => cases h
  | succ n ih =>
    unfold refillLoop at h
    split at h
    · cases hb : refillByte s c with
      | error r1 => simp only [hb] at h; cases h; exact refillByte_code hb
      | ok p => obtain ⟨b, c1⟩ := p; simp only [hb] at h; exact ih h
    · cases h

theorem refillBelow_code {s : State} {n : Nat} {c : Cursor} {r : Raised} (h : refillBelow s n c = .error r) :
    StreamCode r := by
  unfold refillBelow at h
  split at h
  · exact refillLoop_code 3 h
  · cases h

theorem lookupSymbol_code {t : HuffTable} {c : Cursor} {r : Raised} (h : lookupSymbol t c = .error r) : StreamCode r := by
  simp only [lookupSymbol] at h
  split at h
  · cases h
  · unfold slowPath at h
    split at h
    · cases h; exact .inr (.inr rfl)
    · simp only at h
      split at h
      · cases h; exact .inr (.inr rfl)
      · cases h

theorem decodeSymbol_code {s : State} {t : HuffTable} {c : Cursor} {r : Raised} (h : decodeSymbol s t c = .error r) :
    StreamCode r := by
  unfold decodeSymbol at h
  cases h1 : refillBelow s 16 c with
  | error r1 => simp only [h1] at h; cases h; exact refillBelow_code h1
  | ok c1 => simp only [h1] at h; exact lookupSymbol_code h

theorem receiveExtend_code {s : State} {n : Nat} {c : Cursor} {r : Raised} (h : receiveExtend s n c = .error r) :
    StreamCode r := by
  unfold receiveExtend at h
  split at h
  · cases h
  · cases h1 : refillBelow s n c with
    | error r1 => simp only [h1] at h; cases h; exact refillBelow_code h1
    | ok c1 => simp only [h1] at h; cases h

theorem acStep_code {s : State} {t : HuffTable} {q : Vector Byte 64} {b : BlockState} {r : Raised}
    (h : acStep s t q b = .error r) : StreamCode r := by
  unfold acStep at h
  cases h1 : decodeSymbol s t b.cur with
  | error r1 => simp only [h1] at h; cases h; exact decodeSymbol_code h1
  | ok p =>
    obtain ⟨rs, c1⟩ := p
    simp only [h1] at h
    split at h
    · cases h
    · split at h
      · cases h; exact .inr (.inr rfl)
      · cases h2 : receiveExtend s (rs.toNat % 16) c1 with
        | error r1 => simp only [h2] at h; cases h; exact receiveExtend_code h2
        | ok p2 => simp only [h2] at h; cases h

theorem acLoop_code {s : State} {t : HuffTable} {q : Vector Byte 64} (n : Nat) {b : BlockState} {r : Raised}
    (h : acLoop s t q n b = .error r) : StreamCode r := by
  induction n generalizing b with
  | zero => cases h
  | succ n ih =>
    unfold acLoop at h
    split at h
    · cases h1 : acStep s t q b with
      | error r1 => simp only [h1] at h; cases h; exact acStep_code h1
      | ok p =>
        obtain ⟨b1, last⟩ := p
        cases last <;> simp only [h1] at h
        · exact ih h
        · cases h
    · cases h

theorem decodeBlockData_code {s : State} {tdc tac : HuffTable} {q : Vector Byte 64} {c : Fin 4} {r : Raised}
    (h : decodeBlockData s tdc tac q c = .error r) : StreamCode r := by
  unfold decodeBlockData at h
  cases h1 : decodeDc s tdc s.cur with
  | error r1 =>
    simp only [h1] at h
    cases h
    unfold decodeDc at h1
    cases h2 : decodeSymbol s tdc s.cur with
    | error r2 => simp only [h2] at h1; cases h1; exact decodeSymbol_code h2
    | ok p =>
      simp only [h2] at h1
      split at h1
      · cases h1; exact .inr (.inr rfl)
      · exact receiveExtend_code h1
  | ok p =>
    obtain ⟨d, c1⟩ := p
    simp only [h1] at h
    split at h
    · rename_i r1 h2; cases h; exact acLoop_code _ h2
    · cases h

theorem scanMarker_code {s : State} {m : FindMode} (n : Nat) {run : Bool} {x : Byte} {c : Cursor} {r : Raised}
    (h : scanMarker s m n run x c = .error r) : StreamCode r := by
  induction n generalizing run x c with
  | zero => cases h; exact .inl rfl
  | succ n ih =>
    unfold scanMarker at h
    split at h
    · cases h1 : readStreamByte s c with
      | error r1 => simp only [h1] at h; cases h; exact readStreamByte_code h1
      | ok p => obtain ⟨y, c1⟩ := p; simp only [h1] at h; exact ih h
    · split at h
      · cases h
      · split at h
        · cases h
        · cases h1 : readStreamByte s c with
          | error r1 => simp only [h1] at h; cases h; exact readStreamByte_code h1
          | ok p => obtain ⟨y, c1⟩ := p; simp only [h1] at h; exact ih h

theorem findMarker_code {s : State} {m : FindMode} {c : Cursor} {r : Raised} (h : findMarker s m c = .error r) :
    StreamCode r := by
  unfold findMarker at h
  split at h
  · split at h
    · exact scanMarker_code _ h
    · cases h
  · cases h1 : readStreamByte s c with
    | error r1 => simp only [h1] at h; cases h; exact readStreamByte_code h1
    | ok p =>
      obtain ⟨x, c1⟩ := p
      simp only [h1] at h
      split at h
      · cases h
      · exact scanMarker_code _ h

theorem assignCodes_code {l : Nat} {counts : List Nat} {acc : CodeAcc} {r : Raised}
    (h : assignCodes l counts acc = .error r) : r.code = .badCodeLengths := by
  induction counts generalizing l acc with
  | nil => cases h
  | cons c cs ih =>
    unfold assignCodes at h
    cases h1 : assignLength l c acc with
    | error r1 =>
      simp only [h1] at h
      cases h
      simp only [assignLength] at h1
      split at h1
      · cases h1; rfl
      · cases h1
    | ok a => simp only [h1] at h; exact ih h

theorem buildHuffman_code {counts : List Nat} {sym : List Byte} {r : Raised} (h : buildHuffman counts sym = .error r) :
    r.code = .badCodeLengths := by
  unfold buildHuffman at h
  cases h1 : assignCodes 1 counts ⟨0, 0, [], [], []⟩ with
  | error r1 => simp only [h1] at h; cases h; exact assignCodes_code h1
  | ok a => simp only [h1] at h; cases h

/-! ### What the reader keeps -/

theorem pushByte_ok (b : Byte) {c : Cursor} (hlt : c.bitcnt.toNat < 24) (h : c.bitbuf <<< c.bitcnt.toNat = 0) :
    (pushByte b c).bitbuf <<< (pushByte b c).bitcnt.toNat = 0 := by
  have hn : (c.bitcnt + 8).toNat = c.bitcnt.toNat + 8 := by
    rw [BitVec.toNat_add]
    have : (8 : BitVec 5).toNat = 8 := rfl
    omega
  simp only [pushByte_bitbuf, pushByte_bitcnt, hn]
  apply BitVec.eq_of_getLsbD_eq
  intro i hi
  have h0 := congrArg (fun w : Word => w.getLsbD (i - 8)) h
  simp only [BitVec.getLsbD_shiftLeft, BitVec.getLsbD_or, BitVec.getLsbD_setWidth] at h0 ⊢
  have hz : (0#32).getLsbD i = false := by simp
  by_cases h1 : i < c.bitcnt.toNat + 8
  · simp [h1]
  · have h2 : ¬ (i - (c.bitcnt.toNat + 8) < 24 - c.bitcnt.toNat ∧ False) := by simp
    have e1 : i - 8 - c.bitcnt.toNat = i - (c.bitcnt.toNat + 8) := by omega
    have e2 : i - 8 < 32 := by omega
    have e3 : ¬ (i - 8 < c.bitcnt.toNat) := by omega
    have h3 : c.bitbuf.getLsbD (i - (c.bitcnt.toNat + 8)) = false := by simpa [e1, e2, e3] using h0
    have h4 : i - (c.bitcnt.toNat + 8) < 24 - c.bitcnt.toNat := by omega
    simp [h3, h4]

theorem readStreamByte_cursorOk {s : State} {c c' : Cursor} {b : Byte} (hc : CursorOk c)
    (h : readStreamByte s c = .ok (b, c')) : CursorOk c' := by
  obtain ⟨-, -, -, rfl⟩ := readStreamByte_ok h
  exact hc

theorem readStreamByte_nomore {s : State} {c c' : Cursor} {b : Byte} (h : readStreamByte s c = .ok (b, c')) :
    c'.nomore = c.nomore := by
  obtain ⟨-, -, -, rfl⟩ := readStreamByte_ok h
  rfl

/-- One turn of Refill keeps the cursor's invariants (10_state.md R44, R45). -/
theorem refillTurn_cursorOk {s : State} (c : Cursor) (b : Byte) (c1 : Cursor) (hc : CursorOk c)
    (hlt : c.bitcnt.toNat < 24) (h : refillByte s c = .ok (b, c1)) : CursorOk (pushByte b c1) := by
  have key : c1.bitbuf = c.bitbuf → c1.bitcnt = c.bitcnt → (c1.nomore = false → c1.markerValid = false) →
      (c1.markerValid = false → c1.markerCode = 0xFF) → (c1.markerValid = true → c1.markerCode ≠ 0) →
      CursorOk (pushByte b c1) := by
    intro h1 h2 h3 h4 h5
    exact ⟨pushByte_ok b (by rw [h2]; exact hlt) (by rw [h1, h2]; exact hc.1), h3, h4, h5⟩
  rcases refillByte_ok h with ⟨-, -, rfl⟩ | ⟨-, -, h1⟩ | ⟨c2, -, -, h1, h2⟩ | ⟨c2, c3, m, -, -, hm, h1, h2, rfl⟩
  · exact key rfl rfl hc.2.1 hc.2.2.1 hc.2.2.2
  · obtain ⟨-, -, -, rfl⟩ := readStreamByte_ok h1
    exact key rfl rfl hc.2.1 hc.2.2.1 hc.2.2.2
  · obtain ⟨-, -, -, rfl⟩ := readStreamByte_ok h1
    obtain ⟨-, -, -, rfl⟩ := readStreamByte_ok h2
    exact key rfl rfl hc.2.1 hc.2.2.1 hc.2.2.2
  · obtain ⟨-, -, -, rfl⟩ := readStreamByte_ok h1
    obtain ⟨-, -, -, rfl⟩ := readStreamByte_ok h2
    exact key rfl rfl (by simp) (by simp) (by simpa using hm)

/-- One turn of Refill never lowers NOMORE, and with NOMORE = 1 moves no pointer (40_cursor.md R114). -/
theorem refillTurn_nomore {s : State} (p : Word) (c : Cursor) (b : Byte) (c1 : Cursor)
    (hc : c.nomore = true ∧ c.bsPtr = p) (h : refillByte s c = .ok (b, c1)) :
    (pushByte b c1).nomore = true ∧ (pushByte b c1).bsPtr = p := by
  rcases refillByte_ok h with ⟨-, -, rfl⟩ | ⟨hn, -⟩ | ⟨_, hn, -⟩ | ⟨_, _, _, hn, -⟩
  · exact hc
  all_goals rw [hc.1] at hn; cases hn

theorem refillBelow_cursorOk {s : State} {n : Nat} {c c' : Cursor} (hc : CursorOk c) (h : refillBelow s n c = .ok c') :
    CursorOk c' :=
  refillBelow_induct CursorOk (fun c b c1 h1 h2 h3 => refillTurn_cursorOk c b c1 h1 h2 h3) n hc h

theorem refillBelow_nomore {s : State} {n : Nat} {c c' : Cursor} (hc : c.nomore = true) (h : refillBelow s n c = .ok c') :
    c'.nomore = true ∧ c'.bsPtr = c.bsPtr :=
  refillBelow_induct (fun x => x.nomore = true ∧ x.bsPtr = c.bsPtr)
    (fun x b c1 h1 _ h3 => refillTurn_nomore c.bsPtr x b c1 h1 h3) n ⟨hc, rfl⟩ h

/-- A refill that runs below `n ≤ 24` bits leaves at least `n` (40_cursor.md R111). -/
theorem refillLoop_enough {s : State} (k : Nat) {c c' : Cursor} (h : refillLoop s k c = .ok c')
    (hk : 24 ≤ c.bitcnt.toNat + 8 * k) : 24 ≤ c'.bitcnt.toNat := by
  induction k generalizing c with
  | zero => cases h; omega
  | succ k ih =>
    unfold refillLoop at h
    split at h
    · rename_i hlt
      cases hb : refillByte s c with
      | error r => simp [hb] at h
      | ok p =>
        obtain ⟨b, c1⟩ := p
        simp only [hb] at h
        refine ih h ?_
        have hcnt : c1.bitcnt = c.bitcnt := by
          rcases refillByte_ok hb with ⟨-, -, rfl⟩ | ⟨-, -, h1⟩ | ⟨c2, -, -, h1, h2⟩ | ⟨c2, c3, m, -, -, -, h1, h2, rfl⟩
          · rfl
          · obtain ⟨-, -, -, rfl⟩ := readStreamByte_ok h1; rfl
          · obtain ⟨-, -, -, rfl⟩ := readStreamByte_ok h1
            obtain ⟨-, -, -, rfl⟩ := readStreamByte_ok h2; rfl
          · obtain ⟨-, -, -, rfl⟩ := readStreamByte_ok h1
            obtain ⟨-, -, -, rfl⟩ := readStreamByte_ok h2; rfl
        rw [pushByte_bitcnt, hcnt, BitVec.toNat_add]
        have : (8 : BitVec 5).toNat = 8 := rfl
        omega
    · cases h; omega

theorem refillBelow_enough {s : State} {n : Nat} (hn : n ≤ 24) {c c' : Cursor} (h : refillBelow s n c = .ok c') :
    n ≤ c'.bitcnt.toNat := by
  unfold refillBelow at h
  split at h
  · exact le_trans hn (refillLoop_enough 3 h (by omega))
  · cases h; omega

theorem consume_cursorOk {n : Nat} {c : Cursor} (hn : n ≤ c.bitcnt.toNat) (hc : CursorOk c) : CursorOk (consume n c) := by
  refine ⟨?_, hc.2⟩
  have hb : n < 32 := lt_of_le_of_lt hn c.bitcnt.isLt
  have h1 : (c.bitcnt - BitVec.ofNat 5 n).toNat = c.bitcnt.toNat - n := by
    rw [BitVec.toNat_sub_of_le]
    · simp [Nat.mod_eq_of_lt hb]
    · rw [BitVec.le_def]; simpa [Nat.mod_eq_of_lt hb] using hn
  simp only [consume_bitbuf, consume_bitcnt, h1]
  rw [← BitVec.shiftLeft_add, Nat.add_sub_cancel' hn]
  exact hc.1

theorem receiveExtend_keeps {s : State} {n : Nat} (hn : n ≤ 16) {c c' : Cursor} {v : Word}
    (h : receiveExtend s n c = .ok (v, c')) :
    (CursorOk c → CursorOk c') ∧ (c.nomore = true → c'.nomore = true) := by
  rcases receiveExtend_ok h with ⟨-, -, rfl⟩ | ⟨-, c1, h1, -, rfl⟩
  · exact ⟨id, id⟩
  · exact ⟨fun hc => consume_cursorOk (refillBelow_enough (by omega) h1) (refillBelow_cursorOk hc h1),
      fun hc => (refillBelow_nomore hc h1).1⟩

/-! ### What a built table guarantees the reader -/

/-- Every bound Huffman slot holds a table the builder built. -/
def SlotsBuilt (s : State) : Prop := ∀ i t, s.ht.get i = some t → Built t

theorem mem_sizesFrom {l : Nat} {counts : List Nat} {z : Nat} (h : z ∈ sizesFrom l counts) :
    l ≤ z ∧ z < l + counts.length := by
  induction counts generalizing l with
  | nil => simp [sizesFrom] at h
  | cons c cs ih =>
    simp only [sizesFrom, List.mem_append, List.mem_replicate] at h
    rcases h with ⟨-, rfl⟩ | h
    · simp
    · have := ih h
      simp only [List.length_cons]
      omega

theorem built_size_le {t : HuffTable} (h : Built t) (k : Nat) : t.size.getD k 0 ≤ 16 := by
  obtain ⟨counts, sym, ⟨hl, -, -⟩, hb⟩ := h
  unfold buildHuffman at hb
  cases h1 : assignCodes 1 counts ⟨0, 0, [], [], []⟩ with
  | error r => simp [h1] at hb
  | ok acc =>
    simp only [h1] at hb
    cases hb
    simp only [List.getD_eq_getElem?_getD]
    cases hk : (sizesFrom 1 counts)[k]? with
    | none => simp
    | some z =>
      have := mem_sizesFrom (List.mem_of_getElem? hk)
      simp only [Option.getD_some]
      omega

theorem lookupSymbol_keeps {t : HuffTable} (ht : Built t) {c c' : Cursor} {v : Byte} (hn : 16 ≤ c.bitcnt.toNat)
    (h : lookupSymbol t c = .ok (v, c')) : (CursorOk c → CursorOk c') ∧ c'.nomore = c.nomore := by
  rcases lookupSymbol_ok h with ⟨k, -, -, -, rfl⟩ | ⟨-, h1⟩
  · exact ⟨consume_cursorOk (le_trans (built_size_le ht k) hn), rfl⟩
  · obtain ⟨l, -, hl, -, -, -, -, -, rfl⟩ := slowPath_ok h1
    exact ⟨consume_cursorOk (le_trans hl hn), rfl⟩

theorem lookupSymbol_nomore {t : HuffTable} {c c' : Cursor} {v : Byte} (h : lookupSymbol t c = .ok (v, c')) :
    c'.nomore = c.nomore := by
  rcases lookupSymbol_ok h with ⟨k, -, -, -, rfl⟩ | ⟨-, h1⟩
  · rfl
  · obtain ⟨l, -, -, -, -, -, -, -, rfl⟩ := slowPath_ok h1
    rfl

theorem decodeSymbol_keeps {s : State} {t : HuffTable} {c c' : Cursor} {v : Byte} (h : decodeSymbol s t c = .ok (v, c')) :
    (Built t → CursorOk c → CursorOk c') ∧ (c.nomore = true → c'.nomore = true) := by
  obtain ⟨c1, h1, h2⟩ := decodeSymbol_ok h
  refine ⟨fun ht hc => (lookupSymbol_keeps ht (refillBelow_enough (by omega) h1) h2).1 (refillBelow_cursorOk hc h1), ?_⟩
  intro hc
  rw [lookupSymbol_nomore h2]
  exact (refillBelow_nomore hc h1).1

theorem acLoop_keeps {s : State} {t : HuffTable} {q : Vector Byte 64} {n : Nat} {b b' : BlockState}
    (h : acLoop s t q n b = .ok b') :
    (Built t → CursorOk b.cur → CursorOk b'.cur) ∧ (b.cur.nomore = true → b'.cur.nomore = true) := by
  have step : ∀ b b' last, acStep s t q b = .ok (b', last) →
      (Built t → CursorOk b.cur → CursorOk b'.cur) ∧ (b.cur.nomore = true → b'.cur.nomore = true) := by
    intro b b' last h1
    obtain ⟨rs, c1, h2, ⟨-, -, -, rfl⟩ | ⟨-, -, v, c2, h3, rfl⟩⟩ := acStep_ok h1
    · exact decodeSymbol_keeps h2
    · have hr := receiveExtend_keeps (by omega) h3
      have hd := decodeSymbol_keeps h2
      exact ⟨fun ht hc => hr.1 (hd.1 ht hc), fun hc => hr.2 (hd.2 hc)⟩
  refine ⟨fun ht hc => ?_, fun hc => ?_⟩
  · exact acLoop_induct (fun b => CursorOk b.cur) (fun b b' last hb _ h1 => (step b b' last h1).1 ht hb) n hc h
  · exact acLoop_induct (fun b => b.cur.nomore = true) (fun b b' last hb _ h1 => (step b b' last h1).2 hb) n hc h

theorem decodeDc_keeps {s : State} {t : HuffTable} {c c' : Cursor} {d : Word} (h : decodeDc s t c = .ok (d, c')) :
    (Built t → CursorOk c → CursorOk c') ∧ (c.nomore = true → c'.nomore = true) := by
  unfold decodeDc at h
  cases h1 : decodeSymbol s t c with
  | error r => simp [h1] at h
  | ok p =>
    obtain ⟨cat, c1⟩ := p
    simp only [h1] at h
    split at h
    · cases h
    · rename_i hcat
      have hr := receiveExtend_keeps (by omega) h
      have hd := decodeSymbol_keeps h1
      exact ⟨fun ht hc => hr.1 (hd.1 ht hc), fun hc => hr.2 (hd.2 hc)⟩

/-- DECODE_BLOCK's data path: the DC part, then the AC loop (42_entropy.md R175). -/
theorem decodeBlockData_ok {s : State} {tdc tac : HuffTable} {q : Vector Byte 64} {c : Fin 4} {pred : Word}
    {b : BlockState} (h : decodeBlockData s tdc tac q c = .ok (pred, b)) :
    ∃ d c1, decodeDc s tdc s.cur = .ok (d, c1) ∧ pred = s.dcpred.get c + d ∧
      acLoop s tac q 63 ⟨c1, (Vector.replicate 64 (0 : Word)).set 0 (dequantize q 0 pred), 1⟩ = .ok b := by
  unfold decodeBlockData at h
  cases h1 : decodeDc s tdc s.cur with
  | error r => simp [h1] at h
  | ok p =>
    obtain ⟨d, c1⟩ := p
    simp only [h1] at h
    split at h
    · cases h
    · rename_i b' h2
      cases h
      exact ⟨d, c1, rfl, rfl, h2⟩

theorem decodeBlockData_keeps {s : State} {tdc tac : HuffTable} {q : Vector Byte 64} {c : Fin 4} {pred : Word}
    {b : BlockState} (h : decodeBlockData s tdc tac q c = .ok (pred, b)) :
    (Built tdc → Built tac → CursorOk s.cur → CursorOk b.cur) ∧ (s.cur.nomore = true → b.cur.nomore = true) := by
  obtain ⟨d, c1, h1, -, h2⟩ := decodeBlockData_ok h
  have hd := decodeDc_keeps h1
  have ha := acLoop_keeps h2
  exact ⟨fun t1 t2 hc => ha.1 t2 (hd.1 t1 hc), fun hc => ha.2 (hd.2 hc)⟩

theorem dropLatch_cursorOk {c : Cursor} (hc : CursorOk c) : CursorOk (dropLatch c) :=
  ⟨hc.1, by simp, by simp, by simp⟩

theorem findMarker_keeps {s : State} {m : FindMode} {c c' : Cursor} {v : Word} (h : findMarker s m c = .ok (v, c')) :
    (CursorOk c → CursorOk c') ∧ (c.nomore = true → c'.nomore = true) := by
  have scan : ∀ n run x c c', scanMarker s m n run x c = .ok (v, c') →
      (CursorOk c → CursorOk c') ∧ (c.nomore = true → c'.nomore = true) := by
    intro n run x c c' h
    exact ⟨fun hc => scanMarker_induct CursorOk (fun _ _ _ => readStreamByte_cursorOk) n hc h,
      fun hc => scanMarker_induct (·.nomore = true) (fun _ _ _ hx h1 => by rw [readStreamByte_nomore h1]; exact hx) n hc h⟩
  unfold findMarker at h
  split at h
  · split at h
    · have := scan _ _ _ _ _ h
      exact ⟨fun hc => this.1 (dropLatch_cursorOk hc), fun hc => this.2 hc⟩
    · cases h
      exact ⟨dropLatch_cursorOk, id⟩
  · cases h1 : readStreamByte s c with
    | error r => simp [h1] at h
    | ok p =>
      obtain ⟨x, c1⟩ := p
      simp only [h1] at h
      have h2 : (CursorOk c → CursorOk c1) ∧ (c.nomore = true → c1.nomore = true) :=
        ⟨fun hc => readStreamByte_cursorOk hc h1, fun hc => by rw [readStreamByte_nomore h1]; exact hc⟩
      split at h
      · cases h; exact h2
      · have := scan _ _ _ _ _ h
        exact ⟨fun hc => this.1 (h2.1 hc), fun hc => this.2 (h2.2 hc)⟩

theorem restartRefill_keeps {s : State} {c c' : Cursor} (h : restartRefill s c = .ok c') :
    (CursorOk c → CursorOk c') ∧ (c.nomore = true → c'.nomore = true ∧ c'.bsPtr = c.bsPtr) := by
  unfold restartRefill at h
  split at h
  · cases h; exact ⟨id, fun h => ⟨h, rfl⟩⟩
  · exact ⟨fun hc => refillBelow_cursorOk hc h, fun hc => refillBelow_nomore hc h⟩

/-! ### The ways a command ends -/

/-- Every way a command ends, with the state it leaves. -/
inductive Ends (s : State) : Instr → State → Prop
  /-- A fault before any state is written (60_exceptions.md R288(a)). -/
  | early (i : Instr) (r : Raised)
      (h : r.code ∈ [FaultName.illegalCommand, .unboundTable, .unsupportedPrecision, .badDqt, .badDht] ∨
        (r.code = .addrRange ∧ checkedRows i s ≠ [])) : Ends s i (faultEntry r s)
  /-- BAD_CODE_LENGTHS (60_exceptions.md R288(b)). -/
  | codeLengths (r : Raised) (h : r.code = .badCodeLengths) (hh : highNibble (s.mem.read (argNat s 0)) ≤ 1)
      (hl : lowNibble (s.mem.read (argNat s 0)) ≤ 3) :
      Ends s .loadDht
        (slotFault r (recordSlot (highNibble (s.mem.read (argNat s 0))) (lowNibble (s.mem.read (argNat s 0)))) s)
  /-- A stream or Huffman fault (60_exceptions.md R288(c)). -/
  | stream (i : Instr) (r : Raised) (h : StreamCode r) (hs : usesStream i = true)
      (hb : ∀ dc ac q c, i ≠ .decodeBlock dc ac q c) : Ends s i (streamFault r s)
  /-- A stream fault of END_MCU at a restart point (44_scan.md R221, 60_exceptions.md R288(c)). -/
  | restartPoint (r : Raised) (h : StreamCode r) (hz : countDown s.todo = 0) : Ends s .endMcu (restartFault r s)
  /-- A stream or Huffman fault of DECODE_BLOCK (60_exceptions.md R288(c)). -/
  | block (dc ac q c : Fin 4) (r : Raised) (h : StreamCode r) : Ends s (.decodeBlock dc ac q c) (blockFault r c s)
  /-- A completion that changes RESULT alone. -/
  | result (i : Instr) (v : Word) : Ends s i (complete v s)
  /-- LOAD_DQT installs a slot. -/
  | dqt (q : Vector Byte 64) (hl : lowNibble (s.mem.read (argNat s 0)) ≤ 3) :
      Ends s .loadDqt (complete 65 { s with qt := s.qt.set (Fin.ofNat 4 (lowNibble (s.mem.read (argNat s 0)))) (some q) })
  /-- LOAD_DHT installs a table that the builder built. -/
  | dht (v : Word) (t : HuffTable) (hb : Built t) (hh : highNibble (s.mem.read (argNat s 0)) ≤ 1)
      (hl : lowNibble (s.mem.read (argNat s 0)) ≤ 3) :
      Ends s .loadDht
        (complete v
          { s with
            ht := s.ht.set (recordSlot (highNibble (s.mem.read (argNat s 0))) (lowNibble (s.mem.read (argNat s 0))))
              (some t) })
  /-- START_SCAN arms. -/
  | arm : Ends s .startScan (complete 0 { rearm s.cur s with scanEnd := false })
  /-- A command on the reader moves the cursor. -/
  | cursor (i : Instr) (v : Word) (c : Cursor) (hs : usesStream i = true) (hn : s.cur.nomore = true → c.nomore = true)
      (hc : CursorOk s.cur → SlotsBuilt s → CursorOk c) : Ends s i (complete v { s with cur := c })
  /-- DECODE_BLOCK decodes a block. -/
  | decoded (dc ac q c : Fin 4) (v : Word) (cur : Cursor) (pred : Word) (coef : Vector Word 64)
      (hn : s.cur.nomore = true → cur.nomore = true) (hc : CursorOk s.cur → SlotsBuilt s → CursorOk cur) :
      Ends s (.decodeBlock dc ac q c) (complete v { s with cur := cur, dcpred := s.dcpred.set c pred, coef := coef })
  /-- END_MCU counts down. -/
  | count (todo : BitVec 16) : Ends s .endMcu (complete 0 { s with todo := todo })
  /-- END_MCU takes a restart. -/
  | restart (c : Cursor) (hp : s.cur.nomore = true → c.bsPtr = s.cur.bsPtr) : Ends s .endMcu (complete 1 (rearm c s))
  /-- END_MCU ends the scan. -/
  | scanEnd (c : Cursor) (hn : s.cur.nomore = true → c.nomore = true) (hc : CursorOk s.cur → CursorOk c)
      (todo : BitVec 16) : Ends s .endMcu (complete 2 { s with cur := c, todo := todo, scanEnd := true })
  /-- A command stores to the addresses of its write footprint, and, if it is IDCT, leaves V any value. -/
  | stored (i : Instr) (reads : List Rows) (dest : Rows) (ws : List (Nat × Byte))
      (hf : writerFootprint i s = some (reads, dest)) (hi : i ≠ .idct)
      (hin : ∀ a ∈ dest.addresses, a < s.config.memSize) (hw : ∀ w ∈ ws, w.1 ∈ dest.addresses) :
      Ends s i (complete 0 (storeRows reads dest ws s))
  /-- IDCT stores, and leaves V any value. -/
  | storedIdct (ws : List (Nat × Byte)) (hin : ∀ a ∈ (idctRows s).addresses, a < s.config.memSize)
      (hw : ∀ w ∈ ws, w.1 ∈ (idctRows s).addresses) :
      Ends s .idct (complete 0 (freeIdctBuffer (storeRows [] (idctRows s) ws s)))

/-- A passed check covers the write footprint. -/
theorem dest_lt_of_check {s : State} {rs : List Rows} {dest : Rows} (h : checkFootprint s rs = none) (hd : dest ∈ rs) :
    ∀ a ∈ dest.addresses, a < s.config.memSize :=
  fun a ha => addresses_lt_of_check s rs h dest hd a ha

/-- Every command ends in one of the ways of `Ends`. -/
theorem exec_ends (i : Instr) (s : State) : ∃ t, exec i s = .next t ∧ Ends s i t := by
  cases i with
  | nop => exact ⟨_, rfl, .result _ _⟩
  | loadDqt =>
    obtain ⟨t, h, hc⟩ := execLoadDqt_cases s
    refine ⟨t, h, ?_⟩
    rcases hc with ⟨r, h1, rfl⟩ | ⟨-, ⟨-, rfl⟩ | ⟨-, -, rfl⟩ | ⟨-, hl, rfl⟩⟩
    · exact .early _ r (.inr ⟨checkFootprint_code h1, by simp [checkedRows]⟩)
    · exact .early _ _ (.inl (by simp))
    · exact .early _ _ (.inl (by simp))
    · exact .dqt _ hl
  | loadDht =>
    obtain ⟨t, h, hc⟩ := execLoadDht_cases s
    refine ⟨t, h, ?_⟩
    rcases hc with ⟨r, h1, rfl⟩ | ⟨r, hh, hl, h1, rfl⟩ | ⟨table, hh, hl, hn, h1, rfl⟩
    · refine .early _ r ?_
      rcases h1 with h1 | h1
      · exact .inr ⟨h1, by simp [checkedRows]⟩
      · exact .inl (by simp [h1])
    · exact .codeLengths r (buildHuffman_code h1) hh hl
    · exact .dht _ table ⟨_, _, ⟨by simp [recordCounts, readBytes], by simp [readBytes], hn⟩, h1⟩ hh hl
  | startScan => exact ⟨_, rfl, .arm⟩
  | huffDecode x =>
    obtain ⟨t, h, hc⟩ := execHuffDecode_cases x s
    refine ⟨t, h, ?_⟩
    rcases hc with ⟨-, rfl⟩ | ⟨table, v, c, h1, h2, rfl⟩ | ⟨table, r, -, h2, rfl⟩
    · exact .early _ _ (.inl (by simp))
    · exact .cursor _ _ c rfl (decodeSymbol_keeps h2).2 (fun hc hb => (decodeSymbol_keeps h2).1 (hb _ _ h1) hc)
    · exact .stream _ r (decodeSymbol_code h2) rfl (by simp)
  | receive n =>
    obtain ⟨t, h, hc⟩ := execReceive_cases n s
    refine ⟨t, h, ?_⟩
    rcases hc with ⟨-, rfl⟩ | ⟨hn, v, c, h1, rfl⟩ | ⟨-, r, h1, rfl⟩
    · exact .early _ _ (.inl (by simp))
    · exact .cursor _ _ c rfl (receiveExtend_keeps hn h1).2 (fun hc _ => (receiveExtend_keeps hn h1).1 hc)
    · exact .stream _ r (receiveExtend_code h1) rfl (by simp)
  | decodeBlock dc ac q c =>
    obtain ⟨t, h, hc⟩ := execDecodeBlock_cases dc ac q c s
    refine ⟨t, h, ?_⟩
    rcases hc with ⟨_, rfl⟩ | ⟨tdc, tac, quant, h1, h2, -, ⟨r, h4, rfl⟩ | ⟨pred, b, h4, rfl⟩⟩
    · exact .early _ _ (.inl (by simp))
    · exact .block _ _ _ _ r (decodeBlockData_code h4)
    · exact .decoded _ _ _ _ _ b.cur pred b.coef (decodeBlockData_keeps h4).2
        (fun hc hb => (decodeBlockData_keeps h4).1 (hb _ _ h1) (hb _ _ h2) hc)
  | idct =>
    obtain ⟨t, h, hc⟩ := execIdct_cases s
    refine ⟨t, h, ?_⟩
    rcases hc with ⟨r, h1, rfl⟩ | ⟨h1, rfl⟩
    · exact .early _ r (.inr ⟨checkFootprint_code h1, by simp [checkedRows]⟩)
    · exact .storedIdct _ (dest_lt_of_check h1 (by simp)) (idctWrites_addresses _ _ rfl rfl)
  | endMcu =>
    obtain ⟨t, h, hc⟩ := execEndMcu_cases s
    refine ⟨t, h, ?_⟩
    rcases hc with ⟨-, rfl⟩ | ⟨-, -, rfl⟩ | ⟨-, hz, ⟨r, h1, rfl⟩ | ⟨c, h1, -, rfl⟩ | ⟨c, h1, -, rfl⟩⟩
    · exact .result _ _
    · exact .count _
    · refine .restartPoint r ?_ hz
      unfold restartRefill at h1
      split at h1
      · cases h1
      · exact refillBelow_code h1
    · exact .restart c (fun hn => ((restartRefill_keeps h1).2 hn).2)
    · exact .scanEnd c (fun hn => ((restartRefill_keeps h1).2 hn).1) (restartRefill_keeps h1).1 _
  | findMarker m =>
    obtain ⟨t, h, hc⟩ := execFindMarker_cases m s
    refine ⟨t, h, ?_⟩
    rcases hc with ⟨v, c, h1, rfl⟩ | ⟨r, h1, rfl⟩
    · exact .cursor _ _ c rfl (findMarker_keeps h1).2 (fun hc _ => (findMarker_keeps h1).1 hc)
    · exact .stream _ r (findMarker_code h1) rfl (by simp)
  | upsample m =>
    obtain ⟨t, h, hc⟩ := execUpsample_cases m s
    refine ⟨t, h, ?_⟩
    rcases hc with ⟨-, rfl⟩ | ⟨-, -, ⟨r, h1, rfl⟩ | ⟨h1, rfl⟩⟩
    · exact .result _ _
    · exact .early _ r (.inr ⟨checkFootprint_code h1, by simp [checkedRows]⟩)
    · exact .stored _ _ _ _ rfl (by simp) (dest_lt_of_check h1 (by simp)) (upsampleWrites_addresses _ _ _ _)
  | colorConvert m =>
    obtain ⟨t, h, hc⟩ := execColorConvert_cases m s
    refine ⟨t, h, ?_⟩
    rcases hc with ⟨-, rfl⟩ | ⟨-, -, ⟨r, h1, rfl⟩ | ⟨h1, rfl⟩⟩
    · exact .result _ _
    · exact .early _ r (.inr ⟨checkFootprint_code h1, by simp [checkedRows]⟩)
    · exact .stored _ _ _ _ rfl (by simp) (dest_lt_of_check h1 (by simp)) (colorWrites_addresses _ _)

/-- `Ends` as what an equation says. -/
theorem Ends.of_exec {i : Instr} {s t : State} (h : exec i s = .next t) : Ends s i t := by
  obtain ⟨t', h', he⟩ := exec_ends i s
  rw [h'] at h
  cases h
  exact he

end Sys2Proof.Machine
end

