-- ==== Sys2Proof/Laws/PerInstr.lean ====
section
/-! SUPPORT. Per-instruction families: every command's word is its own row of the opcode table (30_encoding.md R94). -/
namespace Sys2Proof.Laws.EncodeInTable

/-- The word of a well-formed command meets the mask and match of the table row of its mnemonic (30_encoding.md R94,
R100). -/
def Statement (i : Instr) : Prop :=
  i.wellFormed = true → ∃ row ∈ opcodeTable, row.mnemonic = i.mnemonic ∧ encode i &&& row.mask = row.pattern

theorem nop : Statement .nop :=
  fun _ => ⟨⟨"NOP", 0xFFFFFFFF, 0x00⟩, by simp [opcodeTable], rfl, by decide⟩

theorem loadDqt : Statement .loadDqt :=
  fun _ => ⟨⟨"LOAD_DQT", 0xFFFFFFFF, 0x01⟩, by simp [opcodeTable], rfl, by decide⟩

theorem loadDht : Statement .loadDht :=
  fun _ => ⟨⟨"LOAD_DHT", 0xFFFFFFFF, 0x02⟩, by simp [opcodeTable], rfl, by decide⟩

theorem startScan : Statement .startScan :=
  fun _ => ⟨⟨"START_SCAN", 0xFFFFFFFF, 0x03⟩, by simp [opcodeTable], rfl, by decide⟩

theorem huffDecode (t : Fin 8) : Statement (.huffDecode t) :=
  fun _ => ⟨⟨"HUFF_DECODE", 0xFFFFF8FF, 0x04⟩, by simp [opcodeTable], rfl, by revert t; decide⟩

theorem receive (n : BitVec 5) : Statement (.receive n) :=
  fun _ => ⟨⟨"RECEIVE", 0xFFFFE0FF, 0x05⟩, by simp [opcodeTable], rfl, by revert n; decide⟩

theorem decodeBlock (dc ac q c : Fin 4) : Statement (.decodeBlock dc ac q c) :=
  fun _ => ⟨⟨"DECODE_BLOCK", 0xFFFF00FF, 0x06⟩, by simp [opcodeTable], rfl, by revert dc ac q c; decide⟩

theorem idct : Statement .idct :=
  fun _ => ⟨⟨"IDCT", 0xFFFFFFFF, 0x07⟩, by simp [opcodeTable], rfl, by decide⟩

theorem endMcu : Statement .endMcu :=
  fun _ => ⟨⟨"END_MCU", 0xFFFFFFFF, 0x08⟩, by simp [opcodeTable], rfl, by decide⟩

theorem findMarker (m : FindMode) : Statement (.findMarker m) :=
  fun _ => ⟨⟨"FIND_MARKER", 0xFFFFFEFF, 0x09⟩, by simp [opcodeTable], rfl, by cases m <;> decide⟩

theorem upsample (m : UpsampleMode) : Statement (.upsample m) :=
  fun _ => ⟨⟨"UPSAMPLE", 0xFFFFFCFF, 0x0A⟩, by simp [opcodeTable], rfl, by cases m <;> decide⟩

theorem colorConvert (m : ColorMode) : Statement (.colorConvert m) :=
  fun _ => ⟨⟨"COLOR_CONVERT", 0xFFFFFEFF, 0x0B⟩, by simp [opcodeTable], rfl, by cases m <;> decide⟩

end Sys2Proof.Laws.EncodeInTable
end

