-- ==== Sys2Proof/Tests/Slice0.lean ====
section
/-! SUPPORT. Tests: the expected results are those of 95_test_vectors.md (the vector is named in each comment), and for every
obligation with hypotheses a witness that meets them. -/
namespace Sys2Proof.Tests

set_option Elab.async false

open Sys2Proof.Machine Sys2Proof.Safety

/-! ### Helpers -/

/-- `s` with bytes placed from an address on. -/
def place (a : Nat) (bs : List Nat) (s : State) : State :=
  { s with mem := s.mem.writeAll (bs.zipIdx.map (fun p => (a + p.2, BitVec.ofNat 8 p.1))) }

/-- A fresh cursor at the first of the bytes shown, BS_END one past the last ("fresh cursor" of 95_test_vectors.md). -/
def stream (bs : List Nat) : State := place 0 bs { State.reset with bsEnd := BitVec.ofNat 32 bs.length }

/-- `s` with ARG0, ARG1, … set. -/
def withArgs (vs : List Word) (s : State) : State := { s with args := Vector.ofFn (fun i : Fin 8 => vs.getD i.val 0) }

/-- Idle after reset, with one host access to come. -/
def hosted (op : HostOp) : State := { State.reset with host := [op] }

/-- Idle after reset, with a command word offered. -/
def offered (w : Word) : State := hosted (.regWrite .word 0x00C w)

/-- A command accepted after reset, with the host's next accesses. -/
def running (i : Instr) (ops : List HostOp) : State := { accept (encode i) State.reset with host := ops }

/-- A command ends in a next state of which `p` holds. -/
def after (i : Instr) (s : State) (p : State → Bool) : Bool :=
  match exec i s with
  | .next t => p t
  | .fault _ => false
  | .refused _ => false

/-- A step ends in a next state of which `p` holds. -/
def stepped (s : State) (p : State → Bool) : Bool :=
  match step s with
  | .next t => p t
  | .fault _ => false
  | .refused _ => false

theorem after_next {i : Instr} {s : State} {p : State → Bool} (h : after i s p = true) :
    ∃ t, exec i s = .next t ∧ p t = true := by
  unfold after at h
  split at h
  · exact ⟨_, ‹_›, h⟩
  · exact absurd h Bool.false_ne_true
  · exact absurd h Bool.false_ne_true

theorem stepped_next {s : State} {p : State → Bool} (h : stepped s p = true) :
    ∃ t, step s = .next t ∧ p t = true := by
  unfold stepped at h
  split at h
  · exact ⟨_, ‹_›, h⟩
  · exact absurd h Bool.false_ne_true
  · exact absurd h Bool.false_ne_true

/-- A fault of a name and a FAULT_INFO stands in the registers, FAULT = 1 and BUSY = 0. -/
def faulted (name : FaultName) (info : Word) (t : State) : Bool :=
  t.fault && !t.busy && t.faultCode == name.word && t.faultInfo == info

/-- The MEM bytes from an address on are these. -/
def holds (t : State) (a : Nat) (bs : List Nat) : Bool := (readBytes t.mem a bs.length).map BitVec.toNat == bs

/-- The table the builder makes of a record. -/
def tableOf (counts : List Nat) (sym : List Byte) : HuffTable :=
  match buildHuffman counts sym with
  | .ok t => t
  | .error _ => ⟨0, [], [], [], [], []⟩

/-- The builder accepts a record. -/
def builds (counts : List Nat) (sym : List Byte) : Bool :=
  match buildHuffman counts sym with
  | .ok _ => true
  | .error _ => false

theorem built_tableOf {counts : List Nat} {sym : List Byte} (hl : LegalRecord counts sym)
    (hb : builds counts sym = true) : Built (tableOf counts sym) := by
  refine ⟨counts, sym, hl, ?_⟩
  unfold builds at hb
  unfold tableOf
  split at hb
  · rename_i t h
    simp [h]
  · exact absurd hb Bool.false_ne_true

/-! ### Well-formedness and decoding (95_test_vectors.md section 2.11) -/

/-- RECEIVE N = 17 is the ill-formed term (V-E6). -/
theorem test_wellFormed : (Instr.receive 16).wellFormed = true ∧ (Instr.receive 17).wellFormed = false := by decide

theorem test_decode_nop : decode 0b00000000000000000000000000000000 = .ok .nop := by decide
theorem test_decode_loadDqt : decode 0b00000000000000000000000000000001 = .ok .loadDqt := by decide
theorem test_decode_loadDht : decode 0b00000000000000000000000000000010 = .ok .loadDht := by decide
theorem test_decode_startScan : decode 0b00000000000000000000000000000011 = .ok .startScan := by decide
theorem test_decode_huffDecode : decode 0b00000000000000000000010100000100 = .ok (.huffDecode 5) := by decide
theorem test_decode_receive : decode 0b00000000000000000001000000000101 = .ok (.receive 16) := by decide
theorem test_decode_decodeBlock : decode 0b00000000000000000011100100000110 = .ok (.decodeBlock 1 2 3 0) := by decide
theorem test_decode_decodeBlock_c : decode 0b00000000000000001100000000000110 = .ok (.decodeBlock 0 0 0 3) := by decide
theorem test_decode_idct : decode 0b00000000000000000000000000000111 = .ok .idct := by decide
theorem test_decode_endMcu : decode 0b00000000000000000000000000001000 = .ok .endMcu := by decide
theorem test_decode_findMarker : decode 0b00000000000000000000000100001001 = .ok (.findMarker .skip) := by decide
theorem test_decode_upsample : decode 0b00000000000000000000001100001010 = .ok (.upsample .hv) := by decide
theorem test_decode_colorConvert : decode 0b00000000000000000000000100001011 = .ok (.colorConvert .gray) := by decide

/-- V-E1 to V-E10, with 0x00010006 (V-B15) and 0x00002005 (V-R18). -/
theorem test_decode_illegal :
    decode 0x0000000C = .error .reservedOpcode ∧ decode 0x000000FF = .error .reservedOpcode ∧
    decode 0x0000010C = .error .reservedOpcode ∧ decode 0x00000100 = .error .reservedBit ∧
    decode 0x00000804 = .error .reservedBit ∧ decode 0x00001105 = .error .fieldRange ∧
    decode 0x00001F05 = .error .fieldRange ∧ decode 0x20001105 = .error .reservedBit ∧
    decode 0x0000040A = .error .reservedBit ∧ decode 0x0000020B = .error .reservedBit ∧
    decode 0x00010006 = .error .reservedBit ∧ decode 0x00002005 = .error .reservedBit := by decide

/-! ### One step of each command -/

/-- V-G2. -/
theorem test_nop : after .nop (running .nop []) (fun t =>
    readRegister 0x008 t == 0x02 && t.result == 0 && !irq t) = true := by decide

/-- A DQT record: Pq and Tq, then 1..64. -/
def dqtRecord (b : Nat) : List Nat := b :: List.range' 1 64

/-- V-Q2. -/
theorem test_loadDqt : after .loadDqt (place 0 (dqtRecord 0x03) State.reset) (fun t =>
    t.result == 65 && readRegister 0x05C t == 0x800 &&
      (t.qt.get 3).map (fun q => (q.get 0, q.get 63)) == some (1, 64)) = true := by decide +kernel

/-- V-Q5: precision is checked before the id. -/
theorem test_loadDqt_precision : after .loadDqt (place 0 [0x14] State.reset)
    (faulted .unsupportedPrecision 1) = true := by decide +kernel

/-- The counts of V-T1. -/
def countsT1 : List Nat := [0, 2, 1, 0, 0, 0, 0, 0, 0, 0, 1, 0, 0, 0, 0, 0]

/-- V-T1. -/
def tableT1 : HuffTable := tableOf countsT1 [0, 1, 2, 3]

/-- V-T1 and V-D1. -/
theorem test_loadDht : after .loadDht (place 0 (0x00 :: countsT1 ++ [0, 1, 2, 3]) State.reset) (fun t =>
    t.result == 21 && readRegister 0x05C t == 1 &&
      (t.ht.get 0).map (fun h => (maxcodeAt h 3, maxcodeAt h 11, deltaAt h 11, deltaAt h 16, h.fast.getD 319 0,
        h.fast.getD 320 0)) == some (0xA000, 0xA020, -1277, -40988, 2, 0xFF)) = true := by decide +kernel

/-- V-L3. -/
theorem test_loadDht_lengths : after .loadDht (place 0 [0x00, 1, 2, 1] State.reset)
    (faulted .badCodeLengths 3) = true := by decide +kernel

/-- V-S1. -/
theorem test_startScan : after .startScan
    { State.reset with
      ri := 1, dcpred := Vector.replicate 4 10, cur := ⟨0xC0000000, 18, true, true, 0xD9, 7⟩, scanEnd := true }
    (fun t => t.result == 0 && readRegister 0x050 t == 0x0FF && t.dcpred == Vector.replicate 4 0 && t.todo == 1 &&
      t.cur == ⟨0, 0, false, false, 0xFF, 7⟩ && readRegister 0x008 t == 0x02) = true := by decide +kernel

/-- A stream with V-T1's table in slot 0. -/
def streamT1 (bs : List Nat) : State := { stream bs with ht := (Vector.replicate 8 none).set 0 (some tableT1) }

/-- V-H4, the slow path. -/
theorem test_huffDecode : after (.huffDecode 0) (streamT1 [0xA0, 0x1F, 0xFF, 0xD9]) (fun t =>
    t.result == 3 && t.cur.bitcnt == 13 && t.cur.bsPtr == 4) = true := by decide +kernel

/-- V-T2a, the sentinel collision, from the maxcode and delta entries V-T2 lists: the scan finds L = 9, not 10. -/
theorem test_huffDecode_collision :
    slowPath
      { n := 256
        size := []
        values := (List.range 256).map (BitVec.ofNat 8)
        maxcode := List.replicate 7 0 ++ [0xFF00] ++ List.replicate 8 0xFF80 ++ [0xFFFFFFFF]
        delta := List.replicate 8 0 ++ [-255, -766]
        fast := [] }
      ⟨0xFF000000, 24, false, false, 0xFF, 4⟩ = .ok (0xFF, ⟨0, 15, false, false, 0xFF, 4⟩) := by decide +kernel

/-- V-R16. -/
theorem test_receive : after (.receive 16) (stream [0x12, 0xFF, 0x00, 0x34, 0xFF, 0xD0]) (fun t =>
    t.result == 0xFFFF1300 && t.cur == ⟨0x34000000, 8, false, false, 0xFF, 4⟩) = true := by decide +kernel

/-- V-R15, zero padding. -/
theorem test_receive_padding : after (.receive 4)
    { stream [0xFF, 0xD9] with cur := ⟨0, 0, true, true, 0xD9, 2⟩ }
    (fun t => t.result == 0xFFFFFFF1 && t.cur.bitcnt == 20 && t.cur.bsPtr == 2) = true := by decide +kernel

/-- V-B1's DC table 0. -/
def tableDcB1 : HuffTable := tableOf (0 :: 3 :: 1 :: List.replicate 13 0) [0, 3, 0x10, 0x11]

/-- V-B1's AC table 0. -/
def tableAcB1 : HuffTable := tableOf (0 :: 2 :: 2 :: 1 :: List.replicate 12 0) [0x01, 0x00, 0x12, 0xF0, 0x25]

/-- V-B1's tables over a state. -/
def tablesB1 (s : State) : State :=
  { s with
    ht := ((Vector.replicate 8 none).set 0 (some tableDcB1)).set 4 (some tableAcB1)
    qt := (Vector.replicate 4 none).set 0 (some (Vector.ofFn (fun k : Fin 64 => BitVec.ofNat 8 (k.val + 1)))) }

/-- V-B1, block 1. -/
theorem test_decodeBlock :
    after (.decodeBlock 0 0 0 0) (tablesB1 (stream [0x69, 0x85, 0xC1, 0xB4, 0x00, 0x03, 0xBF, 0xFF, 0xD9])) (fun t =>
      t.result == 23 && t.dcpred.get 0 == 5 && t.cur == ⟨0xA0001DF8, 29, false, false, 0xFF, 7⟩ &&
        t.coef == (((((Vector.replicate 64 0).set 0 5).set 1 2).set 16 (-12)).set 41 (-644))) = true := by decide +kernel

/-- V-B3: the fourth ZRL passes position 63. -/
theorem test_decodeBlock_position : after (.decodeBlock 0 0 0 0) (tablesB1 (stream [0x2D, 0xB7, 0xFF, 0xD9]))
    (faulted .badHuffmanCode 3) = true := by decide +kernel

/-- V-I15, rows 0 and 1. -/
theorem test_idct : after .idct
    (withArgs [0x200, 8]
      { State.reset with coef := ((((Vector.replicate 64 0).set 0 5).set 1 2).set 16 (-12)).set 41 (-644) })
    (fun t => t.result == 0 && holds t 0x200
      [39, 53, 77, 109, 144, 176, 201, 214, 255, 255, 216, 159, 97, 40, 0, 0]) = true := by decide +kernel

/-- V-I18. -/
theorem test_idct_range : after .idct (withArgs [0xFC1, 8] State.reset) (fun t =>
    faulted .addrRange 0x1000 t && t.mem == State.reset.mem) = true := by decide +kernel

/-- V-S6: the refill fetches a data byte and then latches the restart marker. -/
theorem test_endMcu : after .endMcu
    { stream [0x12, 0xFF, 0xD0] with ri := 1, todo := 1, cur := ⟨0, 5, false, false, 0xFF, 0⟩ }
    (fun t => t.result == 1 && t.cur == ⟨0, 0, false, false, 0xFF, 3⟩ && t.todo == 1) = true := by decide +kernel

/-- V-S8, the soft scan end. -/
theorem test_endMcu_soft : after .endMcu
    { State.reset with ri := 1, todo := 1, cur := ⟨0, 0, true, true, 0xD9, 2⟩ }
    (fun t => t.result == 2 && t.todo == 0 && readRegister 0x050 t == 0x1D9 && readRegister 0x008 t == 0x72) = true := by
  decide +kernel

/-- V-F7. -/
theorem test_findMarker : after (.findMarker .skip) (stream [0xAB, 0xFF, 0x00, 0xFF, 0xFF, 0xC4]) (fun t =>
    t.result == 0x1C4 && t.cur.bsPtr == 6) = true := by decide +kernel

/-- A stream after a latched 0xFF. -/
def latched (bs : List Nat) : State := { stream bs with cur := ⟨0, 0, true, true, 0xFF, 0⟩ }

/-- V-F9 and V-F8: a latched 0xFF, then 0x00. -/
theorem test_findMarker_latched :
    after (.findMarker .strict) (latched [0x00, 0xFF, 0xC4])
      (fun t => t.result == 0x0FF && t.cur == ⟨0, 0, true, false, 0xFF, 1⟩) = true ∧
    after (.findMarker .skip) (latched [0x00, 0xFF, 0xC4])
      (fun t => t.result == 0x1C4 && t.cur == ⟨0, 0, true, false, 0xFF, 3⟩) = true := by decide +kernel

/-- V-U9. -/
theorem test_upsample : after (.upsample .hv)
    (withArgs [0, 0x100, 0x00040002, 0x00020002] (place 0 [0, 255, 255, 0] State.reset))
    (fun t => t.result == 0 && holds t 0x100
      [0, 64, 191, 255, 64, 96, 159, 191, 191, 159, 96, 64, 255, 191, 64, 0]) = true := by decide +kernel

/-- V-U13. -/
theorem test_upsample_range : after (.upsample .copy) (withArgs [0xFF0, 0, 0, 0x00010011] State.reset)
    (faulted .addrRange 0x1000) = true := by decide +kernel

/-- V-K5. -/
theorem test_colorConvert : after (.colorConvert .ycc)
    (withArgs [0, 1, 2, 0x10, 0x00010001] (place 0 [149, 43, 21] State.reset))
    (fun t => t.result == 0 && holds t 0x10 [0x00, 0xFF, 0x00, 0xFF]) = true := by decide +kernel

/-- V-K12: gray mode neither reads nor checks the chroma planes. -/
theorem test_colorConvert_gray : after (.colorConvert .gray)
    (withArgs [0, 0xFFFFFFF0, 0xFFFFFFF0, 0x10, 0x00010001] (place 0 [0x81] State.reset))
    (fun t => !t.fault && holds t 0x10 [0x81, 0x81, 0x81, 0xFF]) = true := by decide +kernel

/-! ### The host's side -/

/-- V-G5: OVERRUN. -/
theorem test_overrun : stepped (running .nop [.regWrite .word 0x00C 0x07]) (fun t =>
    readRegister 0x008 t == 0x09 && t.cmdLast == 0) = true := by decide

/-- V-G3: the interrupt is a level. -/
theorem test_irq_level : stepped { hosted (.regWrite .word 0x004 2) with done := true } irq = true := by decide

/-- V-E3: the lowest info wins, and FAULT_CMD is the word. -/
theorem test_illegal_word : stepped (offered 0x0000010C) (fun t =>
    faulted .illegalCommand 1 t && t.faultCmd == 0x0000010C && t.cmdLast == 0x0000010C) = true := by decide

/-- A word placed where the core's next command stands is the command the very next step runs. -/
theorem test_withFetchWord : decodeTableWord 32 0x109 = some (.findMarker .skip) ∧
    step (State.reset.withFetchWord 32 0x109) = exec (.findMarker .skip) (accept 0x109 State.reset) := by
  exact ⟨by decide, rfl⟩

/-! ### Witnesses: for every obligation with hypotheses, states and operands that meet them, one for each clause -/

/-- The hypotheses of a host access to an idle core without a fault. -/
abbrev IdleWith (s : State) (op : HostOp) : Prop :=
  s.rstN = true ∧ s.busy = false ∧ s.fault = false ∧ s.host = [op]

/-- The hypotheses of a host access to a busy core. -/
abbrev BusyWith (s : State) (op : HostOp) : Prop := s.rstN = true ∧ s.busy = true ∧ s.host = [op]

/-- After a fault, with one host access to come. -/
def faultedWith (op : HostOp) : State := { hosted op with fault := true, irqEn := true }

theorem witness_DecodeOfEncode : ∃ i : Instr, i.wellFormed = true := ⟨.receive 16, by decide⟩

theorem witness_EncodeOfDecode : ∃ (w : Word) (i : Instr), decode w = .ok i := ⟨0x1005, .receive 16, by decide⟩

theorem witness_OpcodeTableDecodes : ∃ w : Word, ∃ row ∈ opcodeTable,
    w.extractLsb' 0 8 = row.pattern.extractLsb' 0 8 ∧ w &&& row.mask ≠ row.pattern :=
  ⟨0x00000100, ⟨"NOP", 0xFFFFFFFF, 0x00⟩, by simp [opcodeTable], by decide⟩

theorem witness_IllegalWordsFault :
    (IdleWith (offered 0x0C) (.regWrite .word 0x00C 0x0C) ∧ 0x0C ≤ ((0x0C : Word).extractLsb' 0 8).toNat) ∧
    (IdleWith (offered 0x100) (.regWrite .word 0x00C 0x100) ∧
      ∃ row ∈ opcodeTable, (0x100 : Word).extractLsb' 0 8 = row.pattern.extractLsb' 0 8 ∧
        (0x100 : Word) &&& row.mask ≠ row.pattern) ∧
    (IdleWith (offered 0x1105) (.regWrite .word 0x00C 0x1105) ∧ (0x1105 : Word) &&& 0xFFFFE0FF = 0x05 ∧
      16 < ((0x1105 : Word).extractLsb' 8 5).toNat) ∧
    (IdleWith (offered 0x1005) (.regWrite .word 0x00C 0x1005) ∧
      (∃ row ∈ opcodeTable, (0x1005 : Word) &&& row.mask = row.pattern) ∧
      ¬((0x1005 : Word) &&& 0xFFFFE0FF = 0x05 ∧ 16 < ((0x1005 : Word).extractLsb' 8 5).toNat)) :=
  ⟨by decide, ⟨by decide, ⟨"NOP", 0xFFFFFFFF, 0x00⟩, by simp [opcodeTable], by decide⟩, by decide,
    by decide, ⟨⟨"RECEIVE", 0xFFFFE0FF, 0x05⟩, by simp [opcodeTable], by decide⟩, by decide⟩

theorem witness_StepRunsAcceptedCommand :
    (IdleWith (offered 0x109) (.regWrite .word 0x00C 0x109) ∧ decode 0x109 = .ok (.findMarker .skip)) ∧
    ((running .idct []).busy = true ∧ decode (running .idct []).cmdLast = .ok .idct ∧ (running .idct []).host = []) ∧
    ((running .idct [.wait]).busy = true ∧ decode (running .idct [.wait]).cmdLast = .ok .idct ∧
      (running .idct [.wait]).host = [.wait]) ∧
    (State.reset.busy = false ∧ State.reset.host = []) ∧ IdleWith (hosted .wait) .wait := by decide

theorem witness_OverrunDropsWord :
    BusyWith (running .nop [.regWrite .word 0x00C 7]) (.regWrite .word 0x00C 7) ∧
    (IdleWith (hosted (.regWrite .word 0x008 0x0A)) (.regWrite .word 0x008 0x0A) ∧
      (0x0A : Word).getLsbD 3 = true) := by decide

theorem witness_FaultIsSticky :
    (∃ s t : State, step s = .next t ∧ s.fault = true ∧ t.fault = false) ∧
    (∃ s : State, s.rstN = true ∧ s.busy = false ∧ s.fault = true ∧ s.host = [.regWrite .word 0x00C 0]) := by
  refine ⟨?_, faultedWith (.regWrite .word 0x00C 0), by decide⟩
  obtain ⟨t, ht, hp⟩ := stepped_next (s := faultedWith (.regWrite .word 0x004 1)) (p := fun t => !t.fault) (by decide)
  exact ⟨_, t, ht, rfl, by simpa using hp⟩

theorem witness_InterruptLine :
    (IdleWith (hosted (.regWrite .word 0x008 2)) (.regWrite .word 0x008 2) ∧ (2 : Word).getLsbD 1 = true) ∧
    (IdleWith (offered 0) (.regWrite .word 0x00C 0) ∧ decode 0 = .ok .nop) ∧
    ((hosted (.rstN false)).host = [.rstN false] ∧ (hosted (.regWrite .word 0x004 1)).rstN = true ∧
      (1 : Word).getLsbD 0 = true) ∧
    (∃ s t : State, step s = .next t ∧ s.fault = true ∧ irq s = true ∧ irq t = false) ∧
    ((faultedWith (.regWrite .word 0x004 2)).rstN = true ∧ (2 : Word).getLsbD 0 = false ∧
      (2 : Word).getLsbD 1 = true ∧ (faultedWith (.regWrite .word 0x004 2)).fault = true) ∧
    (BusyWith (running .nop [.regWrite .word 0x004 0]) (.regWrite .word 0x004 0) ∧ (0 : Word).getLsbD 0 = false ∧
      (0 : Word).getLsbD 1 = false) := by
  refine ⟨by decide, by decide, by decide, ?_, by decide, by decide⟩
  obtain ⟨t, ht, hp⟩ := stepped_next (s := faultedWith (.regWrite .word 0x004 0)) (p := fun t => !irq t) (by decide)
  exact ⟨_, t, ht, by decide, by decide, by simpa using hp⟩

theorem witness_StatusRegister :
    IdleWith (hosted (.regWrite .word 0x008 0x0A)) (.regWrite .word 0x008 0x0A) := by decide

theorem witness_TableValidRegister : ∃ j : Nat, 12 ≤ j := ⟨12, by decide⟩

/-- The first and the last register of the window that a host may write. -/
theorem witness_RegisterReadAfterWrite :
    (IdleWith (hosted (.regWrite .word 0x020 5)) (.regWrite .word 0x020 5) ∧ (0x020 : BitVec 9).toNat % 4 = 0 ∧
      (0x020 : BitVec 9) ≠ 0x004 ∧ (0x020 : BitVec 9) ≠ 0x008 ∧ (0x020 : BitVec 9) ≠ 0x00C) ∧
    (IdleWith (hosted (.regWrite .word 0x1FC 5)) (.regWrite .word 0x1FC 5) ∧ (0x1FC : BitVec 9).toNat % 4 = 0 ∧
      (0x1FC : BitVec 9) ≠ 0x004 ∧ (0x1FC : BitVec 9) ≠ 0x008 ∧ (0x1FC : BitVec 9) ≠ 0x00C) := by decide

theorem witness_RegisterPortWhileBusy :
    BusyWith (running .nop [.regWrite .word 0x00C 7]) (.regWrite .word 0x00C 7) ∧
    (BusyWith (running .nop [.regWrite .word 0x020 7]) (.regWrite .word 0x020 7) ∧ (0x020 : BitVec 9) ≠ 0x004 ∧
      (0x020 : BitVec 9) ≠ 0x00C) ∧
    (BusyWith (running .nop [.regRead .word 0x008]) (.regRead .word 0x008) ∧ (0x008 : BitVec 9).toNat % 4 = 0) ∧
    (BusyWith (running .nop [.regRead .word 0x010]) (.regRead .word 0x010) ∧ (0x010 : BitVec 9).toNat % 4 = 0) ∧
    (∀ off ∈ [(0x06C : BitVec 9), 0x070, 0x0FC, 0x100],
      BusyWith (running .nop [.regRead .word off]) (.regRead .word off) ∧ off.toNat % 4 = 0) ∧
    (IdleWith (hosted (.regWrite .half 0x020 7)) (.regWrite .half 0x020 7) ∧ AccessSize.half ≠ .word) ∧
    (IdleWith (hosted (.regWrite .word 0x021 7)) (.regWrite .word 0x021 7) ∧ (0x021 : BitVec 9).toNat % 4 ≠ 0) ∧
    IdleWith (hosted (.regRead .word 0x1FC)) (.regRead .word 0x1FC) := by decide

theorem witness_ResetValues : ∃ s : State, s.busy = false := ⟨State.reset, rfl⟩

theorem witness_SoftReset : ∃ s : State,
    BusyWith s (.regWrite .word 0x004 1) ∧ (1 : Word).getLsbD 0 = true ∧ decode s.cmdLast = .ok .idct ∧
      ∀ reads dest, writerFootprint .idct s = some (reads, dest) → 0x240 ∉ dest.addresses := by
  refine ⟨withArgs [0x200, 8] (running .idct [.regWrite .word 0x004 1]), by decide, by decide, by decide, ?_⟩
  intro reads dest h
  cases h
  decide

theorem witness_HardReset :
    (running .idct [.rstN false]).host = [.rstN false] ∧
    (∃ s : State, s.rstN = false ∧ s.host = [.regWrite .word 0x00C 0]) ∧
    (∃ s t : State, AtReset s ∧ s.rstN = false ∧ s.host = [.regWrite .word 0x020 5] ∧ step s = .next t) ∧
    (hosted (.rstN true)).host = [.rstN true] :=
  ⟨rfl, ⟨{ offered 0 with rstN := false }, rfl, rfl⟩,
    ⟨{ hosted (.regWrite .word 0x020 5) with rstN := false }, _, by unfold AtReset; decide, rfl, rfl, rfl⟩, rfl⟩

/-- NOP issued to an idle core; and IDCT issued while NOP runs. -/
theorem witness_EveryCommandEnds :
    (State.reset.rstN = true ∧ State.reset.busy = false ∧ State.reset.fault = false ∧ decode 0 = .ok .nop ∧
      (∃ u, exec .nop (accept 0
        { State.reset with
          args := [((7 : Fin 8), (5 : Word))].foldl (fun regs a => regs.set a.1 a.2) State.reset.args
          hostRegData := readRegister 0x008 State.reset }) = .next u) ∧
      ∃ p, runCommand 0 [(7, 5)] State.reset = .next p ∧ p.1.args.get 7 = 5 ∧ p.2 = [0]) ∧
    ((running .nop []).rstN = true ∧ (running .nop []).busy = true ∧
      ∃ p, runCommand 7 [(0, 0xFC1), (1, 8)] (running .nop []) = .next p ∧ p.2 = [0x502, 0x1000, 7] ∧
        p.1.overrun = false) :=
  ⟨⟨rfl, rfl, rfl, by decide, ⟨_, rfl⟩, _, rfl, by decide, by decide⟩,
    rfl, rfl, _, rfl, by decide +kernel, by decide +kernel⟩

theorem witness_CommandsKeepHostState : ∃ (i : Instr) (s t : State), exec i s = .next t :=
  ⟨.nop, State.reset, _, rfl⟩

/-- One command that raises FAULT for each kind of fault: before any write, a footprint, BAD_CODE_LENGTHS, and a stream
fault of DECODE_BLOCK, of RECEIVE and of END_MCU. -/
theorem witness_FaultLeavesRest :
    (∃ t, exec (.huffDecode 0) State.reset = .next t ∧ t.fault = true) ∧
    (∃ t, exec .idct (withArgs [0xFC1, 8] State.reset) = .next t ∧ t.fault = true) ∧
    (∃ t, exec .loadDht (place 0 [0x00, 3] State.reset) = .next t ∧ t.fault = true) ∧
    (∃ t, exec (.decodeBlock 0 0 0 3) (tablesB1 State.reset) = .next t ∧ t.fault = true) ∧
    (∃ t, exec (.receive 1) State.reset = .next t ∧ t.fault = true) ∧
    (∃ t, exec .endMcu { State.reset with ri := 1, todo := 1 } = .next t ∧ t.fault = true) ∧ State.reset.fault = false :=
  ⟨after_next (p := State.fault) (by decide +kernel), after_next (p := State.fault) (by decide +kernel),
    after_next (p := State.fault) (by decide +kernel), after_next (p := State.fault) (by decide +kernel),
    after_next (p := State.fault) (by decide +kernel), after_next (p := State.fault) (by decide +kernel), rfl⟩

/-- A command with a write footprint and an address just after it; one with none; and one that faults. -/
theorem witness_CommandMemFrame :
    (∃ s t : State, exec .idct s = .next t ∧
      ∀ reads dest, writerFootprint .idct s = some (reads, dest) → 0x240 ∉ dest.addresses) ∧
    (∃ s t : State, exec .nop s = .next t ∧ writerFootprint .nop s = none) ∧
    (∃ s t : State, exec .idct s = .next t ∧ s.fault = false ∧ t.fault = true) := by
  refine ⟨?_, ⟨State.reset, _, rfl, rfl⟩, ?_⟩
  · obtain ⟨t, ht, -⟩ := after_next (i := .idct) (s := withArgs [0x200, 8] State.reset) (p := fun _ => true)
      (by decide +kernel)
    refine ⟨_, t, ht, ?_⟩
    intro reads dest h
    cases h
    decide
  · obtain ⟨t, ht, hp⟩ := after_next (i := .idct) (s := withArgs [0xFC1, 8] State.reset) (p := State.fault)
      (by decide +kernel)
    exact ⟨_, t, ht, rfl, hp⟩

/-- LOAD_DHT into slot 0 beside slot 1, LOAD_DQT into slot 3 beside slot 0, and DECODE_BLOCK on predictor 0 beside 3. -/
theorem witness_CommandStateFrame :
    (∃ s t : State, exec .loadDht s = .next t ∧
      (1 : Fin 8).val ≠ 4 * ((s.mem.read (argNat s 0)).toNat / 16) + (s.mem.read (argNat s 0)).toNat % 16) ∧
    (∃ s t : State, exec .loadDqt s = .next t ∧ (0 : Fin 4).val ≠ (s.mem.read (argNat s 0)).toNat % 16) ∧
    (∃ s t : State, exec (.decodeBlock 0 0 0 0) s = .next t ∧ (3 : Fin 4) ≠ 0) ∧
    (∃ s t : State, exec .endMcu s = .next t ∧ usesStream .nop = false ∧ Instr.endMcu ≠ .startScan) := by
  refine ⟨?_, ?_, ?_, ⟨State.reset, _, rfl, rfl, by decide⟩⟩
  · obtain ⟨t, ht, -⟩ := after_next (i := .loadDht) (s := State.reset) (p := fun _ => true) (by decide +kernel)
    exact ⟨_, t, ht, by decide⟩
  · obtain ⟨t, ht, -⟩ := after_next (i := .loadDqt) (s := place 0 (dqtRecord 3) State.reset) (p := fun _ => true)
      (by decide +kernel)
    exact ⟨_, t, ht, by decide +kernel⟩
  · obtain ⟨t, ht, -⟩ := after_next (i := .decodeBlock 0 0 0 0) (s := State.reset) (p := fun _ => true)
      (by decide +kernel)
    exact ⟨_, t, ht, by decide⟩

/-- LOAD_DQT one byte too high, and LOAD_DQT that just fits. -/
theorem witness_FootprintFault :
    (∃ s : State, LowestOutside s (checkedRows .loadDqt s) 0x1000) ∧
    (∃ s t : State, InMem s (checkedRows .loadDqt s) ∧ Instr.loadDqt ≠ .loadDht ∧ usesStream .loadDqt = false ∧
      s.fault = false ∧ exec .loadDqt s = .next t) := by
  refine ⟨⟨withArgs [0xFC0] State.reset, by decide, ?_, ?_⟩, ?_⟩
  · exact ⟨_, List.mem_singleton_self _, by decide +kernel⟩
  · intro r hr b _ hb
    exact hb
  · obtain ⟨t, ht, -⟩ := after_next (i := .loadDqt) (s := withArgs [0xFBF] State.reset) (p := fun _ => true)
      (by decide +kernel)
    refine ⟨_, t, ?_, by decide, rfl, rfl, ht⟩
    intro r hr
    obtain rfl := List.mem_singleton.mp hr
    decide +kernel

theorem legal_countsT1 : LegalRecord countsT1 [0, 1, 2, 3] := by unfold LegalRecord; decide

theorem built_tableT1 : Built tableT1 := built_tableOf legal_countsT1 (by decide +kernel)

theorem fit_countsT1 : LengthsFit countsT1 := by
  intro l h1 h16
  interval_cases l <;> decide

/-- NOP running, V-T1's table bound, a marker latched with one bit left. -/
def invState : State :=
  { streamT1 [0x12, 0xFF, 0xD9] with cmdLast := 0, busy := true, host := [.wait], cur := ⟨0x80000000, 1, true, true, 0xD9, 3⟩ }

theorem invState_slots : ∀ i : Fin 8, i ≠ 0 → (invState.ht.get i).isNone = true := by decide

theorem witness_StepKeepsInvariant : ∃ s t : State, MachineInv s ∧ step s = .next t := by
  refine ⟨invState, _, ⟨by decide, by decide +kernel, by decide +kernel, fun _ => ?_, fun _ i t h => ?_, fun _ => ?_⟩, rfl⟩
  · unfold CursorOk
    decide
  · by_cases hi : i = 0
    · subst hi
      have : tableT1 = t := Option.some.inj h
      exact this ▸ built_tableT1
    · have := invState_slots i hi
      simp [h] at this
  · exact ⟨rfl, rfl, rfl, .nop, by decide⟩

theorem witness_StepKeepsParameters : ∃ s t : State, step s = .next t := ⟨State.reset, _, rfl⟩

/-- One byte too high; and at the highest address that fits, one record for each outcome. -/
theorem witness_LoadDqtOutcomes :
    (withArgs [0xFC0] State.reset).config.memSize < argNat (withArgs [0xFC0] State.reset) 0 + 65 ∧
    (∀ b ∈ [0x10, 0x04, 0x03], ∀ s : State, s = withArgs [0xFBF] (place 0xFBF [b] State.reset) →
      argNat s 0 + 65 ≤ s.config.memSize ∧ (s.mem.read (argNat s 0)).toNat = b) ∧
    (0x10 / 16 ≠ 0) ∧ (0x04 / 16 = 0 ∧ 3 < 0x04 % 16) ∧ (0x03 = (3 : Fin 4).val) := by
  refine ⟨by decide, ?_, by decide, by decide, by decide⟩
  rintro b hb s rfl
  revert b
  decide +kernel

/-- A record that ends at the last byte of MEM. -/
theorem witness_LoadDhtInstalls : ∃ (s : State) (slot : Fin 8) (n : Nat),
    argNat s 0 + 17 + n ≤ s.config.memSize ∧ (s.mem.read (argNat s 0)).toNat / 16 ≤ 1 ∧
      (s.mem.read (argNat s 0)).toNat % 16 ≤ 3 ∧
      slot.val = 4 * ((s.mem.read (argNat s 0)).toNat / 16) + (s.mem.read (argNat s 0)).toNat % 16 ∧
      n = (recordCounts s.mem (argNat s 0)).sum ∧ n ≤ 256 ∧ LengthsFit (recordCounts s.mem (argNat s 0)) := by
  refine ⟨withArgs [0xFEB] (place 0xFEB (0x13 :: countsT1 ++ [0, 1, 2, 3]) State.reset), 7, 4, by decide +kernel,
    by decide +kernel, by decide +kernel, by decide +kernel, by decide +kernel, by decide, ?_⟩
  have h : recordCounts (withArgs [0xFEB] (place 0xFEB (0x13 :: countsT1 ++ [0, 1, 2, 3]) State.reset)).mem
      (argNat (withArgs [0xFEB] (place 0xFEB (0x13 :: countsT1 ++ [0, 1, 2, 3]) State.reset)) 0) = countsT1 := by
    decide +kernel
  rw [h]
  exact fit_countsT1

/-- V-D6; V-D3 and V-D4; V-D5; V-D7; V-L1. -/
theorem witness_LoadDhtFaults :
    ((withArgs [0xFF0] State.reset).config.memSize < argNat (withArgs [0xFF0] State.reset) 0 + 17) ∧
    (1 < ((place 0 [0x20] State.reset).mem.read 0).toNat / 16 ∧ 3 < ((place 0 [0x04] State.reset).mem.read 0).toNat % 16) ∧
    (256 < (recordCounts (place 1 (List.replicate 16 0x11) State.reset).mem 0).sum) ∧
    (∃ s : State, (recordCounts s.mem (argNat s 0)).sum = 16 ∧ argNat s 0 + 17 ≤ s.config.memSize ∧
      s.config.memSize < argNat s 0 + 17 + 16) ∧
    (∃ s : State, (recordCounts s.mem (argNat s 0)).sum = 3 ∧ argNat s 0 + 17 + 3 ≤ s.config.memSize ∧
      FirstOverflow (recordCounts s.mem (argNat s 0)) 1) := by
  refine ⟨by decide, by decide +kernel, by decide +kernel,
    ⟨withArgs [0xFE0] (place 0xFE8 [16] State.reset), by decide +kernel⟩,
    place 1 [3] State.reset, by decide +kernel, by decide +kernel, by decide, by decide, by decide +kernel, ?_⟩
  intro j h1 h2
  omega

/-- V-L8 with one symbol too many: the length that overflows is 16. -/
def countsTooMany : List Nat := List.replicate 15 1 ++ [3]

theorem witness_BuilderAccepts :
    LegalRecord countsTooMany (List.replicate 18 0) ∧ FirstOverflow countsTooMany 16 ∧
    LegalRecord countsT1 [0, 1, 2, 3] ∧ buildHuffman countsT1 [0, 1, 2, 3] = .ok tableT1 := by
  refine ⟨by unfold LegalRecord; decide, ⟨by decide, by decide, by decide, ?_⟩, legal_countsT1, by decide +kernel⟩
  intro j h1 h2
  interval_cases j <;> decide

theorem witness_BuilderArrays : ∃ (counts : List Nat) (sym : List Byte) (t : HuffTable),
    LegalRecord counts sym ∧ buildHuffman counts sym = .ok t :=
  ⟨countsT1, [0, 1, 2, 3], tableT1, legal_countsT1, by decide +kernel⟩

/-- The last index of '100', and the first index that begins no code of at most 9 bits. -/
theorem witness_FastTable : Built tableT1 ∧
    (2 < tableT1.n ∧ sizeAt tableT1 2 ≤ 9 ∧ 319 / 2 ^ (9 - sizeAt tableT1 2) = codeAt tableT1 2) ∧
    (∀ k, k < tableT1.n → sizeAt tableT1 k ≤ 9 → 320 / 2 ^ (9 - sizeAt tableT1 k) ≠ codeAt tableT1 k) := by
  refine ⟨built_tableT1, by decide +kernel, ?_⟩
  decide +kernel

/-- Lengths 2 and 11 hold codes, length 4 none; index 319 is in the fast table, 320 is not. -/
theorem witness_BuiltTableInvariants : Built tableT1 ∧
    (0 ≤ 3 ∧ 3 < tableT1.n ∧ 0 ≠ 3 ∧ sizeAt tableT1 0 ≤ sizeAt tableT1 3) ∧
    (sizeAt tableT1 1 = 2 ∧ ∀ j, j < tableT1.n → sizeAt tableT1 j = 2 → codeAt tableT1 j ≤ codeAt tableT1 1) ∧
    (∀ k, k < tableT1.n → sizeAt tableT1 k ≠ 4) ∧ tableT1.fast.getD 319 0 ≠ 0xFF ∧ tableT1.fast.getD 320 0 = 0xFF := by
  refine ⟨built_tableT1, ?_⟩
  decide +kernel

/-- V-H4's bits, and V-H5's, which begin no code. -/
theorem witness_LookupIsCanonical : Built tableT1 ∧
    (3 < tableT1.n ∧ leadingBits 0xA01F0000 (sizeAt tableT1 3) = codeAt tableT1 3) ∧
    (∀ k, k < tableT1.n → leadingBits 0xA03F0000 (sizeAt tableT1 k) ≠ codeAt tableT1 k) := by
  refine ⟨built_tableT1, ?_⟩
  decide +kernel

theorem witness_StuffingAndMarkers :
    (∀ c ∈ [0x00, 0xD0], ∀ s : State, s = stream [0xFF, c] →
      s.cur.nomore = false ∧ Fetchable s s.cur.bsPtr.toNat ∧ Fetchable s (s.cur.bsPtr.toNat + 1) ∧
        s.mem.read s.cur.bsPtr.toNat = 0xFF ∧ (s.mem.read (s.cur.bsPtr.toNat + 1)).toNat = c) := by
  rintro c hc s rfl
  unfold Fetchable
  revert c
  decide +kernel

theorem witness_PeekAndResetCursor : ∃ n : Nat, 1 ≤ n ∧ n ≤ 16 := ⟨16, by decide⟩

/-- V-C1's first byte, a stream that ends, and the turns at 0 and at 23 valid bits. -/
theorem witness_RefillFills :
    (StreamReady 24 (stream [1, 2, 3, 4, 5, 6]) ∧
      StreamReady 24 { State.reset with cur := ⟨0, 0, true, true, 0xD9, 2⟩ } ∧
      StreamReady 24 { State.reset with cur := ⟨0, 24, false, false, 0xFF, 0⟩ }) ∧
    (∃ (s : State) (c : Cursor), refill s s.cur = .ok c ∧ CursorOk s.cur) ∧
    (refillByte (stream [0x12]) Cursor.reset = .ok (0x12, ⟨0, 0, false, false, 0xFF, 1⟩) ∧ Cursor.reset.bitcnt.toNat < 24 ∧
      refillByte State.reset Cursor.reset = .error ⟨.streamExhausted, 0⟩) ∧
    (Cursor.reset.nomore = false ∧ Fetchable (stream [0x12]) Cursor.reset.bsPtr.toNat ∧
      (stream [0x12]).mem.read Cursor.reset.bsPtr.toNat ≠ 0xFF) ∧
    (∀ c ∈ [⟨0, 0, false, false, 0xFF, 0⟩, (⟨0xFFFFFE00, 23, false, false, 0xFF, 0⟩ : Cursor)],
      c.bitcnt.toNat < 24 ∧ c.bitbuf <<< c.bitcnt.toNat = 0) := by
  refine ⟨by unfold StreamReady; decide, ⟨stream [0xA0, 0x1F, 0x33], ⟨0xA01F3300, 24, false, false, 0xFF, 3⟩, ?_⟩,
    by decide +kernel, by unfold Fetchable; decide +kernel, by decide⟩
  unfold CursorOk
  decide +kernel

theorem witness_ZeroPadding :
    (∃ c : Cursor, c.nomore = true) ∧
    (∃ s t : State, step s = .next t ∧ s.cur.nomore = true ∧ t.cur.nomore = false) := by
  refine ⟨⟨⟨0, 0, true, true, 0xD9, 2⟩, rfl⟩, ?_⟩
  obtain ⟨t, ht, hp⟩ := stepped_next
    (s := { running .startScan [.wait] with cur := ⟨0, 0, true, true, 0xD9, 2⟩ }) (p := fun t => !t.cur.nomore) (by decide)
  exact ⟨_, t, ht, rfl, by simpa using hp⟩

/-- V-C3. -/
theorem witness_ReadAheadBound : ∃ (s : State) (c c' : Cursor),
    c.nomore = false ∧ refill s c = .ok c' ∧ c'.nomore = true :=
  ⟨stream [0x12, 0xFF, 0xD0, 0x34], Cursor.reset, ⟨0x12000000, 24, true, true, 0xD0, 3⟩, by decide +kernel⟩

/-- The last byte before BS_END is taken, and one byte of MEM_SIZE (V-X2), with every table bound and a restart point. -/
def exhausted (ptr stop : Word) : State :=
  { tablesB1 State.reset with bsEnd := stop, ri := 1, todo := 1, cur := ⟨0, 0, false, false, 0xFF, ptr⟩ }

/-- A first byte at BS_END and one at MEM_SIZE (V-X2); a 0xFF as the last byte (V-F13's), the second byte of a turn; the
commands that refill; V-F14 and a latched 0xFF with no byte after it, NOMORE = 1; V-F12, and V-F8 with BS_END after its
0x00. -/
theorem witness_StreamFetchFaults :
    (∀ s ∈ [exhausted 4 4, exhausted 0x1000 0x1001], s.cur.nomore = false ∧
      (FetchFault s s.cur.bsPtr.toNat ⟨.streamExhausted, 4⟩ ∨ FetchFault s s.cur.bsPtr.toNat ⟨.addrRange, 0x1000⟩) ∧
      (∃ r, refill s s.cur = .error r) ∧
      s.cur.bitcnt.toNat < (1 : BitVec 5).toNat ∧ (s.ht.get (dcSlot 0)).isSome = true ∧
      (s.ht.get (acSlot 0)).isSome = true ∧ (s.qt.get 0).isSome = true ∧
      s.ri ≠ 0 ∧ s.todo.toNat ≤ 1 ∧ s.cur.markerValid = false) ∧
    (Fetchable (stream [0xFF]) 0 ∧ (stream [0xFF]).mem.read 0 = 0xFF ∧
      FetchFault (stream [0xFF]) 1 ⟨.streamExhausted, 1⟩) ∧
    (FillRun (stream [0xFF, 0xFF]) 2 ∧ FetchFault (stream [0xFF, 0xFF]) 2 ⟨.streamExhausted, 2⟩) ∧
    (FillRun (latched []) 0 ∧ FetchFault (latched []) 0 ⟨.streamExhausted, 0⟩) ∧
    (SkipStart (stream [0x12, 0x34]) 0 ∧ (∀ a, a < 2 → Fetchable (stream [0x12, 0x34]) a) ∧
      (∀ j, j + 1 < 2 → ¬MarkerAt (stream [0x12, 0x34]) j) ∧
      FetchFault (stream [0x12, 0x34]) 2 ⟨.streamExhausted, 2⟩) ∧
    (SkipStart (latched [0x00]) 1 ∧ FetchFault (latched [0x00]) 1 ⟨.streamExhausted, 1⟩) := by
  refine ⟨?_, by unfold Fetchable FetchFault; decide +kernel, by unfold FillRun Fetchable FetchFault; decide +kernel,
    by unfold FillRun Fetchable FetchFault; decide +kernel, ⟨.inl ⟨rfl, rfl⟩, by unfold Fetchable; decide +kernel, ?_,
      by unfold FetchFault; decide +kernel⟩,
    .inr ⟨rfl, 0, by unfold FillRun Fetchable; decide +kernel, by unfold Fetchable; decide +kernel, by decide +kernel, rfl⟩,
    by unfold FetchFault; decide +kernel⟩
  · intro s hs
    rcases List.mem_cons.1 hs with rfl | hs
    · exact ⟨rfl, by unfold FetchFault; decide +kernel, ⟨⟨.streamExhausted, 4⟩, by decide +kernel⟩, by decide +kernel⟩
    · obtain rfl := List.mem_singleton.mp hs
      exact ⟨rfl, by unfold FetchFault; decide +kernel, ⟨⟨.addrRange, 0x1000⟩, by decide +kernel⟩, by decide +kernel⟩
  · intro j hj
    obtain rfl : j = 0 := by omega
    unfold MarkerAt
    decide +kernel

/-- V-F10; V-F4; V-F1; V-F8's start with V-F1's end; V-F5. -/
theorem witness_FindMarkerStrict :
    (∃ s : State, s.cur.markerValid = true ∧ s.cur.markerCode ≠ 0xFF) ∧
    (∃ s : State, s.cur.markerValid = false ∧ Fetchable s s.cur.bsPtr.toNat ∧ s.mem.read s.cur.bsPtr.toNat ≠ 0xFF) ∧
    (∀ s ∈ [stream [0xFF, 0xFF, 0xFF, 0xDB], stream [0xFF, 0xFF, 0xFF, 0x00]],
      s.cur.markerValid = false ∧ (∀ j, j < 3 → s.mem.read (s.cur.bsPtr.toNat + j) = 0xFF) ∧
        Fetchable s (s.cur.bsPtr.toNat + 3) ∧ s.mem.read (s.cur.bsPtr.toNat + 3) ≠ 0xFF) ∧
    (∃ s : State, s.cur.markerValid = true ∧ s.cur.markerCode = 0xFF ∧ Fetchable s s.cur.bsPtr.toNat ∧
      s.mem.read s.cur.bsPtr.toNat = 0xDB) := by
  unfold Fetchable
  refine ⟨⟨{ State.reset with cur := ⟨0, 0, true, true, 0xD9, 0⟩ }, by decide⟩, ⟨stream [0x12, 0x34], by decide +kernel⟩,
    by decide +kernel, ⟨{ stream [0xDB] with cur := ⟨0, 0, true, true, 0xFF, 0⟩ }, by decide +kernel⟩⟩

/-- V-F7: the marker is the last two bytes before BS_END. V-F8: a latched 0xFF and 0x00, then the marker. -/
theorem witness_FindMarkerSkip :
    (∃ (s : State) (p : Nat), SkipStart s 0 ∧ Fetchable s (p + 1) ∧ MarkerAt s p ∧ ∀ j, j < p → ¬MarkerAt s j) ∧
    (SkipStart (latched [0x00, 0xFF, 0xC4]) 1 ∧ Fetchable (latched [0x00, 0xFF, 0xC4]) 2 ∧
      MarkerAt (latched [0x00, 0xFF, 0xC4]) 1) := by
  unfold Fetchable MarkerAt
  refine ⟨⟨stream [0xAB, 0xFF, 0x00, 0xFF, 0xFF, 0xC4], 4, .inl ⟨rfl, rfl⟩, by decide +kernel⟩,
    .inr ⟨rfl, 0, by unfold FillRun Fetchable; decide +kernel, by unfold Fetchable; decide +kernel, by decide +kernel, rfl⟩,
    by decide +kernel⟩

theorem witness_ReceiveExtendValue :
    (∃ (n : Nat) (c : Cursor), n ≤ 16 ∧ 1 ≤ n ∧ n ≤ c.bitcnt.toNat) ∧
    (∃ (s : State) (n : Nat) (c : Cursor) (r : Raised), n ≤ 16 ∧ 1 ≤ n ∧ c.bitcnt.toNat < n ∧ refill s c = .error r) ∧
    (∃ (s : State) (n : Nat) (c c1 : Cursor), n ≤ 16 ∧ 1 ≤ n ∧ c.bitcnt.toNat < n ∧ refill s c = .ok c1) := by
  refine ⟨⟨16, ⟨0, 16, false, false, 0xFF, 0⟩, by decide⟩,
    ⟨State.reset, 1, Cursor.reset, ⟨.streamExhausted, 0⟩, by decide +kernel⟩,
    ⟨stream [0xA0, 0x1F, 0x33], 16, ⟨0xA0000000, 15, true, true, 0xD9, 0⟩, ⟨0xA0000000, 31, true, true, 0xD9, 0⟩, ?_⟩⟩
  decide +kernel

theorem witness_ReceiveResult :
    (1 ≤ (16 : BitVec 5).toNat ∧ (16 : BitVec 5).toNat ≤ 16 ∧
      (∃ s : State, (16 : BitVec 5).toNat ≤ s.cur.bitcnt.toNat) ∧
      (∃ s : State, s.cur.bitcnt.toNat < (16 : BitVec 5).toNat ∧ StreamReady (16 : BitVec 5).toNat s)) ∧
    16 < (17 : BitVec 5).toNat := by
  unfold StreamReady
  exact ⟨⟨by decide, by decide, ⟨{ State.reset with cur := ⟨0, 16, false, false, 0xFF, 0⟩ }, by decide⟩,
    stream [1, 2, 3, 4, 5, 6], by decide⟩, by decide⟩

/-- V-H4's and V-H5's bits with 16 valid, and V-H8. -/
theorem witness_HuffDecodeResult : Built tableT1 ∧
    (∀ s ∈ [{ streamT1 [] with cur := ⟨0xA01F0000, 16, false, false, 0xFF, 0⟩ }], s.ht.get 0 = some tableT1 ∧
      16 ≤ s.cur.bitcnt.toNat ∧ 3 < tableT1.n ∧ leadingBits s.cur.bitbuf (sizeAt tableT1 3) = codeAt tableT1 3) ∧
    (∀ s ∈ [{ streamT1 [] with cur := ⟨0xA03F0000, 16, false, false, 0xFF, 0⟩ }], s.ht.get 0 = some tableT1 ∧
      16 ≤ s.cur.bitcnt.toNat ∧
      ∀ k, k < tableT1.n → leadingBits s.cur.bitbuf (sizeAt tableT1 k) ≠ codeAt tableT1 k) ∧
    (∀ s ∈ [{ streamT1 [] with cur := ⟨0, 15, true, true, 0xD9, 2⟩ }], s.ht.get 0 = some tableT1 ∧
      s.cur.bitcnt.toNat < 16 ∧ StreamReady 16 s ∧ ∃ c, refill s s.cur = .ok c ∧
        leadingBits c.bitbuf (sizeAt tableT1 0) = codeAt tableT1 0) ∧
    refill State.reset ⟨0, 15, false, false, 0xFF, 0⟩ = .error ⟨.streamExhausted, 0⟩ := by
  refine ⟨built_tableT1, by decide +kernel, by decide +kernel, ?_, by decide +kernel⟩
  intro s hs
  obtain rfl := List.mem_singleton.mp hs
  exact ⟨rfl, by decide, .inr (.inl rfl), ⟨0, 31, true, true, 0xD9, 2⟩, by decide +kernel⟩

/-- V-B11, V-B12 and V-B13 (V-B1's tables bind slots 0 and 4 and quantization slot 0). -/
theorem witness_UnboundTableFaults :
    (State.reset.ht.get 0).isNone = true ∧ ((tablesB1 State.reset).ht.get 0).isSome = true ∧
    ((tablesB1 State.reset).ht.get 6).isNone = true ∧ ((tablesB1 State.reset).ht.get 4).isSome = true ∧
    ((tablesB1 State.reset).qt.get 2).isNone = true ∧ (6 : Fin 8).val = 4 + (2 : Fin 4).val := by decide

theorem built_tableDcB1 : Built tableDcB1 :=
  built_tableOf (by unfold LegalRecord; decide) (by decide +kernel)

theorem built_tableAcB1 : Built tableAcB1 :=
  built_tableOf (by unfold LegalRecord; decide) (by decide +kernel)

/-- V-B7's first block, with exactly the 21 valid bits the statement asks for. -/
theorem witness_DecodeBlockDcOnly : Built tableDcB1 ∧ Built tableAcB1 ∧
    (∀ s : State, s = { tablesB1 State.reset with cur := ⟨0x6A000000, 21, false, false, 0xFF, 0⟩ } →
      s.ht.get 0 = some tableDcB1 ∧ s.ht.get 4 = some tableAcB1 ∧ (s.qt.get 0).isSome = true ∧
      1 < tableDcB1.n ∧ leadingBits s.cur.bitbuf (sizeAt tableDcB1 1) = codeAt tableDcB1 1 ∧
      (tableDcB1.values.getD 1 0).toNat = 3 ∧ 3 ≤ 16 ∧ 16 ≤ s.cur.bitcnt.toNat ∧
      sizeAt tableDcB1 1 + 3 + 16 ≤ s.cur.bitcnt.toNat ∧ 1 < tableAcB1.n ∧
      leadingBits (s.cur.bitbuf <<< (sizeAt tableDcB1 1 + 3)) (sizeAt tableAcB1 1) = codeAt tableAcB1 1 ∧
      (tableAcB1.values.getD 1 0).toNat % 16 = 0 ∧ tableAcB1.values.getD 1 0 ≠ 0xF0) :=
  ⟨built_tableDcB1, built_tableAcB1, by rintro s rfl; decide +kernel⟩

/-- A block that completes (V-B7), its DC difference and its AC loop; a DC category that the stream ends in; the category 17 of
V-B1's DC table; an AC loop that faults (V-B3). -/
theorem witness_DecodeBlockOutcome :
    (∃ s t : State,
      s.config.zigzag = zigzagTable ∧ s.fault = false ∧ exec (.decodeBlock 0 0 0 0) s = .next t ∧ t.fault = false) ∧
    ((tablesB1 State.reset).ht.get (dcSlot 0) = some tableDcB1 ∧ (tablesB1 State.reset).ht.get (acSlot 0) = some tableAcB1 ∧
      ((tablesB1 State.reset).qt.get 0).isSome = true) ∧
    (decodeSymbol State.reset tableDcB1 Cursor.reset = .error ⟨.streamExhausted, 0⟩ ∧
      decodeDc State.reset tableDcB1 Cursor.reset = .error ⟨.streamExhausted, 0⟩) ∧
    (decodeSymbol State.reset tableDcB1 ⟨0xC0000000, 24, true, true, 0xD9, 0⟩ =
      .ok (0x11, ⟨0, 21, true, true, 0xD9, 0⟩) ∧ 16 < (0x11 : Byte).toNat) ∧
    (∃ c1, decodeDc State.reset tableDcB1 ⟨0x6A000000, 24, true, true, 0xD9, 0⟩ = .ok (5, c1) ∧
      ∃ b, acLoop State.reset tableAcB1 (Vector.replicate 64 1) 63 ⟨c1, (Vector.replicate 64 0).set 0 5, 1⟩ = .ok b) ∧
    (∃ r, acLoop State.reset tableAcB1 (Vector.replicate 64 1) 63
      ⟨⟨0xB6DB6000, 24, true, true, 0xD9, 0⟩, Vector.replicate 64 0, 1⟩ = .error r) := by
  refine ⟨?_, by decide +kernel, by decide +kernel, by decide +kernel, ?_, ⟨⟨.badHuffmanCode, 3⟩, by decide +kernel⟩⟩
  · obtain ⟨t, ht, hp⟩ := after_next (i := .decodeBlock 0 0 0 0) (s := tablesB1 (stream [0x6A, 0xFF, 0xD9]))
      (p := fun t => !t.fault) (by decide +kernel)
    exact ⟨_, t, rfl, rfl, ht, by simpa using hp⟩
  · exact ⟨⟨0x40000000, 19, true, true, 0xD9, 0⟩, by decide +kernel,
      ⟨⟨0, 17, true, true, 0xD9, 0⟩, (Vector.replicate 64 0).set 0 5, 1⟩, by decide +kernel⟩

/-- End of block; ZRL at k = 49 (V-B3); a coefficient at position 63; a stream that ends in the symbol and in its magnitude;
and the loop at k = 64 and at k = 63. -/
theorem witness_AcCoefficients :
    decodeSymbol State.reset tableAcB1 ⟨0x40000000, 24, true, true, 0xD9, 0⟩ =
      .ok (0x00, ⟨0, 22, true, true, 0xD9, 0⟩) ∧
    (decodeSymbol State.reset tableAcB1 ⟨0xA0000000, 24, true, true, 0xD9, 0⟩ =
      .ok (0xF0, ⟨0, 21, true, true, 0xD9, 0⟩) ∧ 63 < 49 + (0xF0 : Byte).toNat / 16) ∧
    (decodeSymbol State.reset tableAcB1 ⟨0x20000000, 24, true, true, 0xD9, 0⟩ =
      .ok (0x01, ⟨0x80000000, 22, true, true, 0xD9, 0⟩) ∧ (63 : Fin 64).val = 63 + (0x01 : Byte).toNat / 16 ∧
      receiveExtend State.reset ((0x01 : Byte).toNat % 16) ⟨0x80000000, 22, true, true, 0xD9, 0⟩ =
        .ok (1, ⟨0, 21, true, true, 0xD9, 0⟩)) ∧
    decodeSymbol State.reset tableAcB1 Cursor.reset = .error ⟨.streamExhausted, 0⟩ ∧
    receiveExtend State.reset 5 ⟨0, 4, false, false, 0xFF, 0⟩ = .error ⟨.streamExhausted, 0⟩ ∧
    (∀ k ∈ [63, 64], ∃ b : BlockState, 1 ≤ b.k ∧ b.k = k) ∧
    (∃ b1, acStep State.reset tableAcB1 (Vector.replicate 64 1)
      ⟨⟨0x40000000, 24, true, true, 0xD9, 0⟩, Vector.replicate 64 0, 63⟩ = .ok (b1, true)) ∧
    (∃ b1, acStep State.reset tableAcB1 (Vector.replicate 64 1)
      ⟨⟨0x20000000, 24, true, true, 0xD9, 0⟩, Vector.replicate 64 0, 1⟩ = .ok (b1, false)) := by
  refine ⟨by decide +kernel, by decide +kernel, by decide +kernel, by decide +kernel, by decide +kernel, ?_,
    ⟨⟨⟨0, 22, true, true, 0xD9, 0⟩, Vector.replicate 64 0, 63⟩, by decide +kernel⟩,
    ⟨⟨⟨0, 21, true, true, 0xD9, 0⟩, (Vector.replicate 64 0).set 1 1, 2⟩, by decide +kernel⟩⟩
  intro k hk
  exact ⟨⟨Cursor.reset, Vector.replicate 64 0, k⟩, by revert k; decide, rfl⟩

/-- V-I17: the block ends at the last byte of MEM. -/
theorem witness_IdctWritesBlock : ∃ s : State,
    8 ≤ argLow s 1 ∧ argNat s 0 + 7 * argLow s 1 + 8 ≤ s.config.memSize :=
  ⟨withArgs [0xFC0, 8] State.reset, by decide⟩

/-- The largest and the smallest stride that overlaps, with a byte that is written once where there is one: with stride 7,
column 1 of row 0, but not column 7. -/
theorem witness_IdctSelfOverlap :
    (∃ s : State, argLow s 1 = 7 ∧ argLow s 1 < 8 ∧ argNat s 0 + 7 * argLow s 1 + 8 ≤ s.config.memSize ∧
      WrittenOnce (idctRows s) 0 1 ∧ ¬WrittenOnce (idctRows s) 0 7) ∧
    (∃ s : State, argLow s 1 = 0 ∧ argLow s 1 < 8 ∧ argNat s 0 + 7 * argLow s 1 + 8 ≤ s.config.memSize) := by
  unfold WrittenOnce
  exact ⟨⟨withArgs [0xFC7, 7] State.reset, by decide +kernel⟩, withArgs [0xFF8, 0] State.reset, by decide⟩

theorem witness_IdctArithmetic :
    (-65536 < (0xFFFF : Word).toInt ∧ (0xFFFF : Word).toInt < 65536) ∧
    (-65536 < (-0xFFFF : Word).toInt ∧ (-0xFFFF : Word).toInt < 65536) := by decide

/-- V-S3; V-S4; V-S5 with the cursor its refill gives; V-S7; V-S9. -/
theorem witness_EndMcuOutcomes :
    (∃ s : State, s.ri ≠ 0 ∧ 2 ≤ s.todo.toNat) ∧
    (∃ s : State, s.ri ≠ 0 ∧ s.todo.toNat ≤ 1 ∧ s.cur.markerValid = true ∧ 0xD0 ≤ s.cur.markerCode.toNat ∧
      s.cur.markerCode.toNat ≤ 0xD7) ∧
    (∃ (s : State) (c : Cursor), s.ri ≠ 0 ∧ s.todo.toNat ≤ 1 ∧ s.cur.markerValid = false ∧ s.cur.bitcnt.toNat < 24 ∧
      refill s s.cur = .ok c ∧ c.markerValid = true ∧ c.markerCode = 0xD5) ∧
    (∃ s : State, s.ri ≠ 0 ∧ s.todo.toNat ≤ 1 ∧ s.cur.markerValid = false ∧ 24 ≤ s.cur.bitcnt.toNat) ∧
    (∃ (s : State) (r : Raised), s.ri ≠ 0 ∧ s.todo.toNat ≤ 1 ∧ s.cur.markerValid = false ∧ s.cur.bitcnt.toNat < 24 ∧
      refill s s.cur = .error r) := by
  refine ⟨⟨{ State.reset with ri := 2, todo := 2 }, by decide⟩,
    ⟨{ State.reset with ri := 1, todo := 1, cur := ⟨0, 0, true, true, 0xD0, 0⟩ }, by decide⟩,
    ⟨{ stream [0xFF, 0xD5] with ri := 1, todo := 1, cur := ⟨0, 5, false, false, 0xFF, 0⟩ },
      ⟨0, 29, true, true, 0xD5, 2⟩, by decide +kernel⟩,
    ⟨{ State.reset with ri := 1, todo := 1, cur := ⟨0, 24, false, false, 0xFF, 0⟩ }, by decide⟩,
    { stream [0x12] with ri := 1, todo := 1, cur := ⟨0, 5, false, false, 0xFF, 0⟩ }, ⟨.streamExhausted, 1⟩,
    by decide +kernel⟩

theorem witness_PredictorReset :
    (∃ s t : State, exec .startScan s = .next t) ∧
    (∃ s t : State, exec .endMcu s = .next t ∧ s.fault = false ∧ t.fault = false ∧ t.result = 1) ∧
    (∃ s t : State, s.dcpred.get 0 = 0 ∧ s.config.zigzag = zigzagTable ∧ s.fault = false ∧
      exec (.decodeBlock 0 0 0 0) s = .next t ∧ t.fault = false) := by
  refine ⟨⟨State.reset, _, rfl⟩, ?_, ?_⟩
  · obtain ⟨t, ht, hp⟩ := after_next (i := .endMcu)
      (s := { State.reset with ri := 1, todo := 1, cur := ⟨0, 0, true, true, 0xD0, 0⟩ })
      (p := fun t => !t.fault && t.result == 1) (by decide)
    simp only [Bool.and_eq_true, Bool.not_eq_true', beq_iff_eq] at hp
    exact ⟨_, t, ht, rfl, hp⟩
  · obtain ⟨t, ht, hp⟩ := after_next (i := .decodeBlock 0 0 0 0) (s := tablesB1 (stream [0x6A, 0xFF, 0xD9]))
      (p := fun t => !t.fault) (by decide +kernel)
    exact ⟨_, t, rfl, rfl, rfl, ht, by simpa using hp⟩

/-- V-U9's planes in every mode; an empty plane; a destination with ds = ow - 1, of which one byte is written once and one
twice; a destination over its source. -/
theorem witness_UpsampleFilters :
    (∀ m ∈ [UpsampleMode.copy, .h, .v, .hv], ∀ s : State, s = withArgs [0, 0x100, 0x00040002, 0x00020002] State.reset →
      UpsampleReady m s) ∧
    (∃ s : State, argLow s 3 = 0) ∧
    (∀ s : State, s = withArgs [0, 0x100, 0x00030002, 0x00020002] State.reset →
      UpsampleFits .hv s ∧ Apart [upsampleReads s] (upsampleRows .hv s) ∧ WrittenOnce (upsampleRows .hv s) 0 0 ∧
        ¬WrittenOnce (upsampleRows .hv s) 0 3) ∧
    (∀ s : State, s = withArgs [0, 0, 0x00040002, 0x00020002] State.reset →
      UpsampleFits .hv s ∧ ¬Apart [upsampleReads s] (upsampleRows .hv s)) := by
  refine ⟨?_, ⟨State.reset, by decide⟩, ?_, ?_⟩
  · rintro m h s rfl
    unfold UpsampleReady UpsampleFits InMem Apart WritesOnce WrittenOnce
    refine ⟨?_, ?_, ?_⟩ <;> revert m <;> decide +kernel
  · rintro s rfl
    unfold UpsampleFits InMem Apart WrittenOnce
    decide +kernel
  · rintro s rfl
    unfold UpsampleFits InMem Apart
    decide +kernel

theorem witness_UpsampleBounds : ∃ (s : State) (lo hi : Nat), UpsampleReady .hv s ∧
    ∀ y x : Nat, y < argHigh s 3 → x < argLow s 3 →
      lo ≤ planeAt s.mem (upsampleReads s) y x ∧ planeAt s.mem (upsampleReads s) y x ≤ hi := by
  refine ⟨_, 0, 255, witness_UpsampleFilters.1 .hv (by decide) _ rfl, fun y x _ _ => ⟨Nat.zero_le _, ?_⟩⟩
  exact Nat.le_of_lt_succ (BitVec.isLt _)

/-- Planes of two rows whose output ends at the last byte of MEM; an empty size; os = 4w - 1, where pixel 0 of row 0 is written
once but not the last byte of the row; an output over the Y plane. -/
theorem witness_ColorConvertPixels :
    (∀ m ∈ [ColorMode.ycc, .gray], ∀ s : State,
      s = withArgs [0, 0x10, 0x20, 0xFF0, 0x00020002, 0x00020002, 8] State.reset →
      ColorFits m s ∧ Apart (colorReads m s) (colorRows s) ∧ WritesOnce (colorRows s)) ∧
    (∃ s : State, argHigh s 4 = 0) ∧
    (∀ s : State, s = withArgs [0, 0x10, 0x20, 0x100, 0x00020002, 0x00020002, 7] State.reset →
      ColorFits .ycc s ∧ Apart (colorReads .ycc s) (colorRows s) ∧
        (∀ j, j < 4 → WrittenOnce (colorRows s) 0 (4 * 0 + j)) ∧ ¬WrittenOnce (colorRows s) 0 (4 * 1 + 3)) ∧
    (∀ s : State, s = withArgs [0, 0x10, 0x20, 0, 0x00020002, 0x00020002, 8] State.reset →
      ColorFits .ycc s ∧ ¬Apart (colorReads .ycc s) (colorRows s)) := by
  refine ⟨?_, ⟨State.reset, by decide⟩, ?_, ?_⟩
  · rintro m h s rfl
    unfold ColorFits InMem Apart WritesOnce WrittenOnce
    refine ⟨?_, ?_, ?_⟩ <;> revert m <;> decide +kernel
  · rintro s rfl
    unfold ColorFits InMem Apart WrittenOnce
    refine ⟨?_, ?_, ?_, ?_⟩ <;> decide +kernel
  · rintro s rfl
    unfold ColorFits InMem Apart
    decide +kernel

theorem witness_ColorProperties : ∃ y y' : Byte, y.toNat ≤ y'.toNat := ⟨0, 255, by decide⟩

/-- A word at the last four bytes of MEM, one byte higher, and while BUSY. -/
theorem witness_HostMemAccess :
    (IdleWith (hosted (.memWrite 0xFFC 4 0x12345678)) (.memWrite 0xFFC 4 0x12345678) ∧
      (0xFFC : Word).toNat + 4 ≤ State.reset.config.memSize) ∧
    IdleWith (hosted (.memRead 0xFFC 4)) (.memRead 0xFFC 4) ∧
    (IdleWith (hosted (.memRead 0xFFD 4)) (.memRead 0xFFD 4) ∧
      State.reset.config.memSize < (0xFFD : Word).toNat + 4) ∧
    BusyWith (running .nop [.memWrite 0 1 0]) (.memWrite 0 1 0) := by decide

end Sys2Proof.Tests
end

section
/-! SUPPORT. The state's registers and reset values (10_state.md R37, R48, R51): what a flag puts in a register's word, and
what every reset leaves at its value of R51. -/
namespace Sys2Proof.Proofs

open Sys2Proof.Machine Sys2Proof.Safety

/-! ### TABLE_VALID (10_state.md R37) -/

theorem flagBit_getLsbD (b : Bool) {i j : Nat} (hi : i < 32) :
    (flagBit b i).getLsbD j = true ↔ j = i ∧ b = true := by
  cases b with
  | false => simp [flagBit]
  | true =>
    simp [flagBit, BitVec.getLsbD_shiftLeft, BitVec.getLsbD_one]
    omega

/-- A bit of flags gathered into one word is set by a flag at that bit. -/
theorem foldl_flagBit_getLsbD {α : Type} (b : α → Bool) (pos : α → Nat) (hpos : ∀ x, pos x < 32) (l : List α) (w : Word)
    (j : Nat) :
    (l.foldl (fun w x => w ||| flagBit (b x) (pos x)) w).getLsbD j = true ↔
      w.getLsbD j = true ∨ ∃ x ∈ l, j = pos x ∧ b x = true := by
  induction l generalizing w with
  | nil => simp
  | cons x xs ih => simp [ih, flagBit_getLsbD _ (hpos x), or_assoc]

theorem tableValidWord_getLsbD (s : State) (j : Nat) :
    (tableValidWord s).getLsbD j = true ↔
      (∃ i : Fin 8, j = i.val ∧ (s.ht.get i).isSome = true) ∨
        ∃ q : Fin 4, j = 8 + q.val ∧ (s.qt.get q).isSome = true := by
  have ht := foldl_flagBit_getLsbD (fun i : Fin 8 => (s.ht.get i).isSome) (·.val) (by omega) (List.finRange 8) 0 j
  have hq := foldl_flagBit_getLsbD (fun q : Fin 4 => (s.qt.get q).isSome) (8 + ·.val) (by omega) (List.finRange 4) 0 j
  simp only [tableValidWord, BitVec.getLsbD_or, Bool.or_eq_true, ht, hq]
  simp

theorem readRegister_tableValid (s : State) : readRegister 0x05C s = tableValidWord s := rfl

/-! ### Reset (10_state.md R51) -/

theorem resetRegisters_atReset (s : State) : AtReset (resetRegisters s) := by
  simp [AtReset, Cursor.reset, Vector.get]

theorem stateReset_atReset : AtReset State.reset := by
  simp [AtReset, State.reset, Cursor.reset, Vector.get]

/-- A hard reset is the reset of the registers and of MEM, of which R51 says nothing. -/
theorem hardReset_atReset (s : State) : AtReset (hardReset s) := resetRegisters_atReset s

theorem softReset_atReset (s : State) : AtReset (softReset s) := by
  obtain h | ⟨i, -, -, h⟩ := softReset_cases s <;> rw [h] <;> exact resetRegisters_atReset _

theorem irq_of_atReset {s : State} (h : AtReset s) : irq s = false := by
  obtain ⟨hirqEn, -⟩ := h
  simp [irq, hirqEn]

theorem readRegister_id (s : State) : readRegister 0x000 s = 0x4A504701 := rfl

@[simp] theorem hardReset_config (s : State) : (hardReset s).config = s.config := rfl

@[simp] theorem abortCommand_config (i : Instr) (s : State) : (abortCommand i s).config = s.config := by
  obtain h | ⟨reads, dest, -, -, h⟩ := abortCommand_cases i s <;> rw [h]

@[simp] theorem softReset_config (s : State) : (softReset s).config = s.config := by
  obtain h | ⟨i, -, -, h⟩ := softReset_cases s <;> simp [h]

/-- An idle core has no command to abort, so its soft reset leaves MEM (70_reset_and_hazards.md R311). -/
theorem softReset_mem_of_idle {s : State} (hidle : s.busy = false) : (softReset s).mem = s.mem := by
  obtain h | ⟨i, hbusy, -⟩ := softReset_cases s
  · simp [h]
  · simp [hidle] at hbusy

/-! ### The zigzag (10_state.md R48) -/

theorem zigzagTable_eq_walk : zigzagTable.toList.map Fin.val = zigzagWalk := by decide

theorem zigzagWalk_length : zigzagWalk.length = 64 := by decide

theorem mem_zigzagWalk : ∀ n : Nat, n < 64 → n ∈ zigzagWalk := by decide

/-! ### The obligations -/

/-- Settles O11: a bit of TABLE_VALID is set by the one slot whose flag stands there. -/
theorem tableValidRegister : Obligations.TableValidRegister := by
  unfold Obligations.TableValidRegister
  simp only [readRegister_tableValid]
  refine ⟨fun s i => ?_, fun s q => ?_, fun s j hj => ?_, by decide⟩
  · rw [Bool.eq_iff_iff, tableValidWord_getLsbD]
    constructor
    · rintro (⟨i', hi, h⟩ | ⟨q, hq, -⟩)
      · rwa [Fin.ext hi]
      · omega
    · exact fun h => .inl ⟨i, rfl, h⟩
  · rw [Bool.eq_iff_iff, tableValidWord_getLsbD]
    constructor
    · rintro (⟨i, hi, -⟩ | ⟨q', hq, h⟩)
      · omega
      · rwa [show q = q' from Fin.ext (by omega)]
    · exact fun h => .inr ⟨q, rfl, h⟩
  · rw [Bool.eq_false_iff, ne_eq, tableValidWord_getLsbD]
    rintro (⟨i, hi, -⟩ | ⟨q, hq, -⟩) <;> omega

/-- Settles O14: State.reset and both resets have the values of R51, and the zigzag ROM is checked entry by entry. -/
theorem resetValues : Obligations.ResetValues := by
  unfold Obligations.ResetValues
  refine ⟨stateReset_atReset, irq_of_atReset stateReset_atReset, readRegister_id _, rfl, ?zigzag, fun s => ?soft,
    fun s => ?hard⟩
  case zigzag => exact ⟨zigzagTable_eq_walk, zigzagWalk_length, mem_zigzagWalk, by decide, by decide⟩
  case soft =>
    exact ⟨softReset_atReset s, irq_of_atReset (softReset_atReset s), readRegister_id _, softReset_config s,
      softReset_mem_of_idle⟩
  case hard =>
    exact ⟨hardReset_atReset s, irq_of_atReset (hardReset_atReset s), readRegister_id _, hardReset_config s⟩

end Sys2Proof.Proofs
end

section
/-! SUPPORT. What the Huffman table builder builds (41_tables.md R142–R145; 10_state.md R42): the position of each symbol in
its length class, its canonical code, the counter behind maxcode[], and what an entry of the fast table says. -/
namespace Sys2Proof.Proofs

open Sys2Proof.Machine Sys2Proof.Safety

/-! ### Canonical codes (41_tables.md R143) -/

/-- The counter `next` at length `size`, lengthened to a symbol's length, bounds that symbol's code from below. -/
theorem mul_le_canonicalCodesFrom {next size : Nat} {ls : List Nat} (hsorted : (size :: ls).Pairwise (· ≤ ·)) {k : Nat}
    (hk : k < ls.length) :
    next * 2 ^ (ls.getD k 0 - size) ≤ (canonicalCodesFrom next size ls).getD k 0 := by
  induction ls generalizing next size k with
  | nil => simp at hk
  | cons l ls ih =>
    obtain ⟨hsize, hls⟩ := List.pairwise_cons.mp hsorted
    cases k with
    | zero => simp [canonicalCodesFrom]
    | succ k =>
      have hk' : k < ls.length := by simpa using hk
      have hl : l ≤ ls.getD k 0 := by
        rw [List.getD_eq_getElem _ _ hk']
        exact (List.pairwise_cons.mp hls).1 _ (List.getElem_mem hk')
      have hsl : size ≤ l := hsize l (by simp)
      calc next * 2 ^ ((l :: ls).getD (k + 1) 0 - size)
          = next * 2 ^ (l - size) * 2 ^ (ls.getD k 0 - l) := by
            rw [Nat.mul_assoc, ← Nat.pow_add]
            congr 2
            simp only [List.getD_cons_succ]
            omega
        _ ≤ (next * 2 ^ (l - size) + 1) * 2 ^ (ls.getD k 0 - l) := Nat.mul_le_mul_right _ (Nat.le_succ _)
        _ ≤ _ := by simpa [canonicalCodesFrom] using ih hls hk'

/-- Of two symbols the later one's code, cut to the earlier one's length, is above the earlier one's code. -/
theorem canonicalCodesFrom_succ_mul_le {next size : Nat} {ls : List Nat} (hsorted : ls.Pairwise (· ≤ ·)) {j k : Nat}
    (hjk : j < k) (hk : k < ls.length) :
    ((canonicalCodesFrom next size ls).getD j 0 + 1) * 2 ^ (ls.getD k 0 - ls.getD j 0) ≤
      (canonicalCodesFrom next size ls).getD k 0 := by
  induction ls generalizing next size j k with
  | nil => simp at hk
  | cons l ls ih =>
    obtain ⟨k, rfl⟩ : ∃ k', k = k' + 1 := ⟨k - 1, by omega⟩
    have hk' : k < ls.length := by simpa using hk
    cases j with
    | zero => simpa [canonicalCodesFrom] using mul_le_canonicalCodesFrom hsorted hk'
    | succ j =>
      simpa [canonicalCodesFrom] using ih (List.pairwise_cons.mp hsorted).2 (Nat.lt_of_succ_lt_succ hjk) hk'

/-- Raising the length counted so far shifts the counter. -/
theorem canonicalCodesFrom_lengthen {next size : Nat} {ls : List Nat} (h : ∀ l ∈ ls, size < l) :
    canonicalCodesFrom next size ls = canonicalCodesFrom (2 * next) (size + 1) ls := by
  cases ls with
  | nil => rfl
  | cons l ls =>
    have hl : size < l := h l (by simp)
    have hpow : next * 2 ^ (l - size) = 2 * next * 2 ^ (l - (size + 1)) := by
      rw [show l - size = l - (size + 1) + 1 by omega]
      ring
    simp only [canonicalCodesFrom, hpow]

/-- The codes of one length class count up from the counter. -/
theorem canonicalCodesFrom_replicate (next size cnt : Nat) (ls : List Nat) :
    canonicalCodesFrom next size (List.replicate cnt size ++ ls) =
      (List.range cnt).map (next + ·) ++ canonicalCodesFrom (next + cnt) size ls := by
  induction cnt generalizing next with
  | zero => simp
  | succ cnt ih =>
    simp only [List.replicate_succ, List.cons_append, canonicalCodesFrom, Nat.sub_self, Nat.pow_zero, Nat.mul_one, ih,
      List.range_succ_eq_map, List.map_cons, List.map_map]
    simp [Function.comp_def, Nat.add_comm, Nat.add_left_comm]

/-- The canonical codes of the lengths from `l` on: those of length `l`, then the rest with the counter doubled. -/
theorem canonicalCodesFrom_sizesFrom (next l cnt : Nat) (cs : List Nat) :
    canonicalCodesFrom next l (sizesFrom l (cnt :: cs)) =
      (List.range cnt).map (next + ·) ++
        canonicalCodesFrom (2 * (next + cnt)) (l + 1) (sizesFrom (l + 1) cs) := by
  rw [sizesFrom, canonicalCodesFrom_replicate, canonicalCodesFrom_lengthen]
  exact fun z hz => (mem_sizesFrom hz).1

theorem canonicalCodesFrom_length (next size : Nat) (ls : List Nat) :
    (canonicalCodesFrom next size ls).length = ls.length := by
  induction ls generalizing next size with
  | nil => rfl
  | cons l ls ih => simp [canonicalCodesFrom, ih]

/-! ### size[] (41_tables.md R142) -/

theorem sizesFrom_length (l : Nat) (counts : List Nat) : (sizesFrom l counts).length = counts.sum := by
  induction counts generalizing l with
  | nil => rfl
  | cons c cs ih => simp [sizesFrom, ih]

theorem sizesFrom_sorted (l : Nat) (counts : List Nat) : (sizesFrom l counts).Pairwise (· ≤ ·) := by
  induction counts generalizing l with
  | nil => simp [sizesFrom]
  | cons c cs ih =>
    refine List.pairwise_append.mpr ⟨by simp [List.pairwise_replicate], ih (l + 1), fun a ha b hb => ?_⟩
    obtain rfl := (List.mem_replicate.mp ha).2
    have := (mem_sizesFrom hb).1
    omega

/-- Every symbol has a place in a length class. -/
theorem exists_classPosition {counts : List Nat} {k : Nat} (hk : k < counts.sum) :
    ∃ i j, i < counts.length ∧ j < counts.getD i 0 ∧ k = (counts.take i).sum + j := by
  induction counts generalizing k with
  | nil => simp at hk
  | cons c cs ih =>
    rcases Nat.lt_or_ge k c with hc | hc
    · exact ⟨0, k, by simp, by simpa using hc, by simp⟩
    · obtain ⟨i, j, hi, hj, hkij⟩ := ih (k := k - c) (by simp at hk; omega)
      exact ⟨i + 1, j, by simpa using hi, by simpa using hj, by simp; omega⟩

/-- A place in a length class is a symbol. -/
theorem classPosition_lt {counts : List Nat} {i j : Nat} (hj : j < counts.getD i 0) :
    (counts.take i).sum + j < counts.sum := by
  induction counts generalizing i with
  | nil => simp at hj
  | cons c cs ih =>
    cases i with
    | zero =>
      have hj : j < c := by simpa using hj
      simp only [List.take_zero, List.sum_nil, List.sum_cons]
      omega
    | succ i =>
      have hrest := ih (i := i) (by simpa using hj)
      simp only [List.take_succ_cons, List.sum_cons]
      omega

theorem sizesFrom_classPosition {l : Nat} {counts : List Nat} {i j : Nat} (hj : j < counts.getD i 0) :
    (sizesFrom l counts).getD ((counts.take i).sum + j) 0 = l + i := by
  induction counts generalizing l i with
  | nil => simp at hj
  | cons c cs ih =>
    cases i with
    | zero =>
      have hj : j < c := by simpa using hj
      simp [sizesFrom, List.getElem?_append, hj]
    | succ i =>
      rw [show l + (i + 1) = l + 1 + i by omega, ← ih (l := l + 1) (i := i) (by simpa using hj)]
      simp [sizesFrom, List.getElem?_append, Nat.add_assoc]

/-- The symbol at place `j` of a length class has the class's first code plus `j`: the counter after the shorter lengths,
which starts at `2 * u`, doubled. -/
theorem canonicalCodesFrom_classPosition {u l : Nat} {counts : List Nat} {i j : Nat} (hj : j < counts.getD i 0) :
    (canonicalCodesFrom (2 * u) l (sizesFrom l counts)).getD ((counts.take i).sum + j) 0 =
      2 * (counts.take i).foldl (fun u c => 2 * u + c) u + j := by
  induction counts generalizing u l i with
  | nil => simp at hj
  | cons c cs ih =>
    rw [canonicalCodesFrom_sizesFrom]
    cases i with
    | zero =>
      have hj : j < c := by simpa using hj
      simp [List.getElem?_append, hj]
    | succ i =>
      rw [List.take_succ_cons, List.foldl_cons, ← ih (u := 2 * u + c) (l := l + 1) (i := i) (by simpa using hj)]
      simp [List.getElem?_append, Nat.add_assoc]

/-! ### The builder's loop (41_tables.md R143, R144) -/

/-- A length class that fits. -/
theorem assignLength_ok {l cnt : Nat} {acc acc' : CodeAcc} (h : assignLength l cnt acc = .ok acc') :
    acc'.code = 2 * (acc.code + cnt) ∧ acc'.codes = acc.codes ++ (List.range cnt).map (acc.code + ·) ∧
      acc'.maxcode = acc.maxcode ++ [(acc.code + cnt) * 2 ^ (16 - l)] := by
  simp only [assignLength] at h
  split at h
  · cases h
  · cases h
    exact ⟨Nat.mul_comm _ _, rfl, rfl⟩

/-- A loop that goes through has fitted its first length class. -/
theorem assignCodes_cons_ok {l cnt : Nat} {cs : List Nat} {acc acc' : CodeAcc}
    (h : assignCodes l (cnt :: cs) acc = .ok acc') :
    ∃ acc1, assignLength l cnt acc = .ok acc1 ∧ assignCodes (l + 1) cs acc1 = .ok acc' := by
  unfold assignCodes at h
  cases h1 : assignLength l cnt acc with
  | error r => simp [h1] at h
  | ok acc1 => exact ⟨acc1, rfl, by simpa only [h1] using h⟩

theorem assignCodes_codes {l : Nat} {counts : List Nat} {acc acc' : CodeAcc} (h : assignCodes l counts acc = .ok acc') :
    acc'.codes = acc.codes ++ canonicalCodesFrom acc.code l (sizesFrom l counts) := by
  induction counts generalizing l acc with
  | nil =>
    cases h
    simp [sizesFrom, canonicalCodesFrom]
  | cons cnt cs ih =>
    obtain ⟨acc1, h1, hrest⟩ := assignCodes_cons_ok h
    obtain ⟨hcode, hcodes, -⟩ := assignLength_ok h1
    rw [ih hrest, hcodes, hcode, canonicalCodesFrom_sizesFrom, List.append_assoc]

theorem assignCodes_maxcode {l u : Nat} {counts : List Nat} {acc acc' : CodeAcc} (hu : acc.code = 2 * u)
    (h : assignCodes l counts acc = .ok acc') :
    acc'.maxcode = acc.maxcode ++ (List.range counts.length).map
      (fun i => (counts.take (i + 1)).foldl (fun u c => 2 * u + c) u * 2 ^ (16 - (l + i))) := by
  induction counts generalizing l u acc with
  | nil =>
    cases h
    simp
  | cons cnt cs ih =>
    obtain ⟨acc1, h1, hrest⟩ := assignCodes_cons_ok h
    obtain ⟨hcode, -, hmaxcode⟩ := assignLength_ok h1
    rw [ih (u := 2 * u + cnt) (by rw [hcode, hu]) hrest, hmaxcode, hu]
    simp [List.range_succ_eq_map, Function.comp_def, Nat.add_assoc, Nat.add_comm 1]

/-- What the builder's table holds, from the record's counts alone. -/
theorem buildHuffman_ok {counts : List Nat} {sym : List Byte} {t : HuffTable} (h : buildHuffman counts sym = .ok t) :
    t.n = counts.sum ∧ t.size = sizesFrom 1 counts ∧
      t.maxcode = (List.range counts.length).map (fun i => codesUsed counts (i + 1) * 2 ^ (16 - (1 + i))) ++
        [maxcodeInfinity] ∧
      t.fast = buildFast 0 (t.size.zip (canonicalCodes t.size)) (List.replicate 512 0xFF) := by
  unfold buildHuffman at h
  cases h1 : assignCodes 1 counts ⟨0, 0, [], [], []⟩ with
  | error r => simp [h1] at h
  | ok acc =>
    have hcodes : acc.codes = canonicalCodes (sizesFrom 1 counts) := by
      rw [assignCodes_codes h1, canonicalCodes, canonicalCodesFrom_lengthen (fun z hz => (mem_sizesFrom hz).1)]
      rfl
    have hmaxcode := assignCodes_maxcode (u := 0) rfl h1
    simp only [h1] at h
    cases h
    exact ⟨rfl, rfl, by simp only [hmaxcode]; rfl, by simp only [hcodes]⟩

/-! ### The fast table (41_tables.md R145) -/

theorem fillRange_getElem? (lo hi : Nat) (v : Byte) (i : Nat) (xs : List Byte) (j : Nat) :
    (fillRange lo hi v i xs)[j]? = xs[j]?.map (fun x => if lo ≤ i + j ∧ i + j < hi then v else x) := by
  induction xs generalizing i j with
  | nil => rfl
  | cons x xs ih =>
    cases j with
    | zero => rfl
    | succ j => simp [fillRange, ih, Nat.add_assoc, Nat.add_comm 1]

/-- The nine bits of an index of the fast table begin with a symbol's code (41_tables.md R145). -/
def IndexBegins (i size code : Nat) : Prop := size ≤ 9 ∧ i / 2 ^ (9 - size) = code

theorem fillFast_getElem?_of_begins {fast : List Byte} {k size code i : Nat} (hi : i < fast.length)
    (h : IndexBegins i size code) : (fillFast fast k size code)[i]? = some (BitVec.ofNat 8 k) := by
  obtain ⟨hsize, rfl⟩ := h
  have hlow := Nat.div_mul_le_self i (2 ^ (9 - size))
  have hhigh := (Nat.div_lt_iff_lt_mul (Nat.two_pow_pos (9 - size))).mp (Nat.lt_succ_self (i / 2 ^ (9 - size)))
  simp [fillFast, hsize, fillRange_getElem?, hi, hlow, hhigh]

theorem fillFast_getElem?_of_not_begins {fast : List Byte} {k size code i : Nat} (h : ¬ IndexBegins i size code) :
    (fillFast fast k size code)[i]? = fast[i]? := by
  unfold fillFast
  split
  · rename_i hsize
    have hout : ¬(code * 2 ^ (9 - size) ≤ i ∧ i < (code + 1) * 2 ^ (9 - size)) := fun ⟨hlow, hhigh⟩ =>
      h ⟨hsize, Nat.div_eq_of_lt_le hlow hhigh⟩
    simp [fillRange_getElem?, hout]
  · rfl

theorem fillRange_length (lo hi : Nat) (v : Byte) (i : Nat) (xs : List Byte) :
    (fillRange lo hi v i xs).length = xs.length := by
  induction xs generalizing i with
  | nil => rfl
  | cons x xs ih => simp [fillRange, ih]

theorem fillFast_length (fast : List Byte) (k size code : Nat) : (fillFast fast k size code).length = fast.length := by
  unfold fillFast
  split
  · exact fillRange_length ..
  · rfl

/-- An entry of the fast table holds the last symbol whose code begins its index, or what it held before. -/
theorem buildFast_cases {k i : Nat} {scs : List (Nat × Nat)} {fast : List Byte} (hi : i < fast.length) :
    ((buildFast k scs fast)[i]? = fast[i]? ∧
        ∀ (m : Nat) (sc : Nat × Nat), scs[m]? = some sc → ¬ IndexBegins i sc.1 sc.2) ∨
      ∃ m sc, scs[m]? = some sc ∧ IndexBegins i sc.1 sc.2 ∧
        (buildFast k scs fast)[i]? = some (BitVec.ofNat 8 (k + m)) := by
  induction scs generalizing k fast with
  | nil => exact .inl ⟨rfl, by simp⟩
  | cons sc0 rest ih =>
    obtain ⟨hkept, hnone⟩ | ⟨m, sc, hm, hbegins, hentry⟩ :=
      ih (k := k + 1) (fast := fillFast fast k sc0.1 sc0.2) (by rwa [fillFast_length])
    · by_cases h0 : IndexBegins i sc0.1 sc0.2
      · exact .inr ⟨0, sc0, rfl, h0, hkept.trans (fillFast_getElem?_of_begins hi h0)⟩
      · refine .inl ⟨hkept.trans (fillFast_getElem?_of_not_begins h0), fun m sc hm => ?_⟩
        cases m with
        | zero => cases hm; exact h0
        | succ m => exact hnone m sc hm
    · exact .inr ⟨m + 1, sc, hm, hbegins, hentry.trans (by rw [Nat.add_assoc, Nat.add_comm 1])⟩

/-! ### A built table -/

theorem built_n_le {t : HuffTable} (ht : Built t) : t.n ≤ 256 := by
  obtain ⟨counts, sym, ⟨-, -, hsum⟩, hb⟩ := ht
  rwa [(buildHuffman_ok hb).1]

theorem built_size_length {t : HuffTable} (ht : Built t) : t.size.length = t.n := by
  obtain ⟨counts, sym, -, hb⟩ := ht
  obtain ⟨hn, hsize, -, -⟩ := buildHuffman_ok hb
  rw [hn, hsize, sizesFrom_length]

theorem built_size_sorted {t : HuffTable} (ht : Built t) : t.size.Pairwise (· ≤ ·) := by
  obtain ⟨counts, sym, -, hb⟩ := ht
  obtain ⟨-, hsize, -, -⟩ := buildHuffman_ok hb
  exact hsize ▸ sizesFrom_sorted 1 counts

theorem built_sizeAt_mono {t : HuffTable} (ht : Built t) {j k : Nat} (hjk : j ≤ k) (hk : k < t.n) :
    sizeAt t j ≤ sizeAt t k := by
  have hlen := built_size_length ht
  rcases hjk.eq_or_lt with rfl | hlt
  · exact le_rfl
  · rw [sizeAt, sizeAt, List.getD_eq_getElem _ _ (by omega), List.getD_eq_getElem _ _ (by omega)]
    exact List.pairwise_iff_getElem.mp (built_size_sorted ht) j k (by omega) (by omega) hlt

/-- Of two symbols the later one's code, cut to the earlier one's length, is above the earlier one's code. -/
theorem built_succ_codeAt_mul_le {t : HuffTable} (ht : Built t) {j k : Nat} (hjk : j < k) (hk : k < t.n) :
    (codeAt t j + 1) * 2 ^ (sizeAt t k - sizeAt t j) ≤ codeAt t k :=
  canonicalCodesFrom_succ_mul_le (built_size_sorted ht) hjk (by rwa [built_size_length ht])

/-- R42(b): no code begins with, or equals, another symbol's code. -/
theorem built_code_not_begun_by {t : HuffTable} (ht : Built t) {j k : Nat} (hj : j < t.n) (hk : k < t.n) (hne : j ≠ k)
    (hsize : sizeAt t j ≤ sizeAt t k) : codeAt t k / 2 ^ (sizeAt t k - sizeAt t j) ≠ codeAt t j := by
  rcases Nat.lt_or_gt_of_ne hne with hjk | hkj
  · have habove : codeAt t j + 1 ≤ codeAt t k / 2 ^ (sizeAt t k - sizeAt t j) :=
      (Nat.le_div_iff_mul_le (Nat.two_pow_pos _)).mpr (built_succ_codeAt_mul_le ht hjk hk)
    omega
  · have heq : sizeAt t j = sizeAt t k := Nat.le_antisymm hsize (built_sizeAt_mono ht hkj.le hj)
    have habove := built_succ_codeAt_mul_le ht hkj hj
    simp only [heq, Nat.sub_self, Nat.pow_zero, Nat.mul_one, Nat.div_one] at habove ⊢
    omega

/-- At most one symbol's code begins a string of `w` bits. -/
theorem built_symbol_unique {t : HuffTable} (ht : Built t) {w bits j k : Nat} (hj : j < t.n) (hk : k < t.n)
    (hjw : sizeAt t j ≤ w) (hkw : sizeAt t k ≤ w) (hcj : bits / 2 ^ (w - sizeAt t j) = codeAt t j)
    (hck : bits / 2 ^ (w - sizeAt t k) = codeAt t k) : j = k := by
  wlog hsize : sizeAt t j ≤ sizeAt t k generalizing j k
  · exact (this hk hj hkw hjw hck hcj (Nat.le_of_not_le hsize)).symm
  by_contra hne
  apply built_code_not_begun_by ht hj hk hne hsize
  rw [← hck, ← hcj, Nat.div_div_eq_div_mul, ← Nat.pow_add]
  congr 2
  omega

/-- The builder's list of symbols, each with its length and code. -/
theorem built_symbols_getElem? {t : HuffTable} (ht : Built t) (m : Nat) (sc : Nat × Nat) :
    (t.size.zip (canonicalCodes t.size))[m]? = some sc ↔ m < t.n ∧ sc = (sizeAt t m, codeAt t m) := by
  have hsize := built_size_length ht
  have hcodes : (canonicalCodes t.size).length = t.n := (canonicalCodesFrom_length ..).trans hsize
  rw [List.getElem?_zip_eq_some]
  rcases Nat.lt_or_ge m t.n with hm | hm
  · have hsizeAt : t.size[m]? = some (sizeAt t m) := by simp [sizeAt, hsize, hm]
    have hcodeAt : (canonicalCodes t.size)[m]? = some (codeAt t m) := by simp [codeAt, hcodes, hm]
    simp [hsizeAt, hcodeAt, hm, Prod.ext_iff, eq_comm (a := sc.1), eq_comm (a := sc.2)]
  · simp [hsize, hm]

theorem built_fast {t : HuffTable} (ht : Built t) :
    t.fast = buildFast 0 (t.size.zip (canonicalCodes t.size)) (List.replicate 512 0xFF) := by
  obtain ⟨counts, sym, -, hb⟩ := ht
  obtain ⟨-, -, -, hfast⟩ := buildHuffman_ok hb
  exact hfast

/-- An entry of the fast table is 0xFF where no code of length at most 9 begins its index, and else names a symbol whose
code does. -/
theorem built_fast_cases {t : HuffTable} (ht : Built t) {i : Nat} (hi : i < 512) :
    (t.fast.getD i 0 = 0xFF ∧ ∀ k, k < t.n → ¬ IndexBegins i (sizeAt t k) (codeAt t k)) ∨
      ∃ k, k < t.n ∧ IndexBegins i (sizeAt t k) (codeAt t k) ∧ t.fast.getD i 0 = BitVec.ofNat 8 k := by
  rw [built_fast ht, List.getD_eq_getElem?_getD]
  obtain ⟨hkept, hnone⟩ | ⟨m, sc, hm, hbegins, hentry⟩ :=
    buildFast_cases (k := 0) (scs := t.size.zip (canonicalCodes t.size)) (fast := List.replicate 512 (0xFF : Byte))
      (by rwa [List.length_replicate])
  · exact .inl ⟨by rw [hkept, List.getElem?_replicate, if_pos hi]; rfl,
      fun k hk => hnone k _ ((built_symbols_getElem? ht k _).mpr ⟨hk, rfl⟩)⟩
  · obtain ⟨hmn, rfl⟩ := (built_symbols_getElem? ht m sc).mp hm
    exact .inr ⟨m, hmn, hbegins, by rw [hentry, Nat.zero_add]; rfl⟩

/-! ### maxcode[] (41_tables.md R144) -/

theorem codesUsed_succ {counts : List Nat} {l : Nat} (hl : l < counts.length) :
    codesUsed counts (l + 1) = 2 * codesUsed counts l + counts.getD l 0 := by
  rw [codesUsed, List.take_succ_eq_append_getElem hl, List.foldl_append, List.getD_eq_getElem _ _ hl]
  rfl

section
variable {counts : List Nat} {sym : List Byte} {t : HuffTable}

theorem maxcodeAt_of_build (hrec : LegalRecord counts sym) (hb : buildHuffman counts sym = .ok t) {l : Nat}
    (hpos : 1 ≤ l) (hl : l ≤ 16) : maxcodeAt t l = codesUsed counts l * 2 ^ (16 - l) := by
  obtain ⟨hlen, -, -⟩ := hrec
  obtain ⟨-, -, hmaxcode, -⟩ := buildHuffman_ok hb
  obtain ⟨i, rfl⟩ : ∃ i, l = i + 1 := ⟨l - 1, by omega⟩
  have hi : i < 16 := hl
  simp [maxcodeAt, hmaxcode, hlen, List.getElem?_append, hi, Nat.add_comm 1]

/-- The symbol at a place of a length class. -/
theorem symbol_of_classPosition (hb : buildHuffman counts sym = .ok t) {i j : Nat} (hj : j < counts.getD i 0) :
    (counts.take i).sum + j < t.n ∧ sizeAt t ((counts.take i).sum + j) = i + 1 ∧
      codeAt t ((counts.take i).sum + j) = 2 * codesUsed counts i + j := by
  obtain ⟨hn, hsize, -, -⟩ := buildHuffman_ok hb
  refine ⟨hn ▸ classPosition_lt hj, ?_, ?_⟩
  · rw [sizeAt, hsize, sizesFrom_classPosition hj, Nat.add_comm]
  · rw [codeAt, hsize, canonicalCodes, canonicalCodesFrom_lengthen (fun z hz => (mem_sizesFrom hz).1)]
    exact canonicalCodesFrom_classPosition (u := 0) hj

/-- A symbol of length `l + 1` has its place among the codes of that length, counted up from the code counter. -/
theorem codeAt_of_sizeAt (hb : buildHuffman counts sym = .ok t) {k : Nat} (hk : k < t.n) {l : Nat}
    (hl : sizeAt t k = l + 1) :
    ∃ j, j < counts.getD l 0 ∧ k = (counts.take l).sum + j ∧ codeAt t k = 2 * codesUsed counts l + j := by
  obtain ⟨i, j, -, hj, rfl⟩ := exists_classPosition (counts := counts) ((buildHuffman_ok hb).1 ▸ hk)
  obtain ⟨-, hsize, hcode⟩ := symbol_of_classPosition hb hj
  obtain rfl : i = l := by omega
  exact ⟨j, hj, rfl, hcode⟩

/-- R42(c): maxcode[L] is one more than the largest code of length L, aligned to 16 bits. -/
theorem maxcodeAt_of_largest (hrec : LegalRecord counts sym) (hb : buildHuffman counts sym = .ok t) {l k : Nat}
    (hl : l < 16) (hk : k < t.n) (hsize : sizeAt t k = l + 1)
    (hmax : ∀ j, j < t.n → sizeAt t j = l + 1 → codeAt t j ≤ codeAt t k) :
    maxcodeAt t (l + 1) = (1 + codeAt t k) * 2 ^ (16 - (l + 1)) := by
  obtain ⟨j, hj, -, hcode⟩ := codeAt_of_sizeAt hb hk hsize
  obtain ⟨hlast, hlastSize, hlastCode⟩ :=
    symbol_of_classPosition hb (i := l) (j := counts.getD l 0 - 1) (by omega)
  have hle := hmax _ hlast hlastSize
  rw [maxcodeAt_of_build hrec hb (by omega) (by omega), codesUsed_succ (by rwa [hrec.1])]
  congr 1
  omega

/-- R42(c) for a length without codes: the code counter does not move. -/
theorem maxcodeAt_of_empty (hrec : LegalRecord counts sym) (hb : buildHuffman counts sym = .ok t) {l : Nat}
    (hl : l < 16) (hempty : ∀ k, k < t.n → sizeAt t k ≠ l + 1) :
    maxcodeAt t (l + 1) = if l = 0 then 0 else maxcodeAt t l := by
  have hcount : counts.getD l 0 = 0 := by
    by_contra h
    obtain ⟨hk, hsize, -⟩ := symbol_of_classPosition hb (i := l) (j := 0) (by omega)
    exact hempty _ hk hsize
  rw [maxcodeAt_of_build hrec hb (by omega) (by omega), codesUsed_succ (by rwa [hrec.1]), hcount]
  rcases eq_or_ne l 0 with rfl | hne
  · simp [codesUsed]
  · rw [if_neg hne, maxcodeAt_of_build hrec hb (by omega) (by omega),
      show 16 - l = 16 - (l + 1) + 1 by omega]
    ring

end

/-- Settles O32: (a) and (b) from the canonical codes' order, (c) from the place of a symbol in its length class, (d) from
what the builder leaves in an entry of the fast table. -/
theorem builtTableInvariants : Obligations.BuiltTableInvariants := by
  unfold Obligations.BuiltTableInvariants
  intro t ht
  refine ⟨fun j k => built_sizeAt_mono ht, fun j k => built_code_not_begun_by ht, fun l hpos hl => ?maxcode, fun i hi => ?fast⟩
  case maxcode =>
    obtain ⟨counts, sym, hrec, hb⟩ := ht
    obtain ⟨l, rfl⟩ : ∃ l', l = l' + 1 := ⟨l - 1, by omega⟩
    refine ⟨fun k => maxcodeAt_of_largest hrec hb hl, fun hempty => ?_⟩
    simpa using maxcodeAt_of_empty hrec hb hl hempty
  case fast =>
    obtain ⟨hentry, hnone⟩ | ⟨k, hk, ⟨hsize, hcode⟩, hentry⟩ := built_fast_cases ht hi
    · exact ⟨fun h => absurd hentry h, fun _ k hk hsize hcode => absurd ⟨hsize, hcode⟩ (hnone k hk)⟩
    · have hk256 := built_n_le ht
      have htoNat : (t.fast.getD i 0).toNat = k := by
        rw [hentry, BitVec.toNat_ofNat]
        exact Nat.mod_eq_of_lt (by omega)
      rw [htoNat]
      refine ⟨fun _ => ⟨hk, hsize, hcode⟩, fun hFF m hm hmsize hmcode => ?_⟩
      rw [built_symbol_unique ht hm hk hmsize hsize hmcode hcode, ← htoNat, hFF]
      rfl

end Sys2Proof.Proofs
end

section
/-! SUPPORT. Illegal command words (30_encoding.md R95–R99): what the decoder answers by the row of the opcode table that has
the word's opcode, and what a CMD write does with that answer. -/
namespace Sys2Proof.Proofs

open Sys2Proof.Machine

/-! ### The decoder by opcode (30_encoding.md R94–R97) -/

theorem decode_reservedOpcode {w : Word} (hop : 0x0C ≤ (wordField w 0 8).toNat) :
    decode w = .error .reservedOpcode := by
  unfold decode
  split
  case h_13 => rfl
  all_goals omega

theorem decodeReceive_eq (w : Word) :
    decodeReceive w =
      if w &&& 0xFFFFE0FF = 0x05 then
        if 16 < (wordField w 8 5).toNat then .error .fieldRange else .ok (.receive (wordField w 8 5))
      else .error .reservedBit := by
  simp only [decodeReceive, ← Nat.not_lt, ite_not]

/-- A word with a row's opcode is that row's command, but for a reserved bit and for RECEIVE's refused field values. -/
theorem decode_of_opcode {w : Word} {row : OpcodeRow} (hrow : row ∈ opcodeTable)
    (hop : wordField w 0 8 = row.pattern.extractLsb' 0 8) :
    ∃ i, i.mnemonic = row.mnemonic ∧
      decode w =
        if w &&& row.mask = row.pattern then
          if row.mnemonic = "RECEIVE" ∧ 16 < (wordField w 8 5).toNat then .error .fieldRange else .ok i
        else .error .reservedBit := by
  simp only [opcodeTable, List.mem_cons, List.not_mem_nil, or_false] at hrow
  obtain rfl | rfl | rfl | rfl | rfl | rfl | rfl | rfl | rfl | rfl | rfl | rfl := hrow
  -- Each opcode has one arm of the decoder, and the command is the one that arm names.
  all_goals exact ⟨_, rfl, by simp [decode, hop, checkReserved, decodeReceive_eq]; rfl⟩

/-- RECEIVE's row, the only one with refused field values. -/
theorem receive_row {row : OpcodeRow} (hrow : row ∈ opcodeTable) (hname : row.mnemonic = "RECEIVE") :
    row = ⟨"RECEIVE", 0xFFFFE0FF, 0x05⟩ := by
  revert row
  decide

/-- Every row's mask covers the opcode, so a word that meets a row has its opcode. -/
theorem opcode_of_masked {w : Word} {row : OpcodeRow} (hrow : row ∈ opcodeTable) (hmask : w &&& row.mask = row.pattern) :
    wordField w 0 8 = row.pattern.extractLsb' 0 8 := by
  have hcover : ∀ row ∈ opcodeTable, row.mask.extractLsb' 0 8 = BitVec.allOnes 8 := by decide
  rw [← hmask, BitVec.extractLsb'_and, hcover row hrow, BitVec.and_allOnes, wordField]

/-! ### A CMD write to an idle core without a fault (30_encoding.md R99, R102) -/

/-- An aligned 32-bit write to CMD offers its word to the core. -/
theorem step_cmdWrite {s : State} {w : Word} {rest : List HostOp} (hrst : s.rstN = true)
    (hhost : s.host = .regWrite .word 0x00C w :: rest) : step s = .next (offerCommand w { s with host := rest }) := by
  simp [step, hhost, hostMove, hostRegWrite, alignedWord, hrst]

section

variable {s : State} {w : Word} {rest : List HostOp} (hrst : s.rstN = true) (hbusy : s.busy = false)
  (hfault : s.fault = false) (hhost : s.host = .regWrite .word 0x00C w :: rest)
include hrst hbusy hfault hhost

theorem step_cmdWrite_legal {i : Instr} (hw : decode w = .ok i) : step s = .next (accept w { s with host := rest }) := by
  rw [step_cmdWrite hrst hhost]
  simp [offerCommand, hbusy, hfault, hw]

theorem step_cmdWrite_illegal {e : Illegal} (hw : decode w = .error e) :
    step s = .next (faultEntry ⟨.illegalCommand, e.info⟩ (accept w { s with host := rest })) := by
  rw [step_cmdWrite hrst hhost]
  simp [offerCommand, hbusy, hfault, hw]

end

/-- Settles O4: the step offers the word, the decoder's answer is the one of the row with the word's opcode, and an opcode
above the table has no row. -/
theorem illegalWordsFault : Obligations.IllegalWordsFault := by
  unfold Obligations.IllegalWordsFault
  intro s w rest hrst hbusy hfault hhost
  have hillegal {e : Illegal} := step_cmdWrite_illegal (e := e) hrst hbusy hfault hhost
  refine ⟨fun hop => hillegal (decode_reservedOpcode hop), fun row hrow hop hmask => ?reserved, fun hmask hn => ?range,
    fun ⟨row, hrow, hmask⟩ hn => ?legal⟩
  case reserved =>
    obtain ⟨i, -, hw⟩ := decode_of_opcode hrow hop
    rw [if_neg hmask] at hw
    exact hillegal hw
  case range =>
    have hrow : (⟨"RECEIVE", 0xFFFFE0FF, 0x05⟩ : OpcodeRow) ∈ opcodeTable := by simp [opcodeTable]
    obtain ⟨i, -, hw⟩ := decode_of_opcode hrow (opcode_of_masked hrow hmask)
    rw [if_pos hmask, if_pos ⟨rfl, hn⟩] at hw
    exact hillegal hw
  case legal =>
    have hlegal : ¬(row.mnemonic = "RECEIVE" ∧ 16 < (wordField w 8 5).toNat) := by
      rintro ⟨hname, hlarge⟩
      obtain rfl := receive_row hrow hname
      exact hn ⟨hmask, hlarge⟩
    obtain ⟨i, -, hw⟩ := decode_of_opcode hrow (opcode_of_masked hrow hmask)
    rw [if_pos hmask, if_neg hlegal] at hw
    exact ⟨⟨i, hw⟩, step_cmdWrite_legal hrst hbusy hfault hhost hw⟩

end Sys2Proof.Proofs
end

section
/-! SUPPORT. The bit cursor (40_cursor.md R110–R117; 44_scan.md R220): what a fetch of a byte the host has given answers, what
one turn of Refill does with a 0xFF and with zero padding, and which steps can lower NOMORE. -/
namespace Sys2Proof.Proofs

open Sys2Proof.Machine Sys2Proof.Safety

/-! ### A fetch that finds its byte (40_cursor.md R110) -/

theorem readStreamByte_of_fetchable {s : State} {c : Cursor} (h : Fetchable s c.bsPtr.toNat) :
    readStreamByte s c = .ok (s.mem.read c.bsPtr.toNat, { c with bsPtr := c.bsPtr + 1 }) := by
  obtain ⟨hend, hsize⟩ := h
  rw [readStreamByte, if_neg (by omega), if_neg (by omega)]

/-- BS_PTR does not wrap in front of a byte before BS_END. -/
theorem toNat_add_one_of_fetchable {s : State} {p : Word} (h : Fetchable s (p.toNat + 1)) :
    (p + 1).toNat = p.toNat + 1 := by
  obtain ⟨hend, -⟩ := h
  have hlt : p.toNat + 1 < 2 ^ 32 := hend.trans s.bsEnd.isLt
  exact BitVec.toNat_add_of_lt hlt

/-- The fetch after a fetch. -/
theorem readStreamByte_second {s : State} {c : Cursor} (h : Fetchable s (c.bsPtr.toNat + 1)) :
    readStreamByte s { c with bsPtr := c.bsPtr + 1 } =
      .ok (s.mem.read (c.bsPtr.toNat + 1), { c with bsPtr := c.bsPtr + 2 }) := by
  have hptr := toNat_add_one_of_fetchable h
  rw [readStreamByte_of_fetchable (by rwa [hptr]), hptr, BitVec.add_assoc]
  rfl

/-! ### One turn of Refill (40_cursor.md R111–R114) -/

/-- A turn at a 0xFF takes the byte after it too, which says whether the pair is stuffing or a marker. -/
theorem refillByte_of_ff {s : State} {c : Cursor} (hnomore : c.nomore = false) (hfirst : Fetchable s c.bsPtr.toNat)
    (hsecond : Fetchable s (c.bsPtr.toNat + 1)) (hff : s.mem.read c.bsPtr.toNat = 0xFF) :
    refillByte s c =
      if s.mem.read (c.bsPtr.toNat + 1) = 0x00 then .ok (0xFF, { c with bsPtr := c.bsPtr + 2 })
      else
        .ok (0x00,
          { c with
            bsPtr := c.bsPtr + 2
            markerCode := s.mem.read (c.bsPtr.toNat + 1)
            markerValid := true
            nomore := true }) := by
  rw [refillByte, if_neg (by simp [hnomore])]
  simp only [readStreamByte_of_fetchable hfirst, hff, readStreamByte_second hsecond, if_true]

theorem refillByte_of_nomore (s : State) {c : Cursor} (hnomore : c.nomore = true) : refillByte s c = .ok (0x00, c) := by
  rw [refillByte, if_pos hnomore]

/-- A byte of padding is ORed in without effect, so it is only counted. -/
theorem pushByte_zero (c : Cursor) : pushByte 0x00 c = { c with bitcnt := c.bitcnt + 8 } := by
  simp [pushByte]

theorem refillLoop_of_nomore (s : State) (k : Nat) {c : Cursor} (hnomore : c.nomore = true) :
    ∃ n : BitVec 5, refillLoop s k c = .ok { c with bitcnt := n } := by
  induction k generalizing c with
  | zero => exact ⟨c.bitcnt, rfl⟩
  | succ k ih =>
    rw [refillLoop]
    split
    · simp only [refillByte_of_nomore s hnomore, pushByte_zero]
      exact ih hnomore
    · exact ⟨c.bitcnt, rfl⟩

theorem refill_of_nomore (s : State) {c : Cursor} (hnomore : c.nomore = true) :
    ∃ n : BitVec 5, 24 ≤ n.toNat ∧ refill s c = .ok { c with bitcnt := n } := by
  obtain ⟨n, h⟩ := refillLoop_of_nomore s 3 hnomore
  exact ⟨n, refillLoop_enough 3 h (by omega), h⟩

/-! ### Which steps lower NOMORE (40_cursor.md R114) -/

theorem resetBitCursor_congr {c d : Cursor} (h : c.bsPtr = d.bsPtr) : resetBitCursor c = resetBitCursor d := by
  rw [resetBitCursor, resetBitCursor, h]

@[simp] theorem storeRows_cur (reads : List Rows) (dest : Rows) (ws : List (Nat × Byte)) (s : State) :
    (storeRows reads dest ws s).cur = s.cur := by
  unfold storeRows
  split
  · rfl
  · split <;> rfl

/-- A command that lowers NOMORE ends in a fault, or is START_SCAN or END_MCU with ResetBitCursor. -/
theorem ends_lowers_nomore {i : Instr} {s t : State} (h : Ends s i t) (hs : s.cur.nomore = true)
    (ht : t.cur.nomore = false) :
    t.fault = true ∨ (i = .startScan ∨ i = .endMcu) ∧ t.cur = resetBitCursor s.cur := by
  -- A cursor that keeps NOMORE is not the one left.
  have kept {c : Cursor} (hc : s.cur.nomore = true → c.nomore = true) (hlow : c.nomore = false) : False := by
    simp [hc hs] at hlow
  cases h with
  | early | codeLengths | stream | restartPoint | block => exact .inl rfl
  | arm => exact .inr ⟨.inl rfl, rfl⟩
  | restart c hp => exact .inr ⟨.inr rfl, resetBitCursor_congr (hp hs)⟩
  | cursor _ _ _ _ hn | decoded _ _ _ _ _ _ _ _ hn | scanEnd _ hn => exact (kept hn ht).elim
  | result | dqt | dht | count => exact (kept id ht).elim
  | stored | storedIdct => exact (kept id (by simpa using ht)).elim

/-- The core's turn: an idle core keeps its cursor, and an illegal word faults. -/
theorem coreTurn_lowers_nomore {s t : State} (h : coreTurn s = .next t) (hs : s.cur.nomore = true)
    (ht : t.cur.nomore = false) :
    t.fault = true ∨
      (decode s.cmdLast = .ok .startScan ∨ decode s.cmdLast = .ok .endMcu) ∧ t.cur = resetBitCursor s.cur := by
  unfold coreTurn at h
  split at h
  · unfold coreMove at h
    split at h
    next i hi =>
      rw [hi]
      simpa using ends_lowers_nomore (Ends.of_exec h) hs ht
    next => cases h; exact .inl rfl
  · cases h
    simp [hs] at ht

@[simp] theorem offerCommand_cur (w : Word) (s : State) : (offerCommand w s).cur = s.cur := by
  unfold offerCommand
  split
  · rfl
  · split
    · rfl
    · split <;> rfl

/-- Of the cursor a register write can set BS_PTR alone. -/
@[simp] theorem writeRegister_nomore (off : Nat) (v : Word) (s : State) :
    (writeRegister off v s).cur.nomore = s.cur.nomore := by
  simp only [writeRegister, writeStatus, apply_ite State.cur, apply_ite Cursor.nomore, ite_self]

theorem hostRegWrite_nomore (size : AccessSize) (off : BitVec 9) (v : Word) (s : State) :
    (hostRegWrite size off v s).cur.nomore = s.cur.nomore ∨ AtReset (hostRegWrite size off v s) := by
  unfold hostRegWrite
  split
  · split
    · unfold writeCtrl
      split
      · exact .inr (softReset_atReset s)
      · exact .inl rfl
    · split
      · simp
      · split <;> simp
  · exact .inl rfl

theorem hostRegRead_cur {size : AccessSize} {off : BitVec 9} {s t : State} (h : hostRegRead size off s = .next t) :
    t.cur = s.cur := by
  unfold hostRegRead at h
  split at h
  · split at h <;> cases h <;> rfl
  · cases h

/-- A host access other than WAIT keeps NOMORE, or is a reset. -/
theorem hostMove_nomore {op : HostOp} {s t : State} (hop : op ≠ .wait) (h : hostMove op s = .next t) :
    t.cur.nomore = s.cur.nomore ∨ AtReset t := by
  cases op with
  | regWrite size off v => cases h; exact hostRegWrite_nomore size off v s
  | regRead => exact .inl (by rw [hostRegRead_cur h])
  | memWrite | memRead => obtain ⟨-, -, -, rfl⟩ := memPort_next h; exact .inl rfl
  | rstN level =>
    cases h
    cases level with
    | true => exact .inl rfl
    | false => exact .inr (hardReset_atReset s)
  | wait => exact absurd rfl hop

/-- A step is a host access other than WAIT, or the core's turn. -/
theorem step_cases {s t : State} (h : step s = .next t) :
    (∃ op rest, op ≠ .wait ∧ hostMove op { s with host := rest } = .next t) ∨
      ∃ rest, coreTurn { s with host := rest } = .next t := by
  unfold step at h
  split at h
  next => exact .inr ⟨s.host, h⟩
  next op rest _ =>
    rcases eq_or_ne op .wait with rfl | hop
    · exact .inr ⟨rest, h⟩
    · exact .inl ⟨op, rest, hop, h⟩

/-! ### Peek (40_cursor.md R116) -/

theorem peek_lt (c : Cursor) {n : Nat} (hn : n ≤ 32) : peek n c < 2 ^ n := by
  rw [peek, BitVec.toNat_ushiftRight, Nat.shiftRight_eq_div_pow, Nat.div_lt_iff_lt_mul (Nat.two_pow_pos _), ← Nat.pow_add,
    Nat.add_sub_cancel' hn]
  exact c.bitbuf.isLt

theorem peek_testBit (c : Cursor) (n i : Nat) : (peek n c).testBit i = c.bitbuf.getLsbD (32 - n + i) := by
  rw [peek, BitVec.testBit_toNat, BitVec.getLsbD_ushiftRight]

/-! ### The obligations -/

/-- Settles O34: a turn at a 0xFF is decided by the byte after it. -/
theorem stuffingAndMarkers : Obligations.StuffingAndMarkers := by
  unfold Obligations.StuffingAndMarkers
  intro s c hnomore hfirst hsecond hff
  rw [refillByte_of_ff hnomore hfirst hsecond hff]
  exact ⟨fun h => if_pos h, fun h => if_neg h⟩

/-- Settles O35: Peek is a shift; ResetBitCursor and START_SCAN are their definitions, read field by field. -/
theorem peekAndResetCursor : Obligations.PeekAndResetCursor := by
  unfold Obligations.PeekAndResetCursor
  exact ⟨fun c n _ hn => ⟨peek_lt c (by omega), fun i _ => peek_testBit c n i⟩, fun _ => rfl, fun _ => rfl⟩

/-- Settles O37: a turn of padding only counts 8 bits, and of the host's accesses and the ways a command ends only those named
lower NOMORE. -/
theorem zeroPadding : Obligations.ZeroPadding := by
  unfold Obligations.ZeroPadding
  refine ⟨fun s c => refill_of_nomore s, fun s t h hs ht => ?_⟩
  rcases step_cases h with ⟨op, rest, hop, hmove⟩ | ⟨rest, hturn⟩
  · rcases hostMove_nomore hop hmove with hkept | hreset
    · simp [hkept, hs] at ht
    · exact .inr (.inl hreset)
  · rcases coreTurn_lowers_nomore hturn hs ht with hfault | hrearmed
    · exact .inl hfault
    · exact .inr (.inr hrearmed)

end Sys2Proof.Proofs
end

section
/-! SUPPORT. The arrays of a built Huffman table (41_tables.md R144, R145): the rest of what the builder's loop leaves,
delta[] and the bound on the code counter, and the values of a whole fast table. -/
namespace Sys2Proof.Proofs

open Sys2Proof.Machine Sys2Proof.Safety

/-! ### The builder's loop: delta[] and the counter's bound (41_tables.md R143, R144) -/

/-- What a length class that fits leaves in the symbol index and in delta[]; its last code fits in `l` bits. -/
theorem assignLength_ok_delta {l cnt : Nat} {acc acc' : CodeAcc} (h : assignLength l cnt acc = .ok acc') :
    acc'.k = acc.k + cnt ∧ acc'.delta = acc.delta ++ [(acc.k : Int) - acc.code] ∧
      (0 < cnt → acc.code + cnt ≤ 2 ^ l) := by
  simp only [assignLength] at h
  split at h
  · cases h
  · cases h
    exact ⟨rfl, rfl, by omega⟩

theorem assignCodes_delta {l u : Nat} {counts : List Nat} {acc acc' : CodeAcc} (hu : acc.code = 2 * u)
    (h : assignCodes l counts acc = .ok acc') :
    acc'.delta = acc.delta ++ (List.range counts.length).map
      (fun i => ((acc.k + (counts.take i).sum : Nat) : Int) -
        2 * ((counts.take i).foldl (fun u c => 2 * u + c) u : Nat)) := by
  induction counts generalizing l u acc with
  | nil =>
    cases h
    simp
  | cons cnt cs ih =>
    obtain ⟨acc1, h1, hrest⟩ := assignCodes_cons_ok h
    obtain ⟨hcode, -, -⟩ := assignLength_ok h1
    obtain ⟨hk, hdelta, -⟩ := assignLength_ok_delta h1
    rw [ih (u := 2 * u + cnt) (by rw [hcode, hu]) hrest, hdelta, hk, hu]
    simp [List.range_succ_eq_map, Function.comp_def, Nat.add_assoc]

/-- A length class without codes is not checked, but there the counter only doubles with its bound. -/
theorem assignCodes_counter_le {l u : Nat} {counts : List Nat} {acc acc' : CodeAcc} (hu : acc.code = 2 * u)
    (hbound : 2 * u ≤ 2 ^ l) (h : assignCodes l counts acc = .ok acc') {i : Nat} (hi : i < counts.length) :
    (counts.take (i + 1)).foldl (fun u c => 2 * u + c) u ≤ 2 ^ (l + i) := by
  induction counts generalizing l u acc i with
  | nil => simp at hi
  | cons cnt cs ih =>
    obtain ⟨acc1, h1, hrest⟩ := assignCodes_cons_ok h
    obtain ⟨hcode, -, -⟩ := assignLength_ok h1
    obtain ⟨-, -, hfits⟩ := assignLength_ok_delta h1
    have hnext : 2 * u + cnt ≤ 2 ^ l := by
      rcases Nat.eq_zero_or_pos cnt with rfl | hpos
      · exact hbound
      · exact hu ▸ hfits hpos
    cases i with
    | zero => simpa using hnext
    | succ i =>
      rw [show l + (i + 1) = l + 1 + i by omega, List.take_succ_cons, List.foldl_cons]
      exact ih (by rw [hcode, hu]) (by rw [Nat.pow_succ]; omega) hrest (by simpa using hi)

/-- A built table comes from a loop that went through, whose delta[] it holds. -/
theorem buildHuffman_ok_loop {counts : List Nat} {sym : List Byte} {t : HuffTable} (h : buildHuffman counts sym = .ok t) :
    ∃ acc, assignCodes 1 counts ⟨0, 0, [], [], []⟩ = .ok acc ∧ t.delta = acc.delta := by
  unfold buildHuffman at h
  cases h1 : assignCodes 1 counts ⟨0, 0, [], [], []⟩ with
  | error r => simp [h1] at h
  | ok acc =>
    simp only [h1] at h
    cases h
    exact ⟨acc, rfl, rfl⟩

section
variable {counts : List Nat} {sym : List Byte} {t : HuffTable}

theorem deltaAt_of_build (hrec : LegalRecord counts sym) (hb : buildHuffman counts sym = .ok t) {i : Nat} (hi : i < 16) :
    deltaAt t (i + 1) = ((counts.take i).sum : Int) - 2 * codesUsed counts i := by
  obtain ⟨hlen, -, -⟩ := hrec
  obtain ⟨acc, hloop, hdelta⟩ := buildHuffman_ok_loop hb
  rw [deltaAt, hdelta, assignCodes_delta (u := 0) rfl hloop]
  simp [hlen, hi, codesUsed]

theorem codesUsed_le_of_build (hrec : LegalRecord counts sym) (hb : buildHuffman counts sym = .ok t) {l : Nat}
    (hpos : 1 ≤ l) (hl : l ≤ 16) : codesUsed counts l ≤ 2 ^ l := by
  obtain ⟨hlen, -, -⟩ := hrec
  obtain ⟨acc, hloop, -⟩ := buildHuffman_ok_loop hb
  obtain ⟨i, rfl⟩ : ∃ i, l = i + 1 := ⟨l - 1, by omega⟩
  have hle := assignCodes_counter_le (u := 0) (i := i) rfl (by norm_num) hloop (by omega)
  rwa [Nat.add_comm 1 i] at hle

theorem maxcodeAt_le_of_build (hrec : LegalRecord counts sym) (hb : buildHuffman counts sym = .ok t) {l : Nat}
    (hpos : 1 ≤ l) (hl : l ≤ 16) : maxcodeAt t l ≤ 2 ^ 16 :=
  calc maxcodeAt t l = codesUsed counts l * 2 ^ (16 - l) := maxcodeAt_of_build hrec hb hpos hl
    _ ≤ 2 ^ l * 2 ^ (16 - l) := Nat.mul_le_mul_right _ (codesUsed_le_of_build hrec hb hpos hl)
    _ = 2 ^ 16 := by rw [← Nat.pow_add, Nat.add_sub_cancel' hl]

theorem maxcodeAt_seventeen (hrec : LegalRecord counts sym) (hb : buildHuffman counts sym = .ok t) :
    maxcodeAt t 17 = maxcodeInfinity := by
  obtain ⟨hlen, -, -⟩ := hrec
  obtain ⟨-, -, hmaxcode, -⟩ := buildHuffman_ok hb
  simp [maxcodeAt, hmaxcode, hlen]

/-- Every symbol of a built table is named by its place in a length class of the record. -/
theorem exists_classPosition_of_build (hrec : LegalRecord counts sym) (hb : buildHuffman counts sym = .ok t) {k : Nat}
    (hk : k < t.n) : ∃ i j, i < 16 ∧ j < counts.getD i 0 ∧ k = (counts.take i).sum + j := by
  obtain ⟨hlen, -, -⟩ := hrec
  obtain ⟨hn, -⟩ := buildHuffman_ok hb
  exact hlen ▸ exists_classPosition (hn ▸ hk)

/-- delta[] leads from a code to its symbol's index: both count up from the start of the length class. -/
theorem codeAt_add_deltaAt (hrec : LegalRecord counts sym) (hb : buildHuffman counts sym = .ok t) {k : Nat} (hk : k < t.n) :
    (codeAt t k : Int) + deltaAt t (sizeAt t k) = k := by
  obtain ⟨i, j, hi, hj, rfl⟩ := exists_classPosition_of_build hrec hb hk
  obtain ⟨-, hsize, hcode⟩ := symbol_of_classPosition hb hj
  rw [hsize, hcode, deltaAt_of_build hrec hb hi]
  push_cast
  ring

end

/-- Settles O30: each array entry is what the loop over the length classes appends. -/
theorem builderArrays : Obligations.BuilderArrays := by
  unfold Obligations.BuilderArrays
  intro counts sym t hrec hb
  refine ⟨fun l hpos hl => ⟨maxcodeAt_of_build hrec hb hpos hl, maxcodeAt_le_of_build hrec hb hpos hl, ?_⟩,
    maxcodeAt_seventeen hrec hb, fun k => codeAt_add_deltaAt hrec hb⟩
  obtain ⟨i, rfl⟩ : ∃ i, l = i + 1 := ⟨l - 1, by omega⟩
  exact deltaAt_of_build hrec hb hl

/-! ### The fast table (41_tables.md R145) -/

theorem buildFast_length (k : Nat) (scs : List (Nat × Nat)) (fast : List Byte) :
    (buildFast k scs fast).length = fast.length := by
  induction scs generalizing k fast with
  | nil => rfl
  | cons sc rest ih => rw [buildFast, ih, fillFast_length]

theorem built_fast_length {t : HuffTable} (ht : Built t) : t.fast.length = 512 := by
  rw [built_fast ht, buildFast_length, List.length_replicate]

/-- Settles O31: at most one code begins an index, so the symbol an entry names is the one whose code does. -/
theorem fastTable : Obligations.FastTable := by
  unfold Obligations.FastTable
  refine fun t ht => ⟨built_fast_length ht, fun i hi => ?_⟩
  obtain ⟨hentry, hnone⟩ | ⟨k, hk, ⟨hsize, hcode⟩, hentry⟩ := built_fast_cases ht hi
  · exact ⟨fun k hk hsize hcode => absurd ⟨hsize, hcode⟩ (hnone k hk), fun _ => hentry⟩
  · refine ⟨fun m hm hmsize hmcode => ?_, fun hnone => absurd hcode (hnone k hk hsize)⟩
    rw [built_symbol_unique ht hm hk hmsize hsize hmcode hcode, hentry]

end Sys2Proof.Proofs
end

section
/-! SUPPORT. The table lookup (41_tables.md R147; 42_entropy.md R170, R171): the fast path and the slow path of a built table
both answer with the one symbol whose code begins the bits, and with BAD_HUFFMAN_CODE(1) where there is none. -/
namespace Sys2Proof.Proofs

open Sys2Proof.Machine Sys2Proof.Safety

/-! ### Leading bits (00_scope.md R6; 40_cursor.md R116) -/

theorem peek_eq_leadingBits (n : Nat) (c : Cursor) : peek n c = leadingBits c.bitbuf n := by
  rw [peek, BitVec.toNat_ushiftRight, Nat.shiftRight_eq_div_pow, leadingBits]

/-- The first `m` of the first `n` bits. -/
theorem peek_div_pow (c : Cursor) {m n : Nat} (hmn : m ≤ n) (hn : n ≤ 32) : peek n c / 2 ^ (n - m) = peek m c := by
  rw [peek_eq_leadingBits, peek_eq_leadingBits, leadingBits, leadingBits, Nat.div_div_eq_div_mul, ← Nat.pow_add]
  congr 2
  omega

/-- The bits begin with the code of symbol `k`. -/
def BitsBegin (t : HuffTable) (c : Cursor) (k : Nat) : Prop :=
  k < t.n ∧ leadingBits c.bitbuf (sizeAt t k) = codeAt t k

theorem bitsBegin_unique {t : HuffTable} (ht : Built t) {c : Cursor} {j k : Nat} (hj : BitsBegin t c j)
    (hk : BitsBegin t c k) : j = k :=
  built_symbol_unique ht hj.1 hk.1 ((built_size_le ht j).trans (by decide)) ((built_size_le ht k).trans (by decide))
    hj.2 hk.2

/-- An answer of canonical decoding: the symbol whose code begins the bits, or BAD_HUFFMAN_CODE(1). -/
def CanonicalAnswer (t : HuffTable) (c : Cursor) (r : Except Raised (Byte × Cursor)) : Prop :=
  (∃ k, BitsBegin t c k ∧ r = .ok (t.values.getD k 0, consume (sizeAt t k) c)) ∨
    ((∀ k, ¬ BitsBegin t c k) ∧ r = .error ⟨.badHuffmanCode, 1⟩)

/-! ### The slow path (42_entropy.md R171) -/

section
variable {counts : List Nat} {sym : List Byte} {t : HuffTable}

/-- The slow path's comparison of 16 aligned bits is one of `l` bits with the code counter. -/
theorem peek_lt_maxcodeAt_iff (hrec : LegalRecord counts sym) (hb : buildHuffman counts sym = .ok t) (c : Cursor) {l : Nat}
    (hpos : 1 ≤ l) (hl : l ≤ 16) : peek 16 c < maxcodeAt t l ↔ peek l c < codesUsed counts l := by
  rw [maxcodeAt_of_build hrec hb hpos hl, ← Nat.div_lt_iff_lt_mul (Nat.two_pow_pos _), peek_div_pow c hl (by decide)]

/-- At the length of a symbol whose code begins the bits, the bits are below the code counter. -/
theorem peek_lt_codesUsed_of_begins (hrec : LegalRecord counts sym) (hb : buildHuffman counts sym = .ok t) {c : Cursor}
    {k : Nat} (h : BitsBegin t c k) : ∃ l, 1 ≤ l ∧ l ≤ 16 ∧ peek l c < codesUsed counts l := by
  obtain ⟨hk, hcode⟩ := h
  obtain ⟨i, j, hi, hj, rfl⟩ := exists_classPosition_of_build hrec hb hk
  obtain ⟨-, hsize, hcodeAt⟩ := symbol_of_classPosition hb hj
  rw [hsize, hcodeAt, ← peek_eq_leadingBits] at hcode
  exact ⟨i + 1, by omega, hi, by rw [hcode, codesUsed_succ (by rwa [hrec.1])]; omega⟩

/-- The first length at which the bits are below the code counter: there they are not below the length's first code. -/
theorem firstCode_le_peek {c : Cursor} {i : Nat} (hi : i < 16)
    (hmin : ∀ j, 1 ≤ j → j < i + 1 → codesUsed counts j ≤ peek j c) : 2 * codesUsed counts i ≤ peek (i + 1) c := by
  rcases Nat.eq_zero_or_pos i with rfl | hpos
  · exact Nat.zero_le _
  · have hshorter := hmin i hpos (Nat.lt_succ_self i)
    rw [← peek_div_pow c (Nat.le_add_right i 1) (by omega), Nat.add_sub_cancel_left, pow_one] at hshorter
    omega

/-- The slow path at the first length at which the bits are below the code counter finds the symbol at their place. -/
theorem slowPath_of_place (hrec : LegalRecord counts sym) (hb : buildHuffman counts sym = .ok t) {c : Cursor} {i j : Nat}
    (hi : i < 16) (hj : j < counts.getD i 0) (hpeek : peek (i + 1) c = 2 * codesUsed counts i + j)
    (hfind : (List.range' 1 16).find? (fun l => decide (peek 16 c < maxcodeAt t l)) = some (i + 1)) :
    slowPath t c = .ok (t.values.getD ((counts.take i).sum + j) 0, consume (i + 1) c) := by
  obtain ⟨hlt, -, -⟩ := symbol_of_classPosition hb hj
  have hindex : (peek (i + 1) c : Int) + deltaAt t (i + 1) = ((counts.take i).sum + j : Nat) := by
    rw [hpeek, deltaAt_of_build hrec hb hi]
    push_cast
    ring
  simp only [slowPath, hfind, hindex, Int.toNat_natCast]
  rw [if_neg (by omega)]

end

theorem slowPath_canonical {t : HuffTable} (ht : Built t) (c : Cursor) : CanonicalAnswer t c (slowPath t c) := by
  obtain ⟨counts, sym, hrec, hb⟩ := ht
  have hiff {l : Nat} (hpos : 1 ≤ l) (hl : l ≤ 16) := peek_lt_maxcodeAt_iff hrec hb c hpos hl
  cases hfind : (List.range' 1 16).find? (fun l => decide (peek 16 c < maxcodeAt t l)) with
  | none =>
    refine .inr ⟨fun k hk => ?_, by simp only [slowPath, hfind]⟩
    obtain ⟨l, hpos, hl, hbelow⟩ := peek_lt_codesUsed_of_begins hrec hb hk
    have habove := List.find?_eq_none.mp hfind l (List.mem_range'_1.mpr ⟨hpos, by omega⟩)
    exact habove (decide_eq_true ((hiff hpos hl).mpr hbelow))
  | some l =>
    obtain ⟨hp, hmem, hfirst⟩ := List.find?_range'_eq_some.mp hfind
    obtain ⟨hpos, hl⟩ := List.mem_range'_1.mp hmem
    obtain ⟨i, rfl⟩ : ∃ i, l = i + 1 := ⟨l - 1, by omega⟩
    have hi : i < 16 := by omega
    have hhigh : peek (i + 1) c < codesUsed counts (i + 1) := (hiff hpos hi).mp (of_decide_eq_true hp)
    have hlow : 2 * codesUsed counts i ≤ peek (i + 1) c := by
      refine firstCode_le_peek hi fun j hj hji => Nat.le_of_not_lt fun hbelow => ?_
      simpa [(hiff hj (by omega)).mpr hbelow] using hfirst j hj hji
    rw [codesUsed_succ (by rwa [hrec.1])] at hhigh
    obtain ⟨j, hpeek⟩ := Nat.exists_eq_add_of_le hlow
    have hj : j < counts.getD i 0 := by omega
    obtain ⟨hk, hsize, hcode⟩ := symbol_of_classPosition hb hj
    refine .inl ⟨(counts.take i).sum + j, ⟨hk, ?_⟩, ?_⟩
    · rw [hsize, hcode, ← peek_eq_leadingBits, hpeek]
    · rw [hsize, slowPath_of_place hrec hb hi hj hpeek hfind]

/-! ### The fast path (42_entropy.md R170) -/

theorem lookupSymbol_eq (t : HuffTable) (c : Cursor) :
    lookupSymbol t c =
      if (t.fast.getD (peek 9 c) 0xFF).toNat ≠ 0xFF then
        .ok (t.values.getD (t.fast.getD (peek 9 c) 0xFF).toNat 0,
          consume (sizeAt t (t.fast.getD (peek 9 c) 0xFF).toNat) c)
      else slowPath t c := rfl

/-- Where the fast table does not say 0xFF it names the symbol whose code begins the bits. -/
theorem bitsBegin_of_fast {t : HuffTable} (ht : Built t) {c : Cursor}
    (hFF : (t.fast.getD (peek 9 c) 0xFF).toNat ≠ 0xFF) : BitsBegin t c (t.fast.getD (peek 9 c) 0xFF).toNat := by
  have hi : peek 9 c < 512 := peek_lt c (by decide)
  have hdefault : t.fast.getD (peek 9 c) 0xFF = t.fast.getD (peek 9 c) 0 := by
    simp [built_fast_length ht, hi]
  rw [hdefault] at hFF ⊢
  obtain ⟨hentry, -⟩ | ⟨k, hk, ⟨hsize, hcode⟩, hentry⟩ := built_fast_cases ht hi
  · exact absurd (by rw [hentry]; rfl) hFF
  · have htoNat : (t.fast.getD (peek 9 c) 0).toNat = k := by
      have := built_n_le ht
      rw [hentry, BitVec.toNat_ofNat, Nat.mod_eq_of_lt (by omega)]
    rw [htoNat]
    exact ⟨hk, by rw [← peek_eq_leadingBits, ← hcode, peek_div_pow c hsize (by decide)]⟩

theorem lookupSymbol_canonical {t : HuffTable} (ht : Built t) (c : Cursor) : CanonicalAnswer t c (lookupSymbol t c) := by
  rw [lookupSymbol_eq]
  split
  next hFF => exact .inl ⟨_, bitsBegin_of_fast ht hFF, rfl⟩
  next => exact slowPath_canonical ht c

theorem lookupSymbol_of_begins {t : HuffTable} (ht : Built t) {c : Cursor} {k : Nat} (hk : BitsBegin t c k) :
    lookupSymbol t c = .ok (t.values.getD k 0, consume (sizeAt t k) c) := by
  obtain ⟨j, hj, hr⟩ | ⟨hnone, -⟩ := lookupSymbol_canonical ht c
  · rwa [bitsBegin_unique ht hj hk] at hr
  · exact absurd hk (hnone k)

theorem lookupSymbol_of_none {t : HuffTable} (ht : Built t) {c : Cursor} (hnone : ∀ k, ¬ BitsBegin t c k) :
    lookupSymbol t c = .error ⟨.badHuffmanCode, 1⟩ := by
  obtain ⟨k, hk, -⟩ | ⟨-, hr⟩ := lookupSymbol_canonical ht c
  · exact absurd hk (hnone k)
  · exact hr

/-! ### CanonicalDecode (41_tables.md R147) -/

/-- CanonicalDecode finds a symbol whose code begins the bits, or there is none. -/
theorem canonicalDecode_cases (t : HuffTable) (c : Cursor) :
    (∃ k, BitsBegin t c k ∧ canonicalDecode t c.bitbuf = some (t.values.getD k 0, sizeAt t k)) ∨
      ((∀ k, ¬ BitsBegin t c k) ∧ canonicalDecode t c.bitbuf = none) := by
  unfold canonicalDecode
  cases hfind : (List.range t.n).find? (fun k => leadingBits c.bitbuf (sizeAt t k) == codeAt t k) with
  | none =>
    refine .inr ⟨fun k ⟨hk, hcode⟩ => ?_, rfl⟩
    exact List.find?_eq_none.mp hfind k (List.mem_range.mpr hk) (beq_iff_eq.mpr hcode)
  | some k =>
    have hk := List.mem_range.mp (List.mem_of_find?_eq_some hfind)
    have hcode := List.find?_some hfind
    exact .inl ⟨k, ⟨hk, beq_iff_eq.mp hcode⟩, rfl⟩

/-- Settles O33: both paths answer canonically, the fast path by what its entry names and the slow path by the place of the
bits in their length class. -/
theorem lookupIsCanonical : Obligations.LookupIsCanonical := by
  unfold Obligations.LookupIsCanonical
  refine fun t ht c => ⟨fun j k hj hk hcj hck => bitsBegin_unique ht ⟨hj, hcj⟩ ⟨hk, hck⟩,
    fun k hk hcode => lookupSymbol_of_begins ht ⟨hk, hcode⟩,
    fun hnone => lookupSymbol_of_none ht fun k ⟨hk, hcode⟩ => hnone k hk hcode, ?_⟩
  obtain ⟨k, hk, hdecode⟩ | ⟨hnone, hdecode⟩ := canonicalDecode_cases t c
  · rw [hdecode, lookupSymbol_of_begins ht hk]
  · rw [hdecode, lookupSymbol_of_none ht hnone]

end Sys2Proof.Proofs
end

section
/-! SUPPORT. ReceiveExtend (42_entropy.md R172): the range of the extended value, that a 32-bit word holds it, and what
ReceiveExtend answers by its refill. -/
namespace Sys2Proof.Proofs

open Sys2Proof.Machine Sys2Proof.Safety

/-! ### The extended value (42_entropy.md R172) -/

/-- A value below 2^(n-1) goes to the negative half, any other stays in the positive half. -/
theorem extended_range {n v : Nat} (hn : 1 ≤ n) (hv : v < 2 ^ n) :
    (-(2 ^ n - 1) ≤ extended n v ∧ extended n v ≤ -2 ^ (n - 1)) ∨
      (2 ^ (n - 1) ≤ extended n v ∧ extended n v ≤ 2 ^ n - 1) := by
  have hdouble : (2 : Int) ^ n = 2 * 2 ^ (n - 1) := (mul_pow_sub_one (by omega) 2).symm
  zify at hv
  unfold extended
  split
  next hneg =>
    zify at hneg
    exact .inl (by omega)
  next hpos =>
    zify at hpos
    exact .inr (by omega)

/-- A word holds the extended value, since it needs no more than n + 1 bits with its sign. -/
theorem extend_toInt {n v : Nat} (hn : n ≤ 31) (hv : v < 2 ^ n) : (extend n v).toInt = extended n v := by
  have hpow : 2 ^ n ≤ 2 ^ 31 := Nat.pow_le_pow_right (by norm_num) hn
  unfold extend extended
  split
  · zify at hv hpow
    exact BitVec.toInt_ofInt_eq_self (by norm_num) (by omega) (by omega)
  · rw [BitVec.toInt_ofNat']
    exact Int.bmod_eq_of_le (by omega) (by omega)

/-! ### ReceiveExtend by its refill -/

theorem receiveExtend_zero (s : State) (c : Cursor) : receiveExtend s 0 c = .ok (0, c) := rfl

section
variable {s : State} {n : Nat} {c : Cursor}

theorem refillBelow_of_le (h : n ≤ c.bitcnt.toNat) : refillBelow s n c = .ok c :=
  if_neg (Nat.not_lt.2 h)

theorem refillBelow_of_lt (h : c.bitcnt.toNat < n) : refillBelow s n c = refill s c :=
  if_pos h

theorem receiveExtend_of_error {r : Raised} (hn : 1 ≤ n) (h : refillBelow s n c = .error r) :
    receiveExtend s n c = .error r := by
  rw [receiveExtend, if_neg (by omega), h]

theorem receiveExtend_of_ok {c1 : Cursor} (hn : 1 ≤ n) (h : refillBelow s n c = .ok c1) :
    receiveExtend s n c = .ok (extend n (peek n c1), consume n c1) := by
  rw [receiveExtend, if_neg (by omega), h]

/-- ReceiveExtend that has its bits returns their extended value and consumes them. -/
theorem receiveExtend_value {c1 : Cursor} (hn : 1 ≤ n) (hle : n ≤ 16) (h : refillBelow s n c = .ok c1) :
    ∃ v : Word, receiveExtend s n c = .ok (v, consume n c1) ∧ v.toInt = extended n (peek n c1) :=
  ⟨extend n (peek n c1), receiveExtend_of_ok hn h, extend_toInt (by omega) (peek_lt c1 (by omega))⟩

end

/-! ### The obligation -/

/-- Settles O43: the cases are those of the refill (no bits asked, enough valid, a refill that fails or succeeds), and the
range is that of the extended value of n peeked bits. -/
theorem receiveExtendValue : Obligations.ReceiveExtendValue := by
  unfold Obligations.ReceiveExtendValue
  refine fun s n c hle => ⟨?zero, fun hn henough => ?enough, fun hn hfew => ⟨fun r hr => ?fails, fun c1 hc1 => ?refilled⟩,
    fun hn c1 => ?range⟩
  case zero =>
    rintro rfl
    exact receiveExtend_zero s c
  case enough => exact receiveExtend_value hn hle (refillBelow_of_le henough)
  case fails => exact receiveExtend_of_error hn ((refillBelow_of_lt hfew).trans hr)
  case refilled => exact receiveExtend_value hn hle ((refillBelow_of_lt hfew).trans hc1)
  case range => exact extended_range hn (peek_lt c1 (by omega))

end Sys2Proof.Proofs
end

section
/-! SUPPORT. The DC predictor (42_entropy.md R175; 44_scan.md R220, R221, R223): the commands that reset every predictor, that
the DC difference is decoded from the stream alone, and that the AC loop leaves COEF[0]. -/
namespace Sys2Proof.Proofs

open Sys2Proof.Machine

/-! ### The commands that reset the predictors (44_scan.md R220, R221) -/

@[simp] theorem rearm_dcpred_get (c : Cursor) (s : State) (i : Fin 4) : (rearm c s).dcpred.get i = 0 := by
  simp [Vector.get_eq_getElem]

theorem startScan_dcpred {s t : State} (h : exec .startScan s = .next t) (i : Fin 4) : t.dcpred.get i = 0 := by
  cases h
  exact rearm_dcpred_get s.cur s i

/-- RESULT 1 is the restart taken alone: the other completions give 0 or 2, and a fault sets FAULT. -/
theorem endMcu_restart {s t : State} (h : exec .endMcu s = .next t) (hfault : t.fault = false) (hresult : t.result = 1) :
    ∃ c, t = complete 1 (rearm c s) := by
  obtain ⟨t', h', hend⟩ := execEndMcu_cases s
  obtain rfl : t' = t := Host.Outcome.next.inj (h'.symm.trans h)
  obtain ⟨-, rfl⟩ | ⟨-, -, rfl⟩ | ⟨-, -, ⟨r, -, rfl⟩ | ⟨c, -, -, rfl⟩ | ⟨c, -, -, rfl⟩⟩ := hend
  case inr.inr.inr.inl => exact ⟨c, rfl⟩
  all_goals simp at hfault hresult

/-! ### The DC part (42_entropy.md R175) -/

/-- The reader and the lookup take from the state the stream's bounds and bytes, so the predictors do not enter. -/
theorem decodeDc_with_dcpred (s : State) (p : Vector Word 4) (t : HuffTable) (c : Cursor) :
    decodeDc { s with dcpred := p } t c = decodeDc s t c := rfl

/-! ### The AC loop (42_entropy.md R175, R177) -/

theorem zigzagTable_get_ne_zero : ∀ j : Fin 64, j ≠ 0 → zigzagTable.get j ≠ 0 := by decide

/-- Only position 0 of the zigzag order is stored to COEF[0]. -/
theorem storeCoef_get_zero {s : State} (hzz : s.config.zigzag = zigzagTable) {k : Nat} (hk : 1 ≤ k) (hlt : k < 64) (v : Word)
    (coef : Vector Word 64) : (storeCoef s k v coef).get 0 = coef.get 0 := by
  have hpos : Fin.ofNat 64 k ≠ 0 := fun h => by
    have hmod : k % 64 = 0 := congrArg Fin.val h
    omega
  have hne : s.config.zigzag.get (Fin.ofNat 64 k) ≠ 0 := hzz ▸ zigzagTable_get_ne_zero _ hpos
  exact Vector.getElem_set_ne _ _ (Fin.val_ne_of_ne hne)

/-- The AC loop starts at position 1 and only moves on, so COEF[0] stays what the DC part made it. -/
theorem acLoop_coef_zero {s : State} (hzz : s.config.zigzag = zigzagTable) {t : HuffTable} {q : Vector Byte 64} {n : Nat}
    {b b' : BlockState} (hk : 1 ≤ b.k) (h : acLoop s t q n b = .ok b') : b'.coef.get 0 = b.coef.get 0 := by
  refine (acLoop_induct (fun x => 1 ≤ x.k ∧ x.coef.get 0 = b.coef.get 0) ?turn n ⟨hk, rfl⟩ h).2
  intro b1 b2 last ⟨hk1, hcoef⟩ _ hstep
  obtain ⟨rs, c1, -, ⟨-, -, -, rfl⟩ | ⟨-, hle, v, c2, -, rfl⟩⟩ := acStep_ok hstep
  · exact ⟨by dsimp only; omega, hcoef⟩
  · exact ⟨by dsimp only; omega, (storeCoef_get_zero hzz (by omega) (by omega) _ _).trans hcoef⟩

/-! ### A completed block (42_entropy.md R175, R176) -/

/-- COEF[0] of a decoded block is the predictor dequantized (42_entropy.md R175, R176). -/
theorem decodeBlockData_coef_zero {s : State} (hzz : s.config.zigzag = zigzagTable) {tdc tac : HuffTable}
    {q : Vector Byte 64} {c : Fin 4} {pred : Word} {b : BlockState} (h : decodeBlockData s tdc tac q c = .ok (pred, b)) :
    b.coef.get 0 = pred * (q.get 0).setWidth 32 := by
  obtain ⟨d, c1, -, -, hloop⟩ := decodeBlockData_ok h
  exact acLoop_coef_zero hzz (Nat.le_refl 1) hloop

/-- A DECODE_BLOCK without a fault had its slots bound and decoded its block (42_entropy.md R175). -/
theorem decodeBlock_completes {s t : State} {dc ac q c : Fin 4} (h : exec (.decodeBlock dc ac q c) s = .next t)
    (hfault : t.fault = false) :
    ∃ tdc tac quant pred b, s.ht.get (dcSlot dc) = some tdc ∧ s.ht.get (acSlot ac) = some tac ∧
      s.qt.get q = some quant ∧ decodeBlockData s tdc tac quant c = .ok (pred, b) ∧
      t = complete (BitVec.ofNat 32 b.k) { s with cur := b.cur, dcpred := s.dcpred.set c pred, coef := b.coef } := by
  obtain ⟨t', h', hend⟩ := execDecodeBlock_cases dc ac q c s
  obtain rfl : t' = t := Host.Outcome.next.inj (h'.symm.trans h)
  obtain ⟨info, rfl⟩ | ⟨tdc, tac, quant, hdc, hac, hq, ⟨r, -, rfl⟩ | ⟨pred, b, hdata, ht⟩⟩ := hend
  · simp at hfault
  · simp at hfault
  · exact ⟨tdc, tac, quant, pred, b, hdc, hac, hq, hdata, ht⟩

/-! ### The obligation -/

/-- Settles O54: START_SCAN and a taken restart rearm, and a decoded block's new predictor is the old one, 0, plus its own
difference, which the AC loop leaves dequantized in COEF[0]. -/
theorem predictorReset : Obligations.PredictorReset := by
  unfold Obligations.PredictorReset
  refine ⟨?reset, ?firstBlock⟩
  case reset =>
    rintro s t (hstart | ⟨hend, -, hfault, hresult⟩) i
    · exact startScan_dcpred hstart i
    · obtain ⟨c, rfl⟩ := endMcu_restart hend hfault hresult
      exact rearm_dcpred_get c s i
  case firstBlock =>
    intro s t dc ac q c hzero hzz _ hexec hfault
    obtain ⟨tdc, tac, quant, pred, b, hdc, -, hq, hdata, rfl⟩ := decodeBlock_completes hexec hfault
    obtain ⟨d, c1, hd, hpred, -⟩ := decodeBlockData_ok hdata
    obtain rfl : pred = d := by rw [hpred, hzero, zero_add]
    exact ⟨tdc, quant, pred, c1, hdc, hq, hd, fun p => (decodeDc_with_dcpred s p tdc s.cur).trans hd,
      Vector.getElem_set_self c.isLt, decodeBlockData_coef_zero hzz hdata⟩

end Sys2Proof.Proofs
end

section
/-! SUPPORT. The YCbCr→RGB conversion over the integers (46_color.md R261, R264): a channel is the luma plus a chroma term,
shifted and clamped, and with the default CSC_COEF no chroma term is large enough to wrap the sum. -/
namespace Sys2Proof.Proofs

open Sys2Proof.Machine Sys2Proof.Safety

/-! ### The clamp (00_scope.md R7) -/

theorem clampByte_toNat (x : Word) : (clampByte x).toNat = clamp255 x.toInt := by
  unfold clampByte clamp255
  split
  case isTrue hneg =>
    change 0 = _
    omega
  case isFalse hneg =>
    split
    case isTrue hbig =>
      change 255 = _
      omega
    case isFalse hbig =>
      have hx : x.toInt = (x.toNat : Int) := by rw [BitVec.toInt_eq_toNat_cond] at hneg ⊢; split <;> omega
      rw [BitVec.toNat_setWidth]
      omega

theorem clamp255_mono {a b : Int} (h : a ≤ b) : clamp255 a ≤ clamp255 b :=
  Int.toNat_le_toNat (max_le_max_left 0 (min_le_min_right 255 h))

theorem clamp255_byte (y : Byte) : clamp255 y.toNat = y.toNat := by
  unfold clamp255
  omega

/-! ### A channel is the luma plus a chroma term (46_color.md R261) -/

/-- Cb or Cr less its neutral value 128, as R261 takes it. -/
def chromaOffset (c : Byte) : Word := c.setWidth 32 - 128

/-- One channel of R261: yf plus the chroma term `d`, shifted right by 16 and clamped. -/
def colorChannel (y : Byte) (d : Word) : Byte := clampByte (((y.setWidth 32 <<< 16) + 32768 + d).sshiftRight 16)

theorem yccPixel_eq (k : CscCoef) (y cb cr : Byte) : yccPixel k y cb cr =
    { r := colorChannel y (k.rCr * chromaOffset cr)
      g := colorChannel y (-(k.gCr * chromaOffset cr) - k.gCb * chromaOffset cb)
      b := colorChannel y (k.bCb * chromaOffset cb) } := by
  have hg (yf a b : Word) : yf - a - b = yf + (-a - b) := by ring
  simp only [yccPixel, colorChannel, chromaOffset, hg]

@[simp] theorem chromaOffset_neutral : chromaOffset 128#8 = 0#32 := rfl

theorem chromaOffset_toInt (c : Byte) : (chromaOffset c).toInt = (c.toNat : Int) - 128 := by
  unfold chromaOffset
  have h128 : (128 : Word).toInt = 128 := rfl
  rw [BitVec.toInt_sub, BitVec.toInt_setWidth, h128, Int.bmod_eq_of_le (n := c.toNat) (by omega) (by omega)]
  exact Int.bmod_eq_of_le (by omega) (by omega)

/-! ### No intermediate wraps (46_color.md section 2) -/

theorem lumaFixed_toInt (y : Byte) :
    ((y.setWidth 32 <<< 16) + 32768 : Word).toInt = (y.toNat : Int) * 65536 + 32768 := by
  have hy : ((y.setWidth 32 <<< 16) + 32768 : Word).toNat = y.toNat * 65536 + 32768 := by
    bv_omega
  rw [BitVec.toInt_eq_toNat_of_lt (by omega), hy]
  rfl

/-- A chroma term below 2^30 in size leaves the sum with yf inside 32 bits, signed. -/
theorem colorChannel_toNat (y : Byte) {d : Word} (hlow : -2 ^ 30 ≤ d.toInt) (hhigh : d.toInt ≤ 2 ^ 30) :
    (colorChannel y d).toNat = clamp255 (((y.toNat : Int) * 65536 + 32768 + d.toInt) / 65536) := by
  unfold colorChannel
  rw [clampByte_toNat, BitVec.toInt_sshiftRight, BitVec.toInt_add, lumaFixed_toInt, Int.shiftRight_eq_div_pow,
    Int.bmod_eq_of_le (by omega) (by omega)]
  rfl

theorem colorChannel_mono {y y' : Byte} {d : Word} (hlow : -2 ^ 30 ≤ d.toInt) (hhigh : d.toInt ≤ 2 ^ 30)
    (h : y.toNat ≤ y'.toNat) : (colorChannel y d).toNat ≤ (colorChannel y' d).toNat := by
  rw [colorChannel_toNat y hlow hhigh, colorChannel_toNat y' hlow hhigh]
  exact clamp255_mono (Int.ediv_le_ediv (by norm_num) (by omega))

/-- With no chroma term the rounding constant 32768 is all that yf >> 16 drops. -/
@[simp] theorem colorChannel_zero (y : Byte) : colorChannel y 0#32 = y := by
  apply BitVec.eq_of_toNat_eq
  have hfloor : ((y.toNat : Int) * 65536 + 32768 + (0#32).toInt) / 65536 = y.toNat := by
    rw [BitVec.toInt_zero]
    omega
  rw [colorChannel_toNat y (by decide) (by decide), hfloor, clamp255_byte]

/-! ### The chroma terms of the default CSC_COEF (46_color.md R261) -/

theorem coef_mul_offset_bounds {k : Nat} (hk : k < 2 ^ 17) (c : Byte) :
    -2 ^ 24 ≤ (k : Int) * ((c.toNat : Int) - 128) ∧ (k : Int) * ((c.toNat : Int) - 128) ≤ 2 ^ 24 := by
  have hlow : (k : Int) * -128 ≤ k * ((c.toNat : Int) - 128) := by gcongr; omega
  have hhigh : (k : Int) * ((c.toNat : Int) - 128) ≤ k * 128 := by gcongr; omega
  omega

theorem chromaTerm_toInt {k : Word} (hk : k.toNat < 2 ^ 17) (c : Byte) :
    (k * chromaOffset c).toInt = k.toNat * ((c.toNat : Int) - 128) := by
  obtain ⟨hlow, hhigh⟩ := coef_mul_offset_bounds hk c
  rw [BitVec.toInt_mul, chromaOffset_toInt, BitVec.toInt_eq_toNat_of_lt (by omega)]
  exact Int.bmod_eq_of_le (by omega) (by omega)

/-- Every default coefficient is below 2^17 and a chroma offset is at most 128 in size. -/
theorem chromaTerm_bounds {k : Word} (hk : k.toNat < 2 ^ 17) (c : Byte) :
    -2 ^ 24 ≤ (k * chromaOffset c).toInt ∧ (k * chromaOffset c).toInt ≤ 2 ^ 24 :=
  chromaTerm_toInt hk c ▸ coef_mul_offset_bounds hk c

/-- G subtracts two chroma terms, and two terms below 2^24 do not wrap either. -/
theorem neg_sub_toInt {a b : Word} (ha : -2 ^ 24 ≤ a.toInt ∧ a.toInt ≤ 2 ^ 24)
    (hb : -2 ^ 24 ≤ b.toInt ∧ b.toInt ≤ 2 ^ 24) : (-a - b).toInt = -a.toInt - b.toInt := by
  rw [BitVec.toInt_sub, BitVec.toInt_neg, Int.bmod_eq_of_le (n := -a.toInt) (by omega) (by omega)]
  exact Int.bmod_eq_of_le (by omega) (by omega)

/-! ### The obligation -/

theorem yccPixel_neutral (k : CscCoef) (y : Byte) : yccPixel k y 128 128 = ⟨y, y, y⟩ := by
  simp [yccPixel_eq]

/-- Settles O59: a channel is monotone in Y for any chroma term that does not wrap, and R takes its term from Cr alone, B
from Cb alone. -/
theorem colorProperties : Obligations.ColorProperties := by
  unfold Obligations.ColorProperties
  refine ⟨yccPixel_neutral defaultCsc, ?monotone, ?redWithoutCb, ?blueWithoutCr⟩
  case monotone =>
    intro y y' cb cr hy
    have hr := chromaTerm_bounds (k := defaultCsc.rCr) (by decide) cr
    have hgCr := chromaTerm_bounds (k := defaultCsc.gCr) (by decide) cr
    have hgCb := chromaTerm_bounds (k := defaultCsc.gCb) (by decide) cb
    have hb := chromaTerm_bounds (k := defaultCsc.bCb) (by decide) cb
    have hg := neg_sub_toInt hgCr hgCb
    simp only [yccPixel_eq]
    exact ⟨colorChannel_mono (by omega) (by omega) hy, colorChannel_mono (by omega) (by omega) hy,
      colorChannel_mono (by omega) (by omega) hy⟩
  case redWithoutCb =>
    intro y cb cb' cr
    simp only [yccPixel_eq]
  case blueWithoutCr =>
    intro y cb cr cr'
    simp only [yccPixel_eq]

end Sys2Proof.Proofs
end

section
/-! SUPPORT. The interrupt line and OVERRUN (60_exceptions.md R291, R293, R294): what each register write and each end of a
command does to irq, and which steps lower it while FAULT = 1. -/
namespace Sys2Proof.Proofs

open Sys2Proof.Machine

/-! ### CTRL and STATUS as the host reads them (10_state.md R22, R23) -/

theorem flagBit_getLsbD_eq (b : Bool) {i j : Nat} (hi : i < 32) : (flagBit b i).getLsbD j = (decide (j = i) && b) := by
  rw [Bool.eq_iff_iff, flagBit_getLsbD b hi, Bool.and_eq_true, decide_eq_true_iff]

theorem readRegister_ctrl (s : State) : readRegister 0x004 s = ctrlWord s := rfl

theorem readRegister_status (s : State) : readRegister 0x008 s = statusWord s := rfl

theorem ctrlWord_irqEn (s : State) : (ctrlWord s).getLsbD 1 = s.irqEn := by
  simp [ctrlWord, flagBit_getLsbD_eq, -BitVec.getLsbD_eq_getElem]

theorem statusWord_done (s : State) : (statusWord s).getLsbD 1 = s.done := by
  simp [statusWord, flagBit_getLsbD_eq, -BitVec.getLsbD_eq_getElem]

theorem statusWord_fault (s : State) : (statusWord s).getLsbD 2 = s.fault := by
  simp [statusWord, flagBit_getLsbD_eq, -BitVec.getLsbD_eq_getElem]

/-! ### The host's writes and the hard reset, each as one step (10_state.md R20) -/

theorem step_ctrlWrite {s : State} {v : Word} {rest : List HostOp} (hrst : s.rstN = true)
    (hhost : s.host = .regWrite .word 0x004 v :: rest) : step s = .next (writeCtrl v { s with host := rest }) := by
  simp [step, hhost, hostMove, hostRegWrite, alignedWord, hrst]

theorem step_statusWrite {s : State} {v : Word} {rest : List HostOp} (hrst : s.rstN = true) (hbusy : s.busy = false)
    (hhost : s.host = .regWrite .word 0x008 v :: rest) : step s = .next (writeStatus v { s with host := rest }) := by
  simp [step, hhost, hostMove, hostRegWrite, alignedWord, writeRegister, hrst, hbusy]

theorem step_hardReset {s : State} {rest : List HostOp} (hhost : s.host = .rstN false :: rest) :
    step s = .next (hardReset { s with host := rest }) := by
  simp [step, hhost, hostMove, driveReset]

theorem writeCtrl_of_srst {v : Word} (hv : v.getLsbD 0 = true) (s : State) : writeCtrl v s = softReset s := if_pos hv

theorem writeCtrl_of_not_srst {v : Word} (hv : v.getLsbD 0 = false) (s : State) :
    writeCtrl v s = { s with irqEn := v.getLsbD 1 } := if_neg (ne_true_of_eq_false hv)

/-- A CMD write to a busy core (60_exceptions.md R291). -/
theorem step_cmdWrite_busy {s : State} {w : Word} {rest : List HostOp} (hrst : s.rstN = true) (hbusy : s.busy = true)
    (hhost : s.host = .regWrite .word 0x00C w :: rest) : step s = .next { s with overrun := true, host := rest } := by
  rw [step_cmdWrite hrst hhost, offerCommand, if_pos hbusy]

/-! ### irq and the end of a command (60_exceptions.md R293) -/

theorem irq_of_fault {s : State} (hfault : s.fault = true) : irq s = s.irqEn := by
  simp [irq, hfault]

@[simp] theorem storeRows_irqEn (reads : List Rows) (dest : Rows) (ws : List (Nat × Byte)) (s : State) :
    (storeRows reads dest ws s).irqEn = s.irqEn := by
  rw [storeRows_frame]

/-- Every command ends with DONE or FAULT set, and none touches IRQ_EN. -/
theorem ends_irq {i : Instr} {s t : State} (h : Ends s i t) : irq t = s.irqEn := by
  cases h with
  | early | codeLengths | stream | restartPoint | block => exact irq_of_fault rfl
  | result | dqt | dht | arm | cursor | decoded | count | restart | scanEnd | stored | storedIdct => simp [irq]

theorem coreTurn_irq {s t : State} (hfault : s.fault = true) (h : coreTurn s = .next t) : irq t = irq s := by
  rw [irq_of_fault hfault]
  unfold coreTurn at h
  split at h
  · unfold coreMove at h
    split at h
    · exact ends_irq (Ends.of_exec h)
    · cases h; exact irq_of_fault rfl
  · cases h
    exact irq_of_fault hfault

/-! ### Which accesses lower irq while FAULT = 1 (60_exceptions.md R294) -/

@[simp] theorem writeRegister_irqEn (off : Nat) (v : Word) (s : State) : (writeRegister off v s).irqEn = s.irqEn := by
  simp only [writeRegister, writeStatus, apply_ite State.irqEn, ite_self]

@[simp] theorem writeRegister_fault (off : Nat) (v : Word) (s : State) : (writeRegister off v s).fault = s.fault := by
  simp only [writeRegister, writeStatus, apply_ite State.fault, ite_self]

/-- A STATUS write can clear DONE, which leaves irq to FAULT. -/
theorem writeRegister_irq {s : State} (hfault : s.fault = true) (off : Nat) (v : Word) :
    irq (writeRegister off v s) = irq s := by
  simp [irq, hfault]

/-- While FAULT = 1 no word is accepted, so none clears DONE (60_exceptions.md R290, R291). -/
theorem offerCommand_irq {s : State} (hfault : s.fault = true) (w : Word) : irq (offerCommand w s) = irq s := by
  rw [offerCommand, if_pos hfault]
  split <;> rfl

/-- The accesses that R294 names: the hard reset, and a CTRL write that resets or masks. -/
def ClearsFaultIrq (op : HostOp) : Prop :=
  op = .rstN false ∨ ∃ v : Word, (v.getLsbD 0 = true ∨ v.getLsbD 1 = false) ∧ op = .regWrite .word 0x004 v

theorem writeCtrl_irq_or_clears {s : State} (hfault : s.fault = true) (v : Word) :
    irq (writeCtrl v s) = true ∨ ClearsFaultIrq (.regWrite .word 0x004 v) := by
  cases hreset : v.getLsbD 0 with
  | true => exact .inr (.inr ⟨v, .inl hreset, rfl⟩)
  | false =>
    cases hen : v.getLsbD 1 with
    | true =>
      have hirq : irq (writeCtrl v s) = v.getLsbD 1 := by
        rw [writeCtrl_of_not_srst hreset]
        exact irq_of_fault hfault
      exact .inl (hirq.trans hen)
    | false => exact .inr (.inr ⟨v, .inr hen, rfl⟩)

theorem hostRegWrite_irq_or_clears {s : State} (hfault : s.fault = true) (hirq : irq s = true) (size : AccessSize)
    (off : BitVec 9) (v : Word) : irq (hostRegWrite size off v s) = true ∨ ClearsFaultIrq (.regWrite size off v) := by
  unfold hostRegWrite
  split
  next haccess =>
    split
    next hoff =>
      subst hoff
      obtain ⟨-, hword⟩ : s.rstN = true ∧ size = .word := by simpa [alignedWord] using haccess
      subst hword
      exact writeCtrl_irq_or_clears hfault v
    next =>
      split
      · exact .inl ((offerCommand_irq hfault v).trans hirq)
      · split
        · exact .inl hirq
        · exact .inl ((writeRegister_irq hfault off.toNat v).trans hirq)
  next => exact .inl hirq

theorem hostRegRead_irq {size : AccessSize} {off : BitVec 9} {s t : State} (h : hostRegRead size off s = .next t) :
    irq t = irq s := by
  unfold hostRegRead at h
  split at h
  · split at h <;> cases h <;> rfl
  · cases h

theorem hostMove_irq_or_clears {op : HostOp} {s t : State} (hfault : s.fault = true) (hirq : irq s = true)
    (h : hostMove op s = .next t) : irq t = true ∨ ClearsFaultIrq op := by
  cases op with
  | regWrite size off v => cases h; exact hostRegWrite_irq_or_clears hfault hirq size off v
  | regRead => exact .inl ((hostRegRead_irq h).trans hirq)
  | memWrite | memRead => obtain ⟨-, -, -, rfl⟩ := memPort_next h; exact .inl hirq
  | rstN level =>
    cases h
    cases level with
    | true => exact .inl hirq
    | false => exact .inr (.inl rfl)
  | wait => exact .inl ((coreTurn_irq hfault h).trans hirq)

/-- A fault-caused interrupt stays until the host makes one of the accesses that R294 names. -/
theorem step_irq_or_clears {s t : State} (hfault : s.fault = true) (hirq : irq s = true) (h : step s = .next t) :
    irq t = true ∨ ∃ op rest, s.host = op :: rest ∧ ClearsFaultIrq op := by
  unfold step at h
  split at h
  next => exact .inl ((coreTurn_irq hfault h).trans hirq)
  next op rest hhost =>
    have hmove := hostMove_irq_or_clears (s := { s with host := rest }) hfault hirq h
    exact hmove.imp_right fun hop => ⟨op, rest, hhost, hop⟩

/-! ### The obligations -/

/-- Settles O9: irq is read off CTRL and STATUS bit by bit, the host's writes change the flags it is made of, and
under FAULT = 1 neither the end of a command nor any access but those of ClearsFaultIrq lowers it. -/
theorem interruptLine : Obligations.InterruptLine := by
  unfold Obligations.InterruptLine
  refine ⟨fun s => ?asRead, ?statusWrite, ?acceptance, ?reset, ?faultCaused, ?unmask, ?ctrlWrite⟩
  case asRead => rw [readRegister_ctrl, readRegister_status, ctrlWord_irqEn, statusWord_done, statusWord_fault, irq]
  case statusWrite =>
    intro s v rest hrst hbusy hfault hv hhost
    exact ⟨_, step_statusWrite hrst hbusy hhost, by simp [irq, writeStatus, hfault, hv]⟩
  case acceptance =>
    intro s w i rest hrst hbusy hfault hw hhost
    exact ⟨_, step_cmdWrite_legal hrst hbusy hfault hhost hw, by simp [irq, hfault]⟩
  case reset =>
    rintro s v rest (hhost | ⟨hrst, hv, hhost⟩)
    · exact ⟨_, step_hardReset hhost, irq_of_atReset (hardReset_atReset _)⟩
    · refine ⟨_, step_ctrlWrite hrst hhost, ?_⟩
      rw [writeCtrl_of_srst hv]
      exact irq_of_atReset (softReset_atReset _)
  case faultCaused =>
    intro s t h hfault hirq hlow
    rcases step_irq_or_clears hfault hirq h with hkept | ⟨op, rest, hhost, rfl | ⟨v, hv, rfl⟩⟩
    · simp [hkept] at hlow
    · exact ⟨rest, .inl hhost⟩
    · exact ⟨rest, .inr ⟨v, hv, hhost⟩⟩
  case unmask =>
    intro s v rest hrst hv hen hcause hhost
    refine ⟨_, step_ctrlWrite hrst hhost, ?_⟩
    rw [writeCtrl_of_not_srst hv]
    simpa [irq, hen] using hcause
  case ctrlWrite =>
    intro s v rest hrst hv hhost
    exact ⟨_, step_ctrlWrite hrst hhost, writeCtrl_of_not_srst hv _, fun hen => by
      rw [writeCtrl_of_not_srst hv, irq, hen, Bool.false_and]⟩

/-- Settles O7: a busy core takes only OVERRUN from a CMD write, and irq does not depend on it. -/
theorem overrunDropsWord : Obligations.OverrunDropsWord := by
  unfold Obligations.OverrunDropsWord
  constructor
  · intro s w rest hrst hbusy hhost
    exact ⟨_, step_cmdWrite_busy hrst hbusy hhost, rfl, rfl⟩
  · intro s v rest hrst hbusy hv hhost
    exact ⟨_, step_statusWrite hrst hbusy hhost, by simp [writeStatus, hv]⟩

end Sys2Proof.Proofs
end

section
/-! SUPPORT. The resets as steps (70_reset_and_hazards.md R310, R311): what a soft reset leaves of the state, and what a step
can do while rst_n = 0. -/
namespace Sys2Proof.Proofs

open Sys2Proof.Machine Sys2Proof.Safety

/-! ### What a soft reset leaves (70_reset_and_hazards.md R311) -/

@[simp] theorem abortCommand_host (i : Instr) (s : State) : (abortCommand i s).host = s.host := by
  obtain h | ⟨reads, dest, -, -, h⟩ := abortCommand_cases i s <;> rw [h]

@[simp] theorem abortCommand_rstN (i : Instr) (s : State) : (abortCommand i s).rstN = s.rstN := by
  obtain h | ⟨reads, dest, -, -, h⟩ := abortCommand_cases i s <;> rw [h]

@[simp] theorem softReset_host (s : State) : (softReset s).host = s.host := by
  obtain h | ⟨i, -, -, h⟩ := softReset_cases s <;> simp [h]

@[simp] theorem softReset_rstN (s : State) : (softReset s).rstN = s.rstN := by
  obtain h | ⟨i, -, -, h⟩ := softReset_cases s <;> simp [h]

/-- An abort draws free values for the bytes of the write footprint alone. -/
theorem abortCommand_read_other {i : Instr} {s : State} {a : Nat}
    (ha : ∀ reads dest, writerFootprint i s = some (reads, dest) → a ∉ dest.addresses) :
    (abortCommand i s).mem.read a = s.mem.read a := by
  obtain h | ⟨reads, dest, hfoot, -, h⟩ := abortCommand_cases i s <;> rw [h]
  refine Memory.read_writeAll_other _ _ _ fun w hw => ?_
  obtain ⟨b, hb, rfl⟩ := List.mem_map.1 hw
  exact ne_of_mem_of_not_mem hb (ha reads dest hfoot)

theorem softReset_read_other {s : State} {a : Nat}
    (ha : ∀ i reads dest, s.busy = true → decode s.cmdLast = .ok i → writerFootprint i s = some (reads, dest) →
      a ∉ dest.addresses) :
    (softReset s).mem.read a = s.mem.read a := by
  obtain h | ⟨i, hbusy, hi, h⟩ := softReset_cases s <;> rw [h, resetRegisters_mem]
  exact abortCommand_read_other fun reads dest => ha i reads dest hbusy hi

/-! ### Steps while rst_n = 0 (70_reset_and_hazards.md R310) -/

theorem coreTurn_of_idle {s : State} (hidle : s.busy = false) : coreTurn s = .next s :=
  if_neg (ne_true_of_eq_false hidle)

theorem hostRegWrite_inReset {s : State} (hrst : s.rstN = false) (size : AccessSize) (off : BitVec 9) (v : Word) :
    hostRegWrite size off v s = s := by
  simp [hostRegWrite, hrst]

theorem hostRegRead_inReset {s : State} (hrst : s.rstN = false) (size : AccessSize) (off : BitVec 9) :
    hostRegRead size off s = .refused .accessInReset :=
  if_neg (ne_true_of_eq_false hrst)

/-- While rst_n = 0 an access that goes through changes nothing, resets again, or releases the pin. -/
theorem hostMove_inReset {op : HostOp} {s t : State} (hrst : s.rstN = false) (hidle : s.busy = false)
    (h : hostMove op s = .next t) : t = s ∨ t = hardReset s ∨ (op = .rstN true ∧ t = { s with rstN := true }) := by
  cases op with
  | regWrite size off v => cases h; exact .inl (hostRegWrite_inReset hrst size off v)
  | regRead size off => cases (hostRegRead_inReset hrst size off).symm.trans h
  | memWrite | memRead => obtain ⟨hrst', -⟩ := memPort_next h; simp [hrst] at hrst'
  | rstN level =>
    cases h
    cases level with
    | true => exact .inr (.inr ⟨rfl, rfl⟩)
    | false => exact .inr (.inl rfl)
  | wait => cases (coreTurn_of_idle hidle).symm.trans h; exact .inl rfl

theorem step_inReset {s t : State} (hrst : s.rstN = false) (hidle : s.busy = false) (h : step s = .next t) :
    ∃ rest, t = { s with host := rest } ∨ t = hardReset { s with host := rest } ∨
      (s.host = .rstN true :: rest ∧ t = { s with rstN := true, host := rest }) := by
  unfold step at h
  split at h
  next => cases (coreTurn_of_idle hidle).symm.trans h; exact ⟨s.host, .inl rfl⟩
  next op rest hhost =>
    have hmove := hostMove_inReset (s := { s with host := rest }) hrst hidle h
    exact ⟨rest, hmove.imp_right (Or.imp_right fun ⟨hop, ht⟩ => ⟨by rw [hhost, hop], ht⟩)⟩

/-- The core that is reset stays so, and only the host releases the pin. -/
theorem step_keeps_atReset {s t : State} (hreset : AtReset s) (hrst : s.rstN = false) (h : step s = .next t) :
    AtReset t ∧ (t.rstN = false ∨ ∃ rest, s.host = .rstN true :: rest) := by
  have ⟨_, hidle, _⟩ := hreset
  obtain ⟨rest, rfl | rfl | ⟨hhost, rfl⟩⟩ := step_inReset hrst hidle h
  · exact ⟨hreset, .inl hrst⟩
  · exact ⟨hardReset_atReset _, .inl rfl⟩
  · exact ⟨hreset, .inr ⟨rest, hhost⟩⟩

/-! ### The host's accesses as steps (70_reset_and_hazards.md R310, R311) -/

theorem step_softReset {s : State} {v : Word} {rest : List HostOp} (hrst : s.rstN = true) (hv : v.getLsbD 0 = true)
    (hhost : s.host = .regWrite .word 0x004 v :: rest) : step s = .next (softReset { s with host := rest }) := by
  rw [step_ctrlWrite hrst hhost, writeCtrl_of_srst hv]

theorem step_regWrite_inReset {s : State} {size : AccessSize} {off : BitVec 9} {v : Word} {rest : List HostOp}
    (hrst : s.rstN = false) (hhost : s.host = .regWrite size off v :: rest) : step s = .next { s with host := rest } := by
  simp [step, hhost, hostMove, hostRegWrite_inReset, hrst]

theorem step_releaseReset {s : State} {rest : List HostOp} (hhost : s.host = .rstN true :: rest) :
    step s = .next { s with rstN := true, host := rest } := by
  simp [step, hhost, hostMove, driveReset]

/-! ### The obligations, in a namespace of their own beside Machine.softReset and Machine.hardReset -/

namespace Reset

/-- Settles O15: the write is one step to the soft reset, and an abort reaches no byte outside the write footprint. -/
theorem softReset : Obligations.SoftReset := by
  unfold Obligations.SoftReset
  intro s v rest hrst hv hhost
  exact ⟨_, step_softReset hrst hv hhost, softReset_atReset _, (softReset_rstN _).trans hrst, softReset_host _,
    softReset_config _, fun a ha => softReset_read_other ha⟩

/-- Settles O16: of the steps that go through while rst_n = 0, one changes nothing but the host's list, one resets again and
one drives rst_n to 1. -/
theorem hardReset : Obligations.HardReset := by
  unfold Obligations.HardReset
  refine ⟨fun s rest hhost => ?reset, fun s size off v rest => step_regWrite_inReset, fun s t hreset hrst h => ?held,
    fun s rest => step_releaseReset⟩
  case reset =>
    exact ⟨_, step_hardReset hhost, hardReset_atReset _, irq_of_atReset (hardReset_atReset _), rfl, rfl, rfl⟩
  case held =>
    obtain ⟨ht, hpin⟩ := step_keeps_atReset hreset hrst h
    exact ⟨ht, irq_of_atReset ht, hpin⟩

end Reset

end Sys2Proof.Proofs
end

section
/-! SUPPORT. The word format both ways (30_encoding.md R92, R94, R100): the row of the opcode table that answers for a word,
and that the fields of a word, put back in their places, are the word again. -/
namespace Sys2Proof.Proofs

open Sys2Proof.Machine

/-! ### The row that answers for a word (30_encoding.md R94, R97) -/

/-- What the decoder may answer for a word of a row: its command, or, for RECEIVE, a refused field value. -/
def RowAnswer (row : OpcodeRow) (answer : Except Illegal Instr) : Prop :=
  (∃ i, answer = .ok i ∧ i.mnemonic = row.mnemonic) ∨ (row.mnemonic = "RECEIVE" ∧ answer = .error .fieldRange)

theorem rowAnswer_of_masked {w : Word} {row : OpcodeRow} (hrow : row ∈ opcodeTable) (hmask : w &&& row.mask = row.pattern) :
    RowAnswer row (decode w) := by
  obtain ⟨i, hname, hdecode⟩ := decode_of_opcode hrow (opcode_of_masked hrow hmask)
  rw [if_pos hmask] at hdecode
  rw [hdecode]
  split
  next hrefused => exact .inr ⟨hrefused.1, rfl⟩
  next => exact .inl ⟨i, rfl, hname⟩

/-- Every opcode below 0x0C stands in a row. -/
theorem exists_row_of_opcode {w : Word} (hop : (wordField w 0 8).toNat < 0x0C) :
    ∃ row ∈ opcodeTable, wordField w 0 8 = row.pattern.extractLsb' 0 8 := by
  have hall : ∀ op : BitVec 8, op.toNat < 0x0C → ∃ row ∈ opcodeTable, op = row.pattern.extractLsb' 0 8 := by decide
  exact hall _ hop

/-- A word is refused for its opcode or a reserved bit, or it meets the mask and match of a row. -/
theorem decode_cases (w : Word) :
    decode w = .error .reservedOpcode ∨ decode w = .error .reservedBit ∨
      ∃ row ∈ opcodeTable, w &&& row.mask = row.pattern := by
  rcases Nat.lt_or_ge (wordField w 0 8).toNat 0x0C with hop | hop
  · obtain ⟨row, hrow, hrowOp⟩ := exists_row_of_opcode hop
    by_cases hmask : w &&& row.mask = row.pattern
    · exact .inr (.inr ⟨row, hrow, hmask⟩)
    · obtain ⟨i, -, hdecode⟩ := decode_of_opcode hrow hrowOp
      rw [if_neg hmask] at hdecode
      exact .inr (.inl hdecode)
  · exact .inl (decode_reservedOpcode hop)

/-- The mnemonics of the table tell its rows apart, so an answer belongs to one row. -/
theorem rowAnswer_unique {row row' : OpcodeRow} (hrow : row ∈ opcodeTable) (hrow' : row' ∈ opcodeTable)
    {answer : Except Illegal Instr} (h : RowAnswer row answer) (h' : RowAnswer row' answer) : row = row' := by
  have hdistinct : ∀ row ∈ opcodeTable, ∀ row' ∈ opcodeTable, row.mnemonic = row'.mnemonic → row = row' := by decide
  refine hdistinct row hrow row' hrow' ?_
  obtain ⟨i, rfl, hname⟩ | ⟨hname, rfl⟩ := h <;> obtain ⟨j, hj, hname'⟩ | ⟨hname', hj⟩ := h' <;> cases hj
  · rw [← hname, hname']
  · rw [hname, hname']

/-! ### Fields put back in their places (30_encoding.md R92, R100) -/

theorem field_shiftLeft (w : Word) (lo len : Nat) :
    BitVec.ofNat 32 (wordField w lo len).toNat <<< lo = w &&& ((BitVec.allOnes len).setWidth 32 <<< lo) := by
  rw [BitVec.ofNat_toNat, wordField]
  apply BitVec.eq_of_getLsbD_eq
  intro i hi
  simp only [BitVec.getLsbD_shiftLeft, BitVec.getLsbD_and, BitVec.getLsbD_setWidth, BitVec.getLsbD_extractLsb',
    BitVec.getLsbD_allOnes, hi, decide_true, Bool.true_and]
  by_cases hlo : i < lo
  · simp [hlo]
  · rw [Nat.add_sub_cancel' (Nat.le_of_not_lt hlo)]
    ac_rfl

/-- A word is the bits that a mask keeps and those that it drops. -/
theorem eq_or_dropped {w mask op : Word} (h : w &&& mask = op) : op ||| (w &&& ~~~mask) = w := by
  rw [← h, ← BitVec.and_or_distrib_left, BitVec.or_not_self, BitVec.and_allOnes]

theorem checkReserved_ok {w mask op : Word} {i j : Instr} :
    checkReserved w mask op i = .ok j ↔ w &&& mask = op ∧ i = j := by
  unfold checkReserved
  split <;> simp_all

theorem decodeReceive_ok {w : Word} {i : Instr} :
    decodeReceive w = .ok i ↔ w &&& 0xFFFFE0FF = 0x05 ∧ (wordField w 8 5).toNat ≤ 16 ∧ .receive (wordField w 8 5) = i := by
  unfold decodeReceive
  split
  · split <;> simp_all
  · simp_all

theorem findModeOf_bits : ∀ b : BitVec 1, (findModeOf b).bits = b.toNat := by decide

theorem upsampleModeOf_bits : ∀ b : BitVec 2, (upsampleModeOf b).bits = b.toNat := by decide

theorem colorModeOf_bits : ∀ b : BitVec 1, (colorModeOf b).bits = b.toNat := by decide

theorem encodeField_wordField {w mask op : Word} (len : Nat) (h : w &&& mask = op)
    (hmask : (BitVec.allOnes len).setWidth 32 <<< 8 = ~~~mask) :
    encodeField op.toNat (wordField w 8 len).toNat = w := by
  rw [encodeField, field_shiftLeft, BitVec.ofNat_toNat, BitVec.setWidth_eq, hmask, eq_or_dropped h]

theorem encode_decodeBlock_fields {w : Word} (h : w &&& 0xFFFF00FF = 0x06) :
    encode (.decodeBlock (wordField w 8 2).toFin (wordField w 10 2).toFin (wordField w 12 2).toFin
      (wordField w 14 2).toFin) = w := by
  simp only [encode, encodeField, BitVec.val_toFin, field_shiftLeft]
  rw [BitVec.or_assoc, BitVec.or_assoc, ← BitVec.and_or_distrib_left, ← BitVec.and_or_distrib_left, 
    BitVec.or_assoc, ← BitVec.and_or_distrib_left]
  exact eq_or_dropped h

/-! ### The obligations -/

/-- Settles O1: each field has few values, and at every one of them the decoder reads the encoder's word back. -/
theorem decodeOfEncode : Obligations.DecodeOfEncode := by
  unfold Obligations.DecodeOfEncode
  intro i
  cases i with
  | nop | loadDqt | loadDht | startScan | idct | endMcu => decide
  | huffDecode t => revert t; decide
  | receive n => revert n; decide
  | decodeBlock dc ac q c => revert dc ac q c; decide
  | findMarker m | upsample m | colorConvert m => cases m <;> decide

/-- Settles O2: an arm of the decoder that answers a command has checked every bit outside the command's fields, and the
fields stand in the word where the encoder puts them. -/
theorem encodeOfDecode : Obligations.EncodeOfDecode := by
  unfold Obligations.EncodeOfDecode
  intro w i h
  unfold decode at h
  split at h
  case h_6 =>
    obtain ⟨hmask, hn, rfl⟩ := decodeReceive_ok.mp h
    exact ⟨decide_eq_true hn, encodeField_wordField 5 hmask (by decide)⟩
  case h_13 => cases h
  all_goals obtain ⟨hmask, rfl⟩ := checkReserved_ok.mp h
  case h_5 => exact ⟨rfl, encodeField_wordField 3 hmask (by decide)⟩
  case h_7 => exact ⟨rfl, encode_decodeBlock_fields hmask⟩
  case h_10 => exact ⟨rfl, by rw [encode, findModeOf_bits]; exact encodeField_wordField 1 hmask (by decide)⟩
  case h_11 => exact ⟨rfl, by rw [encode, upsampleModeOf_bits]; exact encodeField_wordField 2 hmask (by decide)⟩
  case h_12 => exact ⟨rfl, by rw [encode, colorModeOf_bits]; exact encodeField_wordField 1 hmask (by decide)⟩
  all_goals exact ⟨rfl, (hmask.symm.trans BitVec.and_allOnes)⟩

/-- Settles O3: a word that meets a row gets the row's answer, and an answer belongs to one row. -/
theorem opcodeTableDecodes : Obligations.OpcodeTableDecodes := by
  unfold Obligations.OpcodeTableDecodes
  refine fun w row hrow => ⟨⟨rowAnswer_of_masked hrow, fun hanswer => ?masked⟩, fun hop hmask => ?reserved⟩
  case masked =>
    obtain hw | hw | ⟨row', hrow', hmask⟩ := decode_cases w
    · simp [hw] at hanswer
    · simp [hw] at hanswer
    · obtain rfl := rowAnswer_unique hrow hrow' hanswer (rowAnswer_of_masked hrow' hmask)
      exact hmask
  case reserved =>
    obtain ⟨i, -, hdecode⟩ := decode_of_opcode hrow hop
    rwa [if_neg hmask] at hdecode

/-- Settles O5: the decoder is run on each word. -/
theorem sampleWords : Obligations.SampleWords := by
  unfold Obligations.SampleWords
  decide

end Sys2Proof.Proofs
end

section
/-! SUPPORT. The machine's invariant (10_state.md section 4; 20_memory.md section 1; 30_encoding.md R102): what each end of a
command and each access of the host leaves of it. -/
namespace Sys2Proof.Proofs

open Sys2Proof.Machine Sys2Proof.Safety

/-! ### What a store leaves: all but MEM and the draw counter -/

section
variable (reads : List Rows) (dest : Rows) (ws : List (Nat × Byte)) (s : State)

@[simp] theorem storeRows_config : (storeRows reads dest ws s).config = s.config := by rw [storeRows_frame]
@[simp] theorem storeRows_host : (storeRows reads dest ws s).host = s.host := by rw [storeRows_frame]
@[simp] theorem storeRows_hostRegData : (storeRows reads dest ws s).hostRegData = s.hostRegData := by rw [storeRows_frame]
@[simp] theorem storeRows_hostMemData : (storeRows reads dest ws s).hostMemData = s.hostMemData := by rw [storeRows_frame]
@[simp] theorem storeRows_rstN : (storeRows reads dest ws s).rstN = s.rstN := by rw [storeRows_frame]
@[simp] theorem storeRows_busy : (storeRows reads dest ws s).busy = s.busy := by rw [storeRows_frame]
@[simp] theorem storeRows_done : (storeRows reads dest ws s).done = s.done := by rw [storeRows_frame]
@[simp] theorem storeRows_fault : (storeRows reads dest ws s).fault = s.fault := by rw [storeRows_frame]
@[simp] theorem storeRows_overrun : (storeRows reads dest ws s).overrun = s.overrun := by rw [storeRows_frame]
@[simp] theorem storeRows_scanEnd : (storeRows reads dest ws s).scanEnd = s.scanEnd := by rw [storeRows_frame]
@[simp] theorem storeRows_cmdLast : (storeRows reads dest ws s).cmdLast = s.cmdLast := by rw [storeRows_frame]
@[simp] theorem storeRows_result : (storeRows reads dest ws s).result = s.result := by rw [storeRows_frame]
@[simp] theorem storeRows_faultCode : (storeRows reads dest ws s).faultCode = s.faultCode := by rw [storeRows_frame]
@[simp] theorem storeRows_faultInfo : (storeRows reads dest ws s).faultInfo = s.faultInfo := by rw [storeRows_frame]
@[simp] theorem storeRows_faultCmd : (storeRows reads dest ws s).faultCmd = s.faultCmd := by rw [storeRows_frame]
@[simp] theorem storeRows_args : (storeRows reads dest ws s).args = s.args := by rw [storeRows_frame]
@[simp] theorem storeRows_bsEnd : (storeRows reads dest ws s).bsEnd = s.bsEnd := by rw [storeRows_frame]
@[simp] theorem storeRows_ri : (storeRows reads dest ws s).ri = s.ri := by rw [storeRows_frame]
@[simp] theorem storeRows_todo : (storeRows reads dest ws s).todo = s.todo := by rw [storeRows_frame]
@[simp] theorem storeRows_ht : (storeRows reads dest ws s).ht = s.ht := by rw [storeRows_frame]
@[simp] theorem storeRows_qt : (storeRows reads dest ws s).qt = s.qt := by rw [storeRows_frame]
@[simp] theorem storeRows_dcpred : (storeRows reads dest ws s).dcpred = s.dcpred := by rw [storeRows_frame]
@[simp] theorem storeRows_coef : (storeRows reads dest ws s).coef = s.coef := by rw [storeRows_frame]
@[simp] theorem storeRows_idctBuf : (storeRows reads dest ws s).idctBuf = s.idctBuf := by rw [storeRows_frame]

end

/-! ### The parts of the invariant -/

/-- The part of the invariant on the parameters and MEM, which holds whatever FAULT is. -/
def MemInv (s : State) : Prop :=
  s.config.wf ∧ s.mem.wf = true ∧ ∀ c ∈ s.mem.cells, c.1 < s.config.memSize

theorem memInv_of_machineInv {s : State} (h : MachineInv s) : MemInv s := by
  obtain ⟨hwf, hcanon, hbound, -⟩ := h
  exact ⟨hwf, hcanon, hbound⟩

/-- An idle core's invariant: MEM's part, and the reader's part while FAULT = 0. -/
theorem machineInv_of_idle {s : State} (hmem : MemInv s) (hcur : s.fault = false → CursorOk s.cur)
    (hslots : s.fault = false → SlotsBuilt s) (hidle : s.busy = false) : MachineInv s := by
  obtain ⟨hwf, hcanon, hbound⟩ := hmem
  exact ⟨hwf, hcanon, hbound, hcur, hslots, fun hbusy => by simp [hidle] at hbusy⟩

/-- A fault leaves MEM's part alone to be kept. -/
theorem machineInv_of_fault {s : State} (hmem : MemInv s) (hfault : s.fault = true) (hidle : s.busy = false) :
    MachineInv s :=
  machineInv_of_idle hmem (fun h => by simp [hfault] at h) (fun h => by simp [hfault] at h) hidle

theorem cursorOk_reset : CursorOk Cursor.reset := by
  simp [CursorOk, Cursor.reset]

theorem cursorOk_resetBitCursor (c : Cursor) : CursorOk (resetBitCursor c) := by
  simp [CursorOk]

/-- A slot set to a built table leaves every bound slot built. -/
theorem slotsBuilt_set {s t : State} (h : SlotsBuilt s) {i : Fin 8} {table : HuffTable} (htable : Built table)
    (ht : t.ht = s.ht.set i (some table)) : SlotsBuilt t := by
  intro j t' hj
  rw [ht] at hj
  rcases eq_or_ne i j with rfl | hij
  · obtain rfl : table = t' := by simpa [Vector.get_eq_getElem] using hj
    exact htable
  · exact h j t' (by rwa [Vector.get_eq_getElem, Vector.getElem_set_ne _ _ (Fin.val_ne_of_ne hij)] at hj)

/-! ### MEM -/

/-- Writes below MEM_SIZE keep MEM's part. -/
theorem memInv_writeAll {s t : State} (h : MemInv s) {ws : List (Nat × Byte)} (hws : ∀ w ∈ ws, w.1 < s.config.memSize)
    (hconfig : t.config = s.config) (hmem : t.mem = s.mem.writeAll ws) : MemInv t := by
  obtain ⟨hwf, hcanon, hbound⟩ := h
  rw [MemInv, hconfig, hmem]
  exact ⟨hwf, Memory.writeAll_wf _ _ hcanon, Memory.writeAll_bound _ _ _ hbound hws⟩

theorem memInv_storeRows {s : State} (h : MemInv s) {reads : List Rows} {dest : Rows} {ws : List (Nat × Byte)}
    (hin : ∀ a ∈ dest.addresses, a < s.config.memSize) (hws : ∀ w ∈ ws, w.1 ∈ dest.addresses) :
    MemInv (storeRows reads dest ws s) := by
  obtain ⟨hwf, hcanon, hbound⟩ := h
  rw [MemInv, storeRows_config]
  exact ⟨hwf, storeRows_wf _ _ _ _ hcanon, storeRows_bound _ _ _ _ _ hbound fun w hw => hin _ (hws w hw)⟩

/-- An abort writes where the footprint check has passed alone. -/
theorem memInv_abortCommand {s : State} (h : MemInv s) (i : Instr) : MemInv (abortCommand i s) := by
  obtain he | ⟨reads, dest, -, hcheck, he⟩ := abortCommand_cases i s <;> rw [he]
  · exact h
  · refine memInv_writeAll (t := { s with mem := _, draws := _ }) h (fun w hw => ?_) rfl rfl
    obtain ⟨a, ha, rfl⟩ := List.mem_map.1 hw
    exact dest_lt_of_check hcheck (by simp) a ha

/-! ### The ends of a command -/

theorem ends_keeps_inv {i : Instr} {s t : State} (h : Ends s i t) (hinv : MachineInv s) : MachineInv t := by
  have hmem := memInv_of_machineInv hinv
  obtain ⟨-, -, -, hcur, hslots, -⟩ := hinv
  cases h with
  | early | codeLengths | stream | restartPoint | block => exact machineInv_of_fault hmem rfl rfl
  | result | dqt | count => exact machineInv_of_idle hmem hcur hslots rfl
  | dht v table htable => exact machineInv_of_idle hmem hcur (fun hf => slotsBuilt_set (hslots hf) htable rfl) rfl
  | arm | restart => exact machineInv_of_idle hmem (fun _ => cursorOk_resetBitCursor _) hslots rfl
  | cursor _ _ _ _ _ hc | decoded _ _ _ _ _ _ _ _ _ hc =>
    exact machineInv_of_idle hmem (fun hf => hc (hcur hf) (hslots hf)) hslots rfl
  | scanEnd _ _ hc => exact machineInv_of_idle hmem (fun hf => hc (hcur hf)) hslots rfl
  | stored _ reads dest ws _ _ hin hw =>
    exact machineInv_of_idle (memInv_storeRows hmem hin hw) (by simpa using hcur) (by simpa [SlotsBuilt] using hslots) rfl
  | storedIdct ws hin hw =>
    exact machineInv_of_idle (memInv_storeRows hmem hin hw) (by simpa using hcur) (by simpa [SlotsBuilt] using hslots) rfl

theorem coreTurn_keeps_inv {s t : State} (h : coreTurn s = .next t) (hinv : MachineInv s) : MachineInv t := by
  unfold coreTurn at h
  split at h
  · unfold coreMove at h
    split at h
    · exact ends_keeps_inv (Ends.of_exec h) hinv
    · cases h
      exact machineInv_of_fault (memInv_of_machineInv (s := s) hinv) rfl rfl
  · cases h
    exact hinv

/-! ### The host's accesses -/

theorem machineInv_resetRegisters {s : State} (h : MemInv s) : MachineInv (resetRegisters s) :=
  machineInv_of_idle h (fun _ => cursorOk_reset) (fun _ i t hi => by simp [Vector.get_eq_getElem] at hi) rfl

theorem softReset_inv {s : State} (h : MemInv s) : MachineInv (softReset s) := by
  obtain he | ⟨i, -, -, he⟩ := softReset_cases s <;> rw [he]
  · exact machineInv_resetRegisters h
  · exact machineInv_resetRegisters (memInv_abortCommand h i)

/-- After a hard reset MEM lists no byte. -/
theorem hardReset_inv {s : State} (h : MemInv s) : MachineInv (hardReset s) := by
  obtain ⟨hwf, -, -⟩ := h
  exact machineInv_of_idle ⟨hwf, rfl, by simp [hardReset]⟩ (fun _ => cursorOk_reset)
    (fun _ i t hi => by simp [hardReset, Vector.get_eq_getElem] at hi) rfl

theorem offerCommand_keeps_inv {s : State} (hinv : MachineInv s) (hrst : s.rstN = true) (w : Word) :
    MachineInv (offerCommand w s) := by
  have hmem := memInv_of_machineInv hinv
  unfold offerCommand
  split
  · exact hinv
  · split
    · exact hinv
    · rename_i hfault
      obtain ⟨hwf, hcanon, hbound, hcur, hslots, -⟩ := hinv
      split
      next i hi => exact ⟨hwf, hcanon, hbound, hcur, hslots, fun _ => ⟨hrst, by simpa using hfault, rfl, i, hi⟩⟩
      next => exact machineInv_of_fault hmem rfl rfl

/-- Of the fields the invariant speaks of, a register write to an idle core can change BS_PTR and DONE alone. -/
theorem writeRegister_keeps_inv {s : State} (hinv : MachineInv s) (hidle : s.busy = false) (off : Nat) (v : Word) :
    MachineInv (writeRegister off v s) := by
  have hmem := memInv_of_machineInv hinv
  obtain ⟨-, -, -, hcur, hslots, -⟩ := hinv
  unfold writeRegister
  split
  · exact machineInv_of_idle hmem hcur hslots hidle
  · split_ifs <;> exact machineInv_of_idle hmem hcur hslots hidle

theorem hostRegWrite_keeps_inv {s : State} (hinv : MachineInv s) (size : AccessSize) (off : BitVec 9) (v : Word) :
    MachineInv (hostRegWrite size off v s) := by
  unfold hostRegWrite
  split
  · rename_i haccess
    obtain ⟨hrst, -⟩ := Bool.and_eq_true_iff.mp haccess
    split
    · unfold writeCtrl
      split
      · exact softReset_inv (memInv_of_machineInv hinv)
      · exact hinv
    · split
      · exact offerCommand_keeps_inv hinv hrst v
      · split
        · exact hinv
        next hbusy => exact writeRegister_keeps_inv hinv (by simpa using hbusy) off.toNat v
  · exact hinv

theorem hostRegRead_keeps_inv {s t : State} {size : AccessSize} {off : BitVec 9} (h : hostRegRead size off s = .next t)
    (hinv : MachineInv s) : MachineInv t := by
  unfold hostRegRead at h
  split at h
  · split at h <;> cases h <;> exact hinv
  · cases h

theorem hostMemWrite_keeps_inv {s t : State} {a : Word} {n v : Nat} (h : hostMemWrite a n v s = .next t)
    (hinv : MachineInv s) : MachineInv t := by
  obtain ⟨-, hidle, hin, rfl⟩ := memPort_next h
  have hmem := memInv_of_machineInv hinv
  obtain ⟨-, -, -, hcur, hslots, -⟩ := hinv
  refine machineInv_of_idle (memInv_writeAll hmem (fun w hw => ?_) rfl rfl) hcur hslots hidle
  simp only [littleEndianBytes, List.mem_map, List.mem_range] at hw
  obtain ⟨i, hi, rfl⟩ := hw
  dsimp only
  omega

theorem hostMove_keeps_inv {op : HostOp} {s t : State} (h : hostMove op s = .next t) (hinv : MachineInv s) :
    MachineInv t := by
  cases op with
  | regWrite size off v => cases h; exact hostRegWrite_keeps_inv hinv size off v
  | regRead => exact hostRegRead_keeps_inv h hinv
  | memWrite => exact hostMemWrite_keeps_inv h hinv
  | memRead => obtain ⟨-, -, -, rfl⟩ := memPort_next h; exact hinv
  | rstN level =>
    cases h
    cases level with
    | false => exact hardReset_inv (memInv_of_machineInv hinv)
    | true =>
      obtain ⟨hwf, hcanon, hbound, hcur, hslots, hrun⟩ := hinv
      exact ⟨hwf, hcanon, hbound, hcur, hslots, fun hbusy => ⟨rfl, (hrun hbusy).2⟩⟩
  | wait => exact coreTurn_keeps_inv h hinv

/-! ### The obligations -/

/-- Settles O23: a step is an access of the host or the core's turn, and the invariant does not speak of the host's list. -/
theorem stepKeepsInvariant : Obligations.StepKeepsInvariant := by
  unfold Obligations.StepKeepsInvariant
  intro s t hinv h
  rcases step_cases h with ⟨op, rest, -, hmove⟩ | ⟨rest, hturn⟩
  · exact hostMove_keeps_inv (s := { s with host := rest }) hmove hinv
  · exact coreTurn_keeps_inv (s := { s with host := rest }) hturn hinv

/-- Settles O24: at reset MEM lists nothing, the cursor is that of ResetBitCursor and no slot is bound. -/
theorem resetInvariant : Obligations.ResetInvariant := by
  unfold Obligations.ResetInvariant
  have hmem : MemInv State.reset := ⟨by decide, reset_mem_wf, by simp [State.reset]⟩
  exact machineInv_of_idle hmem (fun _ => cursorOk_reset) (fun _ i t hi => by simp [State.reset, Vector.get_eq_getElem] at hi)
    rfl

end Sys2Proof.Proofs
end

section
/-! SUPPORT. The host's accesses as steps (10_state.md R20–R40; 30_encoding.md R102; 60_exceptions.md R290;
70_reset_and_hazards.md R316): registers as read and as written, the flags, and the accesses while BUSY = 1. -/
namespace Sys2Proof.Proofs

open Sys2Proof.Machine Sys2Proof.Safety

/-! ### The core's turn (30_encoding.md R102) -/

theorem coreTurn_of_busy {s : State} {i : Instr} (hbusy : s.busy = true) (hi : decode s.cmdLast = .ok i) :
    coreTurn s = exec i s := by
  rw [coreTurn, if_pos hbusy, coreMove, hi]

theorem step_of_no_access {s : State} (hhost : s.host = []) : step s = coreTurn s := by
  rw [step, hhost]

theorem step_wait {s : State} {rest : List HostOp} (hhost : s.host = .wait :: rest) :
    step s = coreTurn { s with host := rest } := by
  simp only [step, hhost, hostMove]

/-! ### Register accesses as steps (10_state.md R20) -/

theorem step_regWrite {s : State} {size : AccessSize} {off : BitVec 9} {v : Word} {rest : List HostOp}
    (hhost : s.host = .regWrite size off v :: rest) : step s = .next (hostRegWrite size off v { s with host := rest }) := by
  simp only [step, hhost, hostMove]

theorem step_regRead {s : State} {size : AccessSize} {off : BitVec 9} {rest : List HostOp}
    (hhost : s.host = .regRead size off :: rest) : step s = hostRegRead size off { s with host := rest } := by
  simp only [step, hhost, hostMove]

theorem alignedWord_iff {size : AccessSize} {off : BitVec 9} :
    alignedWord size off = true ↔ size = .word ∧ off.toNat % 4 = 0 := by
  simp [alignedWord]

/-- A narrow or unaligned write is ignored. -/
theorem hostRegWrite_of_not_aligned {size : AccessSize} {off : BitVec 9} (h : size ≠ .word ∨ off.toNat % 4 ≠ 0) (v : Word)
    (s : State) : hostRegWrite size off v s = s := by
  have halign : ¬ alignedWord size off = true := by
    rw [alignedWord_iff]
    tauto
  rw [hostRegWrite, if_neg (by simp [halign])]

/-- A write to a busy core is ignored but for CTRL and CMD. -/
theorem hostRegWrite_of_busy {off : BitVec 9} (hctrl : off ≠ 0x004) (hcmd : off ≠ 0x00C) {s : State} (hbusy : s.busy = true)
    (size : AccessSize) (v : Word) : hostRegWrite size off v s = s := by
  rw [hostRegWrite, if_neg hctrl, if_neg hcmd, if_pos hbusy, ite_self]

theorem hostRegWrite_of_idle {off : BitVec 9} (hctrl : off ≠ 0x004) (hcmd : off ≠ 0x00C) (halign : off.toNat % 4 = 0)
    {s : State} (hrst : s.rstN = true) (hidle : s.busy = false) (v : Word) :
    hostRegWrite .word off v s = writeRegister off.toNat v s := by
  have haccess : (s.rstN && alignedWord .word off) = true := by simp [hrst, alignedWord_iff.mpr ⟨rfl, halign⟩]
  rw [hostRegWrite, if_pos haccess, if_neg hctrl, if_neg hcmd, if_neg (by simp [hidle])]

theorem hostRegRead_of_idle {off : BitVec 9} (halign : off.toNat % 4 = 0) {s : State} (hrst : s.rstN = true)
    (hidle : s.busy = false) : hostRegRead .word off s = .next { s with hostRegData := readRegister off.toNat s } := by
  simp [hostRegRead, alignedWord_iff.mpr ⟨rfl, halign⟩, hrst, hidle]

/-! ### The window as it is read (10_state.md R20, R40) -/

section
variable (s : State) {off : Nat}

theorem readRegister_arg (h : 0x020 ≤ off ∧ off < 0x040) :
    readRegister off s = s.args.get (Fin.ofNat 8 ((off - 0x020) / 4)) := by
  unfold readRegister
  repeat rw [if_neg (by omega)]
  rw [if_pos h]

theorem readRegister_coef (h : 0x100 ≤ off ∧ off < 0x200) :
    readRegister off s = s.coef.get (Fin.ofNat 64 ((off - 0x100) / 4)) := by
  unfold readRegister
  repeat rw [if_neg (by omega)]
  rw [if_pos h]

theorem readRegister_unoccupied (h : 0x070 ≤ off ∧ off < 0x100) : readRegister off s = 0 := by
  unfold readRegister
  repeat rw [if_neg (by omega)]

end

/-- A read while BUSY = 1. -/
theorem hostRegRead_of_busy {off : BitVec 9} (halign : off.toNat % 4 = 0) {s : State} (hrst : s.rstN = true)
    (hbusy : s.busy = true) :
    hostRegRead .word off s =
      if off = 0x000 ∨ off = 0x004 ∨ off = 0x008 then .next { s with hostRegData := readRegister off.toNat s }
      else if 0x070 ≤ off.toNat ∧ off.toNat < 0x100 then .next { s with hostRegData := 0 }
      else .next { s with hostRegData := Config.freeWord s.draws 0, draws := s.draws + 1 } := by
  have hreadable : readableWhileBusy off = true ↔ off = 0x000 ∨ off = 0x004 ∨ off = 0x008 := by
    simp [readableWhileBusy, or_assoc]
  have hunoccupied : unoccupied off = true ↔ 0x070 ≤ off.toNat ∧ off.toNat < 0x100 := by simp [unoccupied]
  have haccess : (alignedWord .word off && (!s.busy || readableWhileBusy off || unoccupied off)) =
      (readableWhileBusy off || unoccupied off) := by
    simp [alignedWord_iff.mpr ⟨rfl, halign⟩, hbusy]
  rw [hostRegRead, if_pos hrst, haccess]
  simp only [← hreadable, ← hunoccupied]
  cases hread : readableWhileBusy off with
  | true => simp
  | false =>
    cases hnone : unoccupied off with
    | true => simp [readRegister_unoccupied s (hunoccupied.mp hnone)]
    | false => simp

/-! ### STATUS and MARKER bit by bit (10_state.md R23, R34) -/

theorem statusWord_bits (s : State) :
    (statusWord s).getLsbD 0 = s.busy ∧ (statusWord s).getLsbD 3 = s.overrun ∧ (statusWord s).getLsbD 4 = s.scanEnd ∧
      (statusWord s).getLsbD 5 = s.cur.markerValid ∧ (statusWord s).getLsbD 6 = s.cur.nomore := by
  simp [statusWord, flagBit_getLsbD_eq, -BitVec.getLsbD_eq_getElem]

theorem statusWord_above (s : State) {j : Nat} (hj : 7 ≤ j) : (statusWord s).getLsbD j = false := by
  have hne : ∀ i, i < 7 → ¬ j = i := by omega
  simp [statusWord, flagBit_getLsbD_eq, hne, -BitVec.getLsbD_eq_getElem]

theorem readRegister_marker (s : State) : readRegister 0x050 s = markerWord s := rfl

theorem markerWord_valid (s : State) : (markerWord s).getLsbD 8 = s.cur.markerValid := by
  simp [markerWord, flagBit_getLsbD_eq, -BitVec.getLsbD_eq_getElem]

/-! ### The window after a write (10_state.md R20–R40) -/

section
variable (s : State) {off : Nat} (v : Word)

theorem readRegister_with_args (args : Vector Word 8) (h : ¬(0x020 ≤ off ∧ off < 0x040)) :
    readRegister off { s with args := args } = readRegister off s := by
  unfold readRegister
  simp only [if_neg h]
  rfl

theorem readRegister_with_coef (coef : Vector Word 64) (h : ¬(0x100 ≤ off ∧ off < 0x200)) :
    readRegister off { s with coef := coef } = readRegister off s := by
  unfold readRegister
  simp only [if_neg h]
  rfl

theorem readRegister_with_bsPtr (h : off ≠ 0x040) :
    readRegister off { s with cur := { s.cur with bsPtr := v } } = readRegister off s := by
  unfold readRegister
  simp only [if_neg h]
  rfl

theorem readRegister_with_bsEnd (h : off ≠ 0x044) : readRegister off { s with bsEnd := v } = readRegister off s := by
  unfold readRegister
  simp only [if_neg h]
  rfl

theorem readRegister_with_ri (ri : BitVec 16) (h : off ≠ 0x054) :
    readRegister off { s with ri := ri } = readRegister off s := by
  unfold readRegister
  simp only [if_neg h]
  rfl

end

/-- What a write of `v` makes of a register's value `x` where the bits of `mask` are writable. -/
def replaceBits (mask x v : Word) : Word := (x &&& ~~~mask) ||| (v &&& mask)

theorem replaceBits_all (x v : Word) : replaceBits 0xFFFFFFFF x v = v := by
  have hall : (0xFFFFFFFF : Word) = BitVec.allOnes 32 := rfl
  rw [replaceBits, hall, BitVec.and_allOnes, BitVec.not_allOnes, BitVec.and_zero, BitVec.zero_or]

theorem replaceBits_none (x v : Word) : replaceBits 0 x v = x := by
  have hnone : ~~~(0 : Word) = BitVec.allOnes 32 := rfl
  rw [replaceBits, hnone, BitVec.and_allOnes]
  simp

theorem replaceBits_low (x : BitVec 16) (v : Word) :
    replaceBits 0x0000FFFF (x.setWidth 32) v = (v.setWidth 16).setWidth 32 := by
  have hmask : (0x0000FFFF : Word) = (BitVec.allOnes 16).setWidth 32 := rfl
  apply BitVec.eq_of_getLsbD_eq
  intro i hi
  simp only [replaceBits, hmask, BitVec.getLsbD_or, BitVec.getLsbD_and, BitVec.getLsbD_not, BitVec.getLsbD_setWidth,
    BitVec.getLsbD_allOnes, hi, decide_true, Bool.true_and]
  by_cases hlow : i < 16
  · simp [hlow]
  · simp [hlow, BitVec.getLsbD_of_ge x i (Nat.le_of_not_lt hlow)]

/-- Distinct aligned offsets of one array of registers have distinct indices. -/
theorem index_ne {n base a b : Nat} [NeZero n] (ha : base ≤ a ∧ a < base + 4 * n) (hb : base ≤ b ∧ b < base + 4 * n)
    (haligned : a % 4 = 0) (hbaligned : b % 4 = 0) (hbase : base % 4 = 0) (hne : a ≠ b) :
    (Fin.ofNat n ((a - base) / 4)).val ≠ (Fin.ofNat n ((b - base) / 4)).val := by
  simp only [Fin.val_ofNat]
  rw [Nat.mod_eq_of_lt (by omega), Nat.mod_eq_of_lt (by omega)]
  omega

section
variable {s : State} {a b : Nat} (v : Word)

theorem readRegister_writeRegister_arg (h : 0x020 ≤ a ∧ a < 0x040) (ha : a % 4 = 0) (hb : b % 4 = 0) :
    readRegister b (writeRegister a v s) =
      if a = b then replaceBits (writableBits a) (readRegister b s) v else readRegister b s := by
  have hwrite : writeRegister a v s = { s with args := s.args.set (Fin.ofNat 8 ((a - 0x020) / 4)) v } := by
    rw [writeRegister, if_neg (by omega), if_pos h]
  have hbits : writableBits a = 0xFFFFFFFF := by rw [writableBits, if_pos (by omega)]
  rw [hwrite, hbits, replaceBits_all]
  by_cases hin : 0x020 ≤ b ∧ b < 0x040
  · rw [readRegister_arg _ hin, readRegister_arg s hin]
    split
    next heq =>
      subst heq
      exact Vector.getElem_set_self _
    next hne => exact Vector.getElem_set_ne (Fin.isLt _) (Fin.isLt _) (index_ne (n := 8) h hin ha hb rfl hne)
  · rw [readRegister_with_args _ _ hin, if_neg (by omega)]

theorem readRegister_writeRegister_coef (h : 0x100 ≤ a ∧ a < 0x200) (ha : a % 4 = 0) (hb : b % 4 = 0) :
    readRegister b (writeRegister a v s) =
      if a = b then replaceBits (writableBits a) (readRegister b s) v else readRegister b s := by
  have hwrite : writeRegister a v s = { s with coef := s.coef.set (Fin.ofNat 64 ((a - 0x100) / 4)) v } := by
    unfold writeRegister
    repeat rw [if_neg (by omega)]
    rw [if_pos h]
  have hbits : writableBits a = 0xFFFFFFFF := by rw [writableBits, if_pos (by omega)]
  rw [hwrite, hbits, replaceBits_all]
  by_cases hin : 0x100 ≤ b ∧ b < 0x200
  · rw [readRegister_coef _ hin, readRegister_coef s hin]
    split
    next heq =>
      subst heq
      exact Vector.getElem_set_self _
    next hne => exact Vector.getElem_set_ne (Fin.isLt _) (Fin.isLt _) (index_ne (n := 64) h hin ha hb rfl hne)
  · rw [readRegister_with_coef _ _ hin, if_neg (by omega)]

/-- A write to a register with no writable bit, or to none, is ignored. -/
theorem writeRegister_readOnly (hstatus : a ≠ 0x008) (hwindow : a < 0x200) (ha : a % 4 = 0) (hbits : writableBits a = 0) :
    writeRegister a v s = s := by
  unfold writableBits at hbits
  split at hbits
  · cases hbits
  · split at hbits
    · cases hbits
    · unfold writeRegister
      repeat rw [if_neg (by omega)]

theorem readRegister_writeRegister (hstatus : a ≠ 0x008) (hwindow : a < 0x200) (ha : a % 4 = 0) (hb : b % 4 = 0) :
    readRegister b (writeRegister a v s) =
      if a = b then replaceBits (writableBits a) (readRegister b s) v else readRegister b s := by
  by_cases hargs : 0x020 ≤ a ∧ a < 0x040
  · exact readRegister_writeRegister_arg v hargs ha hb
  by_cases hcoef : 0x100 ≤ a ∧ a < 0x200
  · exact readRegister_writeRegister_coef v hcoef ha hb
  -- The registers by themselves: BS_PTR, BS_END and RI.
  by_cases hsingle : a = 0x040 ∨ a = 0x044 ∨ a = 0x054
  · split
    next heq =>
      subst heq
      obtain rfl | rfl | rfl := hsingle
      · exact (replaceBits_all _ _).symm
      · exact (replaceBits_all _ _).symm
      · exact (replaceBits_low _ _).symm
    next hne =>
      obtain rfl | rfl | rfl := hsingle
      · exact readRegister_with_bsPtr s v (Ne.symm hne)
      · exact readRegister_with_bsEnd s v (Ne.symm hne)
      · exact readRegister_with_ri s _ (Ne.symm hne)
  · have hbits : writableBits a = 0 := by rw [writableBits, if_neg (by omega), if_neg (by omega)]
    rw [writeRegister_readOnly v hstatus hwindow ha hbits, hbits, replaceBits_none, ite_self]

end

/-! ### FAULT (60_exceptions.md R290) -/

/-- A command cannot clear FAULT. -/
theorem ends_fault {i : Instr} {s t : State} (h : Ends s i t) (hfault : s.fault = true) : t.fault = true := by
  cases h with
  | early | codeLengths | stream | restartPoint | block => rfl
  | result | dqt | dht | arm | cursor | decoded | count | restart | scanEnd => exact hfault
  | stored | storedIdct => simpa using hfault

theorem coreTurn_fault {s t : State} (h : coreTurn s = .next t) (hfault : s.fault = true) : t.fault = true := by
  unfold coreTurn at h
  split at h
  · unfold coreMove at h
    split at h
    · exact ends_fault (Ends.of_exec h) hfault
    · cases h; rfl
  · cases h; exact hfault

/-- A register write other than a soft reset leaves FAULT at 1. -/
theorem hostRegWrite_fault {s : State} (hfault : s.fault = true) (size : AccessSize) (off : BitVec 9) (v : Word) :
    (hostRegWrite size off v s).fault = true ∨ s.rstN = true ∧ size = .word ∧ off = 0x004 ∧ v.getLsbD 0 = true := by
  unfold hostRegWrite
  split
  next haccess =>
    split
    next hoff =>
      cases hreset : v.getLsbD 0 with
      | true =>
        obtain ⟨hrst, halign⟩ := Bool.and_eq_true_iff.mp haccess
        exact .inr ⟨hrst, (alignedWord_iff.mp halign).1, hoff, rfl⟩
      | false =>
        rw [writeCtrl_of_not_srst hreset]
        exact .inl hfault
    next =>
      split
      · rw [offerCommand, if_pos hfault]
        split <;> exact .inl hfault
      · split
        · exact .inl hfault
        · exact .inl ((writeRegister_fault _ _ _).trans hfault)
  next => exact .inl hfault

theorem hostRegRead_fault {size : AccessSize} {off : BitVec 9} {s t : State} (h : hostRegRead size off s = .next t) :
    t.fault = s.fault := by
  unfold hostRegRead at h
  split at h
  · split at h <;> cases h <;> rfl
  · cases h

/-- Of the host's accesses only the two resets clear FAULT. -/
theorem hostMove_fault {op : HostOp} {s t : State} (h : hostMove op s = .next t) (hfault : s.fault = true) :
    t.fault = true ∨ op = .rstN false ∨
      ∃ v : Word, s.rstN = true ∧ v.getLsbD 0 = true ∧ op = .regWrite .word 0x004 v := by
  cases op with
  | regWrite size off v =>
    cases h
    obtain hkept | ⟨hrst, rfl, rfl, hreset⟩ := hostRegWrite_fault hfault size off v
    · exact .inl hkept
    · exact .inr (.inr ⟨v, hrst, hreset, rfl⟩)
  | regRead => exact .inl ((hostRegRead_fault h).trans hfault)
  | memWrite | memRead => obtain ⟨-, -, -, rfl⟩ := memPort_next h; exact .inl hfault
  | rstN level =>
    cases h
    cases level with
    | true => exact .inl hfault
    | false => exact .inr (.inl rfl)
  | wait => exact .inl (coreTurn_fault h hfault)

theorem step_fault {s t : State} (h : step s = .next t) (hfault : s.fault = true) :
    t.fault = true ∨ ∃ rest, s.host = .rstN false :: rest ∨
      ∃ v : Word, s.rstN = true ∧ v.getLsbD 0 = true ∧ s.host = .regWrite .word 0x004 v :: rest := by
  unfold step at h
  split at h
  next => exact .inl (coreTurn_fault h hfault)
  next op rest hhost =>
    obtain hkept | rfl | ⟨v, hrst, hv, rfl⟩ := hostMove_fault (s := { s with host := rest }) h hfault
    · exact .inl hkept
    · exact .inr ⟨rest, .inl hhost⟩
    · exact .inr ⟨rest, .inr ⟨v, hrst, hv, hhost⟩⟩

/-! ### The obligations -/

/-- Settles O6: acceptance, the core's turn and the idle core, by what stands first in the host's list. -/
theorem stepRunsAcceptedCommand : Obligations.StepRunsAcceptedCommand := by
  unfold Obligations.StepRunsAcceptedCommand
  refine ⟨fun s w i rest hrst hidle hfault hhost hw => step_cmdWrite_legal hrst hidle hfault hhost hw,
    fun s i hbusy hi hhost => (step_of_no_access hhost).trans (coreTurn_of_busy hbusy hi),
    fun s i rest hbusy hi hhost => (step_wait hhost).trans (coreTurn_of_busy hbusy hi),
    fun s hidle hhost => (step_of_no_access hhost).trans (coreTurn_of_idle hidle),
    fun s rest hidle hhost => (step_wait hhost).trans (coreTurn_of_idle hidle)⟩

/-- Settles O8: no end of a command and no access but the two resets leaves FAULT at 0, and a CMD write under FAULT = 1 is not
offered to the decoder. -/
theorem faultIsSticky : Obligations.FaultIsSticky := by
  unfold Obligations.FaultIsSticky
  refine ⟨fun s t h hfault hlow => ?sticky, fun s w rest hrst hidle hfault hhost => ?discarded⟩
  case sticky => exact (step_fault h hfault).resolve_left (by simp [hlow])
  case discarded =>
    rw [step_cmdWrite hrst hhost, offerCommand, if_neg (by simp [hidle]), if_pos hfault]

/-- Settles O10: STATUS is flags at their bits, and its write is one step. -/
theorem statusRegister : Obligations.StatusRegister := by
  unfold Obligations.StatusRegister
  refine ⟨fun s => ?asRead, fun s v rest => step_statusWrite⟩
  rw [readRegister_status, readRegister_marker, statusWord_done, statusWord_fault, markerWord_valid]
  obtain ⟨hbusy, hoverrun, hscanEnd, hmarker, hnomore⟩ := statusWord_bits s
  exact ⟨hbusy, rfl, rfl, hoverrun, hscanEnd, hmarker, hmarker, hnomore, fun j => statusWord_above s⟩

/-- Settles O12: by the region of the window that the write falls in, each an array of registers or one register. -/
theorem registerReadAfterWrite : Obligations.RegisterReadAfterWrite := by
  unfold Obligations.RegisterReadAfterWrite
  intro s a v rest hrst hidle ha hctrl hstatus hcmd hhost
  have hwrite := hostRegWrite_of_idle (s := { s with host := rest }) hctrl hcmd ha hrst hidle v
  refine ⟨_, (step_regWrite hhost).trans (congrArg _ hwrite), fun b hb => ?_⟩
  have hstatus' : a.toNat ≠ 0x008 := fun h => hstatus (BitVec.eq_of_toNat_eq h)
  rw [readRegister_writeRegister v hstatus' a.isLt ha hb, replaceBits]
  simp only [BitVec.toNat_inj]
  rfl

/-- Settles O13: by the kind of the access; a busy read by the two ranges of offsets that still have a value. -/
theorem registerPortWhileBusy : Obligations.RegisterPortWhileBusy := by
  unfold Obligations.RegisterPortWhileBusy
  refine ⟨fun s w rest => step_cmdWrite_busy, fun s off v rest hrst hbusy hctrl hcmd hhost => ?write,
    fun s off rest hrst hbusy halign hhost => ?read, fun s size off v rest hrst hbad hhost => ?narrow,
    fun s off rest hrst hidle halign hhost => ?idleRead⟩
  case write =>
    have hwrite := hostRegWrite_of_busy (s := { s with host := rest }) hctrl hcmd hbusy .word v
    exact (step_regWrite hhost).trans (congrArg _ hwrite)
  case read => exact (step_regRead hhost).trans (hostRegRead_of_busy (s := { s with host := rest }) halign hrst hbusy)
  case narrow => rw [step_regWrite hhost, hostRegWrite_of_not_aligned hbad]
  case idleRead => exact (step_regRead hhost).trans (hostRegRead_of_idle (s := { s with host := rest }) halign hrst hidle)

end Sys2Proof.Proofs
end

section
/-! SUPPORT. The host's MEM port (20_memory.md R73; 70_reset_and_hazards.md R317): the bytes of a little-endian access, and
when the port lets one through. -/
namespace Sys2Proof.Proofs

open Sys2Proof.Machine

/-! ### Little-endian accesses (20_memory.md R73) -/

theorem littleEndianValue_succ (m : Memory) (a n : Nat) :
    littleEndianValue m a (n + 1) = (m.read a).toNat + 256 * littleEndianValue m (a + 1) n := by
  simp [littleEndianValue, readBytes, List.range_succ_eq_map, Function.comp_def, Nat.add_assoc, Nat.add_comm 1]

/-- Bytes that are the digits of `v` to base 256 read as `v` cut to so many digits. -/
theorem littleEndianValue_of_digits {m : Memory} {a n v : Nat}
    (h : ∀ i, i < n → (m.read (a + i)).toNat = v / 256 ^ i % 256) : littleEndianValue m a n = v % 256 ^ n := by
  induction n generalizing a v with
  | zero => simp [littleEndianValue, readBytes, Nat.mod_one]
  | succ n ih =>
    have hrest : ∀ i, i < n → (m.read (a + 1 + i)).toNat = v / 256 / 256 ^ i % 256 := by
      intro i hi
      rw [Nat.add_assoc, Nat.add_comm 1, h (i + 1) (by omega), Nat.div_div_eq_div_mul, Nat.pow_succ']
    have hfirst : (m.read a).toNat = v % 256 := by simpa using h 0 (by omega)
    rw [littleEndianValue_succ, hfirst, ih hrest, Nat.pow_succ', Nat.mod_mul]

theorem littleEndianBytes_pairwise (a n v : Nat) : (littleEndianBytes a n v).Pairwise (fun x y => x.1 ≠ y.1) := by
  refine List.pairwise_map.mpr (List.pairwise_lt_range.imp fun hij => ?_)
  dsimp only
  omega

theorem read_littleEndianBytes (m : Memory) (a v : Nat) {n i : Nat} (hi : i < n) :
    ((m.writeAll (littleEndianBytes a n v)).read (a + i)).toNat = v / 256 ^ i % 256 := by
  have hmem : (a + i, BitVec.ofNat 8 (v / 256 ^ i)) ∈ littleEndianBytes a n v :=
    List.mem_map.mpr ⟨i, List.mem_range.mpr hi, rfl⟩
  rw [Memory.read_writeAll_mem _ _ _ _ (littleEndianBytes_pairwise a n v) hmem, BitVec.toNat_ofNat]

theorem read_littleEndianBytes_other (m : Memory) (v : Nat) {a n b : Nat} (hb : b < a ∨ a + n ≤ b) :
    (m.writeAll (littleEndianBytes a n v)).read b = m.read b := by
  refine Memory.read_writeAll_other _ _ _ fun w hw => ?_
  simp only [littleEndianBytes, List.mem_map, List.mem_range] at hw
  obtain ⟨i, hi, rfl⟩ := hw
  dsimp only
  omega

/-! ### The port's checks (70_reset_and_hazards.md R317, R322) -/

section
variable {a n : Nat} {s : State} (k : State) (hrst : s.rstN = true)
include hrst

theorem memPort_of_idle (hidle : s.busy = false) (hin : a + n ≤ s.config.memSize) : memPort a n s k = .next k := by
  rw [memPort, if_pos hrst, if_neg (by simp [hidle]), if_neg (by omega)]

theorem memPort_of_busy (hbusy : s.busy = true) : memPort a n s k = .refused .memWhileBusy := by
  rw [memPort, if_pos hrst, if_pos hbusy]

theorem memPort_past_end (hidle : s.busy = false) (hn : 0 < n) (hout : s.config.memSize < a + n) :
    memPort a n s k = .fault (.memPortRange (max a s.config.memSize)) := by
  rw [memPort, if_pos hrst, if_neg (by simp [hidle]), if_pos ⟨hn, hout⟩]

end

/-! ### The obligation -/

/-- Settles O60: the bytes written are the digits of the value to base 256, at addresses of their own, and the port checks
BUSY before the range. -/
theorem hostMemAccess : Obligations.HostMemAccess := by
  unfold Obligations.HostMemAccess
  refine ⟨fun s a n v rest hrst hidle hin hhost => ?write, fun s a n rest hrst hidle hin hhost => ?read,
    fun s a n v rest hrst hhost => ?stopped⟩
  case write =>
    refine ⟨{ s with mem := s.mem.writeAll (littleEndianBytes a.toNat n v), host := rest }, ?_, rfl,
      fun i => read_littleEndianBytes s.mem a.toNat v, fun b => read_littleEndianBytes_other s.mem v,
      littleEndianValue_of_digits fun i => read_littleEndianBytes s.mem a.toNat v⟩
    simp only [step, hhost, hostMove]
    exact memPort_of_idle _ hrst hidle hin
  case read =>
    simp only [step, hhost, hostMove]
    exact memPort_of_idle _ hrst hidle hin
  case stopped =>
    obtain ⟨k, hstep⟩ : ∃ k, step s = memPort a.toNat n { s with host := rest } k := by
      obtain hhost | hhost := hhost <;> simp only [step, hhost, hostMove] <;> exact ⟨_, rfl⟩
    rw [hstep]
    exact ⟨memPort_of_busy _ hrst, memPort_past_end _ hrst⟩

end Sys2Proof.Proofs
end

section
/-! SUPPORT. Commands as a whole (10_state.md section 7; 60_exceptions.md R288; 70_reset_and_hazards.md R315): what every end
of a command leaves of the host's state, of MEM and of the decoder's state, and the host's command protocol. -/
namespace Sys2Proof.Proofs

open Sys2Proof.Machine Sys2Proof.Safety

/-! ### The host's own state (10_state.md section 7) -/

/-- The fields that the host owns agree. -/
def HostStateKept (s t : State) : Prop :=
  t.args = s.args ∧ t.bsEnd = s.bsEnd ∧ t.ri = s.ri ∧ t.irqEn = s.irqEn ∧ t.cmdLast = s.cmdLast ∧
    t.overrun = s.overrun ∧ t.config = s.config ∧ t.rstN = s.rstN ∧ t.host = s.host ∧
    t.hostRegData = s.hostRegData ∧ t.hostMemData = s.hostMemData

theorem ends_hostStateKept {i : Instr} {s t : State} (h : Ends s i t) : HostStateKept s t := by
  cases h with
  | stored | storedIdct => simp [HostStateKept]
  | _ => exact ⟨rfl, rfl, rfl, rfl, rfl, rfl, rfl, rfl, rfl, rfl, rfl⟩

/-! ### Parameters and the host's list under a step (00_scope.md section 4) -/

/-- The parameters and the host's list agree. -/
def SetupKept (s t : State) : Prop := t.config = s.config ∧ t.host = s.host

theorem coreTurn_setupKept {s t : State} (h : coreTurn s = .next t) : SetupKept s t := by
  unfold coreTurn at h
  split at h
  · unfold coreMove at h
    split at h
    · obtain ⟨-, -, -, -, -, -, hconfig, -, hhost, -⟩ := ends_hostStateKept (Ends.of_exec h)
      exact ⟨hconfig, hhost⟩
    · cases h; exact ⟨rfl, rfl⟩
  · cases h; exact ⟨rfl, rfl⟩

theorem offerCommand_setupKept (w : Word) (s : State) : SetupKept s (offerCommand w s) := by
  unfold offerCommand
  split
  · exact ⟨rfl, rfl⟩
  · split
    · exact ⟨rfl, rfl⟩
    · split <;> exact ⟨rfl, rfl⟩

theorem writeRegister_setupKept (off : Nat) (v : Word) (s : State) : SetupKept s (writeRegister off v s) := by
  simp only [SetupKept, writeRegister, writeStatus, apply_ite State.config, apply_ite State.host, ite_self, and_self]

theorem hostRegWrite_setupKept (size : AccessSize) (off : BitVec 9) (v : Word) (s : State) :
    SetupKept s (hostRegWrite size off v s) := by
  unfold hostRegWrite
  split
  · split
    · unfold writeCtrl
      split
      · exact ⟨softReset_config s, softReset_host s⟩
      · exact ⟨rfl, rfl⟩
    · split
      · exact offerCommand_setupKept v s
      · split
        · exact ⟨rfl, rfl⟩
        · exact writeRegister_setupKept off.toNat v s
  · exact ⟨rfl, rfl⟩

theorem hostRegRead_setupKept {size : AccessSize} {off : BitVec 9} {s t : State} (h : hostRegRead size off s = .next t) :
    SetupKept s t := by
  unfold hostRegRead at h
  split at h
  · split at h <;> cases h <;> exact ⟨rfl, rfl⟩
  · cases h

theorem hostMove_setupKept {op : HostOp} {s t : State} (h : hostMove op s = .next t) : SetupKept s t := by
  cases op with
  | regWrite size off v => cases h; exact hostRegWrite_setupKept size off v s
  | regRead => exact hostRegRead_setupKept h
  | memWrite | memRead => obtain ⟨-, -, -, rfl⟩ := memPort_next h; exact ⟨rfl, rfl⟩
  | rstN level => cases h; cases level <;> exact ⟨rfl, rfl⟩
  | wait => exact coreTurn_setupKept h

/-! ### How a command ends (00_scope.md R8; 60_exceptions.md R288) -/

/-- A completion, with the fault registers as before, or a fault, with DONE as before. -/
def EndedCommand (s t : State) : Prop :=
  t.busy = false ∧
    ((t.done = true ∧ t.fault = s.fault ∧ t.faultCode = s.faultCode ∧ t.faultInfo = s.faultInfo ∧ t.faultCmd = s.faultCmd) ∨
      (t.fault = true ∧ t.done = s.done ∧ t.faultCmd = s.cmdLast))

theorem ends_endedCommand {i : Instr} {s t : State} (h : Ends s i t) : EndedCommand s t := by
  cases h with
  | early | codeLengths | stream | restartPoint | block => exact ⟨rfl, .inr ⟨rfl, rfl, rfl⟩⟩
  | result | dqt | dht | arm | cursor | decoded | count | restart | scanEnd => exact ⟨rfl, .inl ⟨rfl, rfl, rfl, rfl, rfl⟩⟩
  | stored | storedIdct => simp [EndedCommand]

/-- The core's turn always goes through, and leaves an idle core. -/
theorem coreTurn_ends (s : State) : ∃ t, coreTurn s = .next t ∧ t.busy = false ∧ t.rstN = s.rstN := by
  unfold coreTurn
  split
  · unfold coreMove
    split
    next i _ =>
      obtain ⟨t, hexec, hends⟩ := exec_ends i s
      obtain ⟨hidle, -⟩ := ends_endedCommand hends
      obtain ⟨-, -, -, -, -, -, -, hrst, -⟩ := ends_hostStateKept hends
      exact ⟨t, hexec, hidle, hrst⟩
    next => exact ⟨_, rfl, rfl, rfl⟩
  next hidle => exact ⟨s, rfl, by simpa using hidle, rfl⟩

/-! ### IssueCommand (70_reset_and_hazards.md R315) -/

@[simp] theorem hostMove_wait (s : State) : hostMove .wait s = coreTurn s := rfl

section
variable {s : State} (hrst : s.rstN = true) (hidle : s.busy = false)
include hrst hidle

theorem hostMove_regRead {off : BitVec 9} (halign : off.toNat % 4 = 0) :
    hostMove (.regRead .word off) s = .next { s with hostRegData := readRegister off.toNat s } :=
  hostRegRead_of_idle halign hrst hidle

theorem hostMove_setArg (i : Fin 8) (v : Word) : hostMove (setArg i v) s = .next { s with args := s.args.set i v } := by
  have hoff : (BitVec.ofNat 9 (0x020 + 4 * i.val)).toNat = 0x020 + 4 * i.val := by
    rw [BitVec.toNat_ofNat, Nat.mod_eq_of_lt (by omega)]
  have hindex : Fin.ofNat 8 ((0x020 + 4 * i.val - 0x020) / 4) = i := by
    apply Fin.ext
    simp only [Fin.val_ofNat]
    omega
  have hctrl : BitVec.ofNat 9 (0x020 + 4 * i.val) ≠ 0x004 := by bv_omega
  have hcmd : BitVec.ofNat 9 (0x020 + 4 * i.val) ≠ 0x00C := by bv_omega
  rw [setArg, hostMove, hostRegWrite_of_idle hctrl hcmd (by omega) hrst hidle, hoff, writeRegister, if_neg (by omega),
    if_pos (by omega)]
  simp only [hindex]

theorem runAccesses_setArgs (args : List (Fin 8 × Word)) :
    runAccesses (args.map (fun a => setArg a.1 a.2)) s =
      .next ({ s with args := args.foldl (fun regs a => regs.set a.1 a.2) s.args }, []) := by
  induction args generalizing s with
  | nil => rfl
  | cons a args ih =>
    have hrest := ih (s := { s with args := s.args.set a.1 a.2 }) hrst hidle
    simp only [List.map_cons, runAccesses, hostMove_setArg hrst hidle, hrest]
    rfl

/-- The reads that end IssueCommand give the three fault registers or RESULT, and change `hostRegData` alone. -/
theorem runAccesses_endReads :
    ∃ d words, runAccesses (endReads (readRegister 0x008 s)) s = .next ({ s with hostRegData := d }, words) ∧
      (s.fault = true → words = [s.faultCode, s.faultInfo, s.faultCmd]) ∧ (s.fault = false → words = [s.result]) := by
  rw [endReads, readRegister_status, statusWord_fault]
  cases hfault : s.fault with
  | true =>
    refine ⟨s.faultCmd, [s.faultCode, s.faultInfo, s.faultCmd], ?_, fun _ => rfl, nofun⟩
    simp [runAccesses, hostMove_regRead, hrst, hidle, wordRead, hfault, readRegister]
  | false =>
    refine ⟨s.result, [s.result], ?_, nofun, fun _ => rfl⟩
    simp [runAccesses, hostMove_regRead, hrst, hidle, wordRead, hfault, readRegister]

end

/-- A poll gives the core the turn and reads STATUS once it is idle. -/
theorem runAccesses_pollStatus {s u : State} (hrst : s.rstN = true) (h : coreTurn s = .next u) :
    runAccesses pollStatus s = .next ({ u with hostRegData := readRegister 0x008 u }, [readRegister 0x008 u]) := by
  obtain ⟨t, ht, hidle, hkept⟩ := coreTurn_ends s
  obtain rfl : t = u := Host.Outcome.next.inj (ht.symm.trans h)
  simp [pollStatus, runAccesses, h, hostMove_regRead (hkept.trans hrst) hidle, wordRead]

theorem hostMove_cmdWrite {s : State} (hrst : s.rstN = true) (w : Word) :
    hostMove (.regWrite .word 0x00C w) s = .next (offerCommand w s) := by
  simp [hostMove, hostRegWrite, alignedWord, hrst]

@[simp] theorem offerCommand_rstN (w : Word) (s : State) : (offerCommand w s).rstN = s.rstN := by
  unfold offerCommand
  split
  · rfl
  · split
    · rfl
    · split <;> rfl

theorem runAccesses_issueWord {s v : State} (hrst : s.rstN = true) (w : Word) (h : coreTurn (offerCommand w s) = .next v) :
    runAccesses (issueWord w) s = .next ({ v with hostRegData := readRegister 0x008 v }, [readRegister 0x008 v]) := by
  rw [issueWord, runAccesses, hostMove_cmdWrite hrst]
  simp [runAccesses_pollStatus (s := offerCommand w s) (by simpa using hrst) h, wordRead]

/-- The idle core `s` once IssueCommand has read STATUS and written its ARGs (70_reset_and_hazards.md R315). -/
def argsWritten (args : List (Fin 8 × Word)) (s : State) : State :=
  { s with
    args := args.foldl (fun regs a => regs.set a.1 a.2) s.args
    hostRegData := readRegister 0x008 s }

/-- IssueCommand gives the core two turns, before the ARGs are written and after the word is offered, and ends with reads. -/
theorem runCommand_eq {w : Word} {args : List (Fin 8 × Word)} {s u v : State} (hrst : s.rstN = true)
    (hu : coreTurn s = .next u) (hv : coreTurn (offerCommand w (argsWritten args u)) = .next v) :
    ∃ d words, runCommand w args s = .next ({ v with hostRegData := d }, words) ∧ v.busy = false ∧
      (v.fault = true → words = [v.faultCode, v.faultInfo, v.faultCmd]) ∧ (v.fault = false → words = [v.result]) := by
  obtain ⟨u', hu', hidle, hkept⟩ := coreTurn_ends s
  obtain rfl : u' = u := Host.Outcome.next.inj (hu'.symm.trans hu)
  obtain ⟨v', hv', hvidle, hvkept⟩ := coreTurn_ends (offerCommand w (argsWritten args u'))
  obtain rfl : v' = v := Host.Outcome.next.inj (hv'.symm.trans hv)
  have hurst : (argsWritten args u').rstN = true := hkept.trans hrst
  have hvrst : v'.rstN = true := hvkept.trans ((offerCommand_rstN _ _).trans hurst)
  have hargs := runAccesses_setArgs (s := { u' with hostRegData := readRegister 0x008 u' }) hurst hidle args
  have hissue := runAccesses_append (runAccesses_append (runAccesses_pollStatus hrst hu) hargs)
    (runAccesses_issueWord hurst w hv)
  obtain ⟨d, words, hreads, hwords⟩ :=
    runAccesses_endReads (s := { v' with hostRegData := readRegister 0x008 v' }) hvrst hvidle
  refine ⟨d, words, ?_, hvidle, hwords⟩
  rw [runCommand, issueCommand, hissue]
  exact hreads

/-! ### The obligations -/

/-- Settles O18: no end of a command writes a field of the host. -/
theorem commandsKeepHostState : Obligations.CommandsKeepHostState := by
  unfold Obligations.CommandsKeepHostState
  exact fun i s t h => ends_hostStateKept (Ends.of_exec h)

/-- Settles O25: a step takes the first access off the list, and neither it nor the core's turn touches the rest or a
parameter. -/
theorem stepKeepsParameters : Obligations.StepKeepsParameters := by
  unfold Obligations.StepKeepsParameters
  intro s t h
  unfold step at h
  split at h
  next hhost => simpa [hhost, SetupKept] using coreTurn_setupKept h
  next op rest hhost => simpa [hhost, SetupKept] using hostMove_setupKept h

/-- Settles O40: NOP is its completion. -/
theorem nopCompletes : Obligations.NopCompletes := by
  unfold Obligations.NopCompletes
  exact fun s => rfl

/-- Settles O17: every end of a command is a completion or a fault, so each turn of the core that IssueCommand polls for leaves
it idle, and a legal word's turn runs its command. -/
theorem everyCommandEnds : Obligations.EveryCommandEnds := by
  unfold Obligations.EveryCommandEnds
  refine ⟨fun i s => ?ends, fun w args s hrst => ?protocol, fun w i args s t u words hrst hidle hfault hw hu hrun => ?accepted⟩
  case ends =>
    obtain ⟨t, hexec, hends⟩ := exec_ends i s
    exact ⟨t, hexec, ends_endedCommand hends⟩
  case protocol =>
    obtain ⟨u, hu, -⟩ := coreTurn_ends s
    obtain ⟨v, hv, -⟩ := coreTurn_ends (offerCommand w (argsWritten args u))
    obtain ⟨d, words, hrun, hend⟩ := runCommand_eq hrst hu hv
    exact ⟨_, words, hrun, hend⟩
  case accepted =>
    have hoffer : offerCommand w (argsWritten args s) = accept w (argsWritten args s) := by
      simp [offerCommand, argsWritten, hidle, hfault, hw]
    have hturn : coreTurn (offerCommand w (argsWritten args s)) = .next u := by
      rw [hoffer]
      exact (coreTurn_of_busy rfl hw).trans hu
    obtain ⟨d, words', hrun', -⟩ := runCommand_eq hrst (coreTurn_of_idle hidle) hturn
    rw [hrun] at hrun'
    cases hrun'
    rfl

end Sys2Proof.Proofs
end

section
/-! SUPPORT. What a command leaves unchanged (10_state.md section 7; 20_memory.md section 3; 60_exceptions.md R288): the
record's slot, MEM outside the write footprint, and everything a fault does not name. -/
namespace Sys2Proof.Proofs

open Sys2Proof.Machine Sys2Proof.Safety

/-! ### The record's slot (41_tables.md R140, R146) -/

theorem recordSlot_val {b : Byte} (hh : highNibble b ≤ 1) (hl : lowNibble b ≤ 3) :
    (recordSlot (highNibble b) (lowNibble b)).val = 4 * (b.toNat / 16) + b.toNat % 16 := by
  unfold highNibble at hh
  unfold lowNibble at hl
  simp only [recordSlot, highNibble, lowNibble, Fin.val_ofNat]
  omega

theorem get_set_other {α : Type} {n : Nat} (v : Vector α n) {i j : Fin n} (x : α) (h : j ≠ i) :
    (v.set i x).get j = v.get j :=
  Vector.getElem_set_ne _ _ (Fin.val_ne_of_ne h.symm)

theorem get_set_self {α : Type} {n : Nat} (v : Vector α n) (i : Fin n) (x : α) : (v.set i x).get i = x :=
  Vector.getElem_set_self _

/-! ### MEM (20_memory.md section 3) -/

theorem ends_mem {i : Instr} {s t : State} (h : Ends s i t) :
    t.mem = s.mem ∨
      ∃ reads dest ws, writerFootprint i s = some (reads, dest) ∧ (∀ w ∈ ws, w.1 ∈ dest.addresses) ∧
        t.mem = (storeRows reads dest ws s).mem ∧ t.fault = s.fault := by
  cases h with
  | stored _ reads dest ws hf _ _ hw => exact .inr ⟨reads, dest, ws, hf, hw, rfl, by simp⟩
  | storedIdct ws _ hw => exact .inr ⟨[], idctRows s, ws, rfl, hw, rfl, by simp⟩
  | _ => exact .inl rfl

/-- Settles O20: a command that changes MEM at all stores to the addresses of its write footprint, and has not faulted. -/
theorem commandMemFrame : Obligations.CommandMemFrame := by
  unfold Obligations.CommandMemFrame
  intro i s t h
  obtain hmem | ⟨reads, dest, ws, hfoot, hws, hmem, hfault⟩ := ends_mem (Ends.of_exec h)
  · exact ⟨fun a _ => by rw [hmem], fun _ => hmem, fun _ _ => hmem⟩
  · refine ⟨fun a ha => ?_, fun hnone => ?_, fun hs ht => ?_⟩
    · rw [hmem]
      exact storeRows_read_other _ _ _ _ _ fun w hw => ne_of_mem_of_not_mem (hws w hw) (ha reads dest hfoot)
    · simp [hnone] at hfoot
    · simp [hfault, hs] at ht

/-! ### The decoder's state (10_state.md section 7) -/

/-- The slots other than a record's own, as its first byte names it, are not the slot it is loaded to. -/
theorem ne_recordSlot {b : Byte} {slot : Fin 8} (hh : highNibble b ≤ 1) (hl : lowNibble b ≤ 3)
    (h : slot.val ≠ 4 * (b.toNat / 16) + b.toNat % 16) : slot ≠ recordSlot (highNibble b) (lowNibble b) :=
  fun heq => h (heq ▸ recordSlot_val hh hl)

theorem ne_quantSlot {b : Byte} {slot : Fin 4} (hl : lowNibble b ≤ 3) (h : slot.val ≠ b.toNat % 16) :
    slot ≠ Fin.ofNat 4 (lowNibble b) := by
  rintro rfl
  unfold lowNibble at hl h
  rw [Fin.val_ofNat] at h
  omega

/-- Settles O21: of each end of a command, only the clauses about what it writes have anything to say. -/
theorem commandStateFrame : Obligations.CommandStateFrame := by
  unfold Obligations.CommandStateFrame
  intro i s t h
  cases Ends.of_exec h with
  | early | result | stored | storedIdct | arm | count => simp
  | codeLengths _ _ hh hl | dht _ _ _ hh hl =>
    simpa [slotFault] using fun slot hslot => get_set_other _ _ (ne_recordSlot hh hl hslot)
  | dqt _ hl => simpa using fun slot hslot => get_set_other _ _ (ne_quantSlot hl hslot)
  | stream _ _ _ hs hb => simp [hs, hb]
  | cursor _ _ _ hs => simp [hs]
  | restartPoint | restart | scanEnd => simp [usesStream]
  | block dc ac q c | decoded dc ac q c => simp +contextual [usesStream, get_set_other]

/-! ### The fault entry (60_exceptions.md R281, R288) -/

theorem streamCode_mem {r : Raised} (h : StreamCode r) :
    r.code ∈ [FaultName.streamExhausted, .addrRange, .badHuffmanCode] := by
  unfold StreamCode at h
  simpa using h

theorem faultName_word (f : FaultName) :
    f.word =
      match f with
      | .illegalCommand => 0x501
      | .addrRange => 0x502
      | .streamExhausted => 0x303
      | .badHuffmanCode => 0x404
      | .badCodeLengths => 0x105
      | .badDht => 0x106
      | .badDqt => 0x107
      | .unboundTable => 0x108
      | .unsupportedPrecision => 0x209 := by
  cases f <;> decide

theorem restartRefill_code {s : State} {c : Cursor} {r : Raised} (h : restartRefill s c = .error r) : StreamCode r := by
  unfold restartRefill at h
  split at h
  · cases h
  · exact refillBelow_code h

/-- END_MCU faults at a restart point alone, with TODO counted down to 0 (44_scan.md R221; log 14). -/
theorem endMcu_fault {s t : State} (h : exec .endMcu s = .next t) (hs : s.fault = false) (ht : t.fault = true) :
    ∃ r, StreamCode r ∧ t = streamFault r { s with todo := 0 } := by
  obtain ⟨t', h', hend⟩ := execEndMcu_cases s
  obtain rfl : t' = t := Host.Outcome.next.inj (h'.symm.trans h)
  obtain ⟨-, rfl⟩ | ⟨-, -, rfl⟩ | ⟨-, hz, ⟨r, hr, rfl⟩ | ⟨c, -, -, rfl⟩ | ⟨c, -, -, rfl⟩⟩ := hend
  case inr.inr.inl => exact ⟨r, restartRefill_code hr, restartFault_eq r s hz⟩
  all_goals simp [hs] at ht

/-- Settles O19: the entry is its definition, and each of the three kinds of fault sets the fields of R288 and no other. END_MCU
is taken by itself, since of the stream commands it alone has written TODO when it faults. -/
theorem faultLeavesRest : Obligations.FaultLeavesRest := by
  unfold Obligations.FaultLeavesRest
  refine ⟨fun r s => rfl, fun f info s => faultName_word f, fun i s t h hs ht => ?faults⟩
  by_cases hi : i = .endMcu
  · subst hi
    obtain ⟨r, hcode, rfl⟩ := endMcu_fault h hs ht
    exact ⟨r, .inr (.inr (.inr ⟨streamCode_mem hcode, rfl, rfl, rfl, fun _ => ⟨rfl, rfl⟩, nofun⟩))⟩
  cases Ends.of_exec h with
  | early _ r hcode =>
    exact ⟨r, hcode.elim (fun hcode => .inl ⟨hcode, rfl⟩) fun ⟨hcode, hrows⟩ => .inr (.inl ⟨hcode, hrows, rfl⟩)⟩
  | codeLengths r hcode hh hl =>
    exact ⟨r, .inr (.inr (.inl ⟨hcode, rfl, _, recordSlot_val hh hl, by simp [slotFault, get_set_self]⟩))⟩
  | stream _ r hcode hstream hblock =>
    exact ⟨r, .inr (.inr (.inr ⟨streamCode_mem hcode, hstream, rfl, by simp [hi], fun _ => ⟨rfl, rfl⟩,
      fun dc ac q c hdc => absurd hdc (hblock dc ac q c)⟩))⟩
  | restartPoint => exact absurd rfl hi
  | block dc ac q c r hcode =>
    refine ⟨r, .inr (.inr (.inr ⟨streamCode_mem hcode, rfl, rfl, rfl, fun hblock => absurd rfl (hblock dc ac q c), ?_⟩))⟩
    rintro dc' ac' q' c' heq j hj
    cases heq
    exact get_set_other _ _ hj
  | result | dqt | dht | arm | cursor | decoded | count | restart | scanEnd | stored | storedIdct => simp [hs] at ht

end Sys2Proof.Proofs
end

section
/-! SUPPORT. The footprint check (20_memory.md R75): the lowest address that does not exist is the one that the check finds,
and a command whose check fails ends in it. -/
namespace Sys2Proof.Proofs

open Sys2Proof.Machine Sys2Proof.Safety

/-! ### The check finds the lowest address outside MEM -/

theorem rowOut_eq_some {r : Rows} {memSize y b : Nat} :
    r.rowOut memSize y = some b ↔ r.len ≠ 0 ∧ memSize < r.addr y 0 + r.len ∧ b = max (r.addr y 0) memSize := by
  unfold Rows.rowOut
  split
  next h => simp; omega
  next h =>
    simp only [Option.some.injEq]
    omega

/-- Where a row leaves MEM is an address of the row. -/
theorem mem_addresses_of_rowOut {r : Rows} {memSize y b : Nat} (hy : y < r.count) (h : r.rowOut memSize y = some b) :
    b ∈ r.addresses ∧ memSize ≤ b := by
  obtain ⟨hlen, hout, rfl⟩ := rowOut_eq_some.mp h
  refine ⟨(r.mem_addresses _).2 ⟨y, hy, max (r.addr y 0) memSize - r.addr y 0, by omega, ?_⟩, le_max_right _ _⟩
  rw [Rows.addr_eq]
  omega

/-- An address outside MEM is at or above the place where its row leaves MEM. -/
theorem rowOut_of_mem_addresses {r : Rows} {memSize a : Nat} (ha : a ∈ r.addresses) (hout : memSize ≤ a) :
    ∃ y b, y < r.count ∧ r.rowOut memSize y = some b ∧ b ≤ a := by
  obtain ⟨y, hy, x, hx, rfl⟩ := (r.mem_addresses a).1 ha
  rw [Rows.addr_eq] at hout ⊢
  exact ⟨y, _, hy, rowOut_eq_some.mpr ⟨by omega, by omega, rfl⟩, by omega⟩

theorem checkFootprint_of_lowestOutside {s : State} {rs : List Rows} {a : Nat} (h : LowestOutside s rs a) :
    checkFootprint s rs = some ⟨.addrRange, BitVec.ofNat 32 a⟩ := by
  obtain ⟨hout, ⟨r, hr, ha⟩, hlowest⟩ := h
  obtain ⟨y, b, hy, hb, hba⟩ := rowOut_of_mem_addresses ha hout
  obtain ⟨hmem, hbout⟩ := mem_addresses_of_rowOut hy hb
  obtain rfl : b = a := Nat.le_antisymm hba (hlowest r hr b hmem hbout)
  have hmin : lowestOut s.config.memSize rs = some b := by
    simp only [lowestOut, List.min?_eq_some_iff, List.mem_flatMap, List.mem_filterMap, List.mem_range]
    refine ⟨⟨r, hr, y, hy, hb⟩, ?_⟩
    rintro c ⟨q, hq, z, hz, hc⟩
    obtain ⟨hcmem, hcout⟩ := mem_addresses_of_rowOut hz hc
    exact hlowest q hq c hcmem hcout
  rw [checkFootprint, hmin, Option.map_some]

theorem checkFootprint_of_inMem {s : State} {rs : List Rows} (h : InMem s rs) : checkFootprint s rs = none := by
  refine (checkFootprint_eq_none s rs).2 fun r hr y hy => ?_
  rcases Nat.eq_zero_or_pos r.len with hlen | hlen
  · exact .inl hlen
  · have hlast := h r hr (r.addr y (r.len - 1)) ((r.mem_addresses _).2 ⟨y, hy, r.len - 1, by omega, rfl⟩)
    rw [Rows.addr_eq] at hlast
    exact .inr (by omega)

theorem not_lowestOutside_of_empty {s : State} {rs : List Rows} {a : Nat} (h : ∀ r ∈ rs, r.len = 0 ∨ r.count = 0) :
    ¬ LowestOutside s rs a := by
  rintro ⟨-, ⟨r, hr, ha⟩, -⟩
  obtain ⟨y, hy, x, hx, -⟩ := (r.mem_addresses a).1 ha
  have := h r hr
  omega

/-- The check of a record: a single row (41_tables.md R140, R141). -/
theorem checkFootprint_record (s : State) (a : Nat) {n : Nat} (hn : 0 < n) :
    checkFootprint s [recordRows a n] =
      if s.config.memSize < a + n then some ⟨.addrRange, BitVec.ofNat 32 (max a s.config.memSize)⟩ else none := by
  split
  next hout =>
    refine checkFootprint_of_lowestOutside ⟨le_max_right _ _, ⟨_, List.mem_singleton_self _, ?_⟩, ?_⟩
    · exact ((recordRows a n).mem_addresses _).2 ⟨0, by simp [recordRows], max a s.config.memSize - a,
        by simp [recordRows]; omega, by simp [recordRows, Rows.addr]⟩
    · intro r hr b hb hbout
      obtain rfl := List.mem_singleton.1 hr
      obtain ⟨y, hy, x, hx, rfl⟩ := ((recordRows a n).mem_addresses b).1 hb
      simp only [recordRows, Rows.addr] at hbout ⊢
      omega
  next hin =>
    refine (checkFootprint_eq_none _ _).2 fun r hr y hy => .inr ?_
    obtain rfl := List.mem_singleton.1 hr
    simp only [recordRows, Rows.addr]
    omega

/-! ### Commands and their check -/

/-- UPSAMPLE's destination is empty with its source. -/
theorem upsampleRows_empty (m : UpsampleMode) {s : State} (h : (upsampleReads s).len = 0 ∨ (upsampleReads s).count = 0) :
    (upsampleRows m s).len = 0 ∨ (upsampleRows m s).count = 0 := by
  simp only [upsampleReads, upsampleRows] at h ⊢
  exact h.imp (fun h => by rw [h, Nat.zero_mul]) (fun h => by rw [h, Nat.zero_mul])

/-- COLOR_CONVERT's planes and its output all have the size of ARG4. -/
theorem colorFootprints_empty (m : ColorMode) {s : State} (h : argLow s 4 = 0 ∨ argHigh s 4 = 0) :
    ∀ q ∈ colorReads m s ++ [colorRows s], q.len = 0 ∨ q.count = 0 := by
  cases m <;> simp [colorReads, lumaRows, cbRows, crRows, colorRows, h]

/-- A command whose first check fails ends there; the one way past the check is an empty size, which has no address. -/
theorem exec_of_check_fails {i : Instr} {s : State} {r : Raised} (h : checkFootprint s (checkedRows i s) = some r)
    (hsize : ¬ ∀ q ∈ checkedRows i s, q.len = 0 ∨ q.count = 0) : exec i s = .next (faultEntry r s) := by
  cases i with
  | nop | startScan | huffDecode | receive | decodeBlock | endMcu | findMarker => simp [checkedRows] at hsize
  | loadDqt =>
    have hcheck : checkFootprint s [recordRows (argNat s 0) 65] = some r := h
    simp only [exec, execLoadDqt, hcheck]
  | loadDht =>
    have hcheck : checkFootprint s [recordRows (argNat s 0) 17] = some r := h
    simp only [exec, execLoadDht, hcheck]
  | idct =>
    have hcheck : checkFootprint s [idctRows s] = some r := h
    simp only [exec, execIdct, hcheck]
  | upsample m =>
    have hcheck : checkFootprint s [upsampleReads s, upsampleRows m s] = some r := h
    have hplane : ¬((upsampleReads s).len = 0 ∨ (upsampleReads s).count = 0) := fun hplane =>
      hsize (by simpa [checkedRows] using ⟨hplane, upsampleRows_empty m hplane⟩)
    simp only [exec, execUpsample, if_neg hplane, hcheck]
  | colorConvert m =>
    have hcheck : checkFootprint s (colorReads m s ++ [colorRows s]) = some r := h
    simp only [exec, execColorConvert, if_neg fun hempty => hsize (colorFootprints_empty m hempty), hcheck]

/-- Past its check a command that does not use the stream, LOAD_DHT apart, ends in another fault or in none. -/
theorem exec_of_check_passes {i : Instr} {s t : State} (h : checkFootprint s (checkedRows i s) = none)
    (hdht : i ≠ .loadDht) (hstream : usesStream i = false) (hs : s.fault = false) (hexec : exec i s = .next t) :
    t.fault = false ∨ t.faultCode ≠ 0x502 := by
  cases i with
  | nop | startScan => cases hexec; exact .inl hs
  | loadDht => exact absurd rfl hdht
  | huffDecode | receive | decodeBlock | endMcu | findMarker => cases hstream
  | loadDqt =>
    obtain ⟨t', h', hend⟩ := execLoadDqt_cases s
    obtain rfl : t' = t := Host.Outcome.next.inj (h'.symm.trans hexec)
    obtain ⟨r, hcheck, -⟩ | ⟨-, ⟨-, rfl⟩ | ⟨-, -, rfl⟩ | ⟨-, -, rfl⟩⟩ := hend
    · cases h.symm.trans hcheck
    · exact .inr (show FaultName.unsupportedPrecision.word ≠ 0x502 by decide)
    · exact .inr (show FaultName.badDqt.word ≠ 0x502 by decide)
    · exact .inl hs
  | idct =>
    obtain ⟨t', h', hend⟩ := execIdct_cases s
    obtain rfl : t' = t := Host.Outcome.next.inj (h'.symm.trans hexec)
    obtain ⟨r, hcheck, -⟩ | ⟨-, rfl⟩ := hend
    · cases h.symm.trans hcheck
    · exact .inl (by simpa using hs)
  | upsample m =>
    obtain ⟨t', h', hend⟩ := execUpsample_cases m s
    obtain rfl : t' = t := Host.Outcome.next.inj (h'.symm.trans hexec)
    obtain ⟨-, rfl⟩ | ⟨-, -, ⟨r, hcheck, -⟩ | ⟨-, rfl⟩⟩ := hend
    · exact .inl hs
    · cases h.symm.trans hcheck
    · exact .inl (by simpa using hs)
  | colorConvert m =>
    obtain ⟨t', h', hend⟩ := execColorConvert_cases m s
    obtain rfl : t' = t := Host.Outcome.next.inj (h'.symm.trans hexec)
    obtain ⟨-, rfl⟩ | ⟨-, -, ⟨r, hcheck, -⟩ | ⟨-, rfl⟩⟩ := hend
    · exact .inl hs
    · cases h.symm.trans hcheck
    · exact .inl (by simpa using hs)

/-! ### The obligation -/

/-- Settles O22: the check finds the lowest address outside MEM, and ADDR_RANGE comes from the check alone. -/
theorem footprintFault : Obligations.FootprintFault := by
  unfold Obligations.FootprintFault
  refine ⟨fun i s a h => ?fails, fun i s t hin hdht hstream hs => ?passes⟩
  case fails =>
    exact exec_of_check_fails (checkFootprint_of_lowestOutside h) fun hempty => not_lowestOutside_of_empty hempty h
  case passes => exact exec_of_check_passes (checkFootprint_of_inMem hin) hdht hstream hs

end Sys2Proof.Proofs
end

section
/-! SUPPORT. The table loads (41_tables.md R140–R146): the builder's loop goes through exactly when every length class fits,
and the two loads take the branch that their record calls for. -/
namespace Sys2Proof.Proofs

open Sys2Proof.Machine Sys2Proof.Safety

/-! ### The builder's loop by its length classes (41_tables.md R143) -/

section
variable {l u cnt : Nat} {acc : CodeAcc} (hu : acc.code = 2 * u) 
include hu

theorem assignLength_fits (h : 2 * u + cnt ≤ 2 ^ l) :
    ∃ acc', assignLength l cnt acc = .ok acc' ∧ acc'.code = 2 * (2 * u + cnt) := by
  simp only [assignLength, hu]
  rw [if_neg (by omega)]
  exact ⟨_, rfl, Nat.mul_comm _ _⟩

/-- A length class that overflows has codes, since the counter before it is within bounds. -/
theorem assignLength_overflows (hbound : 2 * u ≤ 2 ^ l) (h : 2 ^ l < 2 * u + cnt) :
    assignLength l cnt acc = .error ⟨.badCodeLengths, BitVec.ofNat 32 l⟩ := by
  simp only [assignLength, hu]
  rw [if_pos (by omega)]

end

theorem assignCodes_fits {l u : Nat} {counts : List Nat} {acc : CodeAcc} (hu : acc.code = 2 * u)
    (h : ∀ i, i < counts.length → (counts.take (i + 1)).foldl (fun u c => 2 * u + c) u ≤ 2 ^ (l + i)) :
    ∃ acc', assignCodes l counts acc = .ok acc' := by
  induction counts generalizing l u acc with
  | nil => exact ⟨acc, rfl⟩
  | cons cnt cs ih =>
    have hfirst : 2 * u + cnt ≤ 2 ^ l := h 0 (by simp)
    obtain ⟨acc1, h1, hcode⟩ := assignLength_fits hu hfirst
    simp only [assignCodes, h1]
    refine ih hcode fun i hi => ?_
    rw [show l + 1 + i = l + (i + 1) by omega]
    exact h (i + 1) (by simpa using hi)

/-- The first length class that overflows stops the loop. -/
theorem assignCodes_overflows {l u i : Nat} {counts : List Nat} {acc : CodeAcc} (hu : acc.code = 2 * u)
    (hbound : 2 * u ≤ 2 ^ l) (hi : i < counts.length)
    (hfit : ∀ j, j < i → (counts.take (j + 1)).foldl (fun u c => 2 * u + c) u ≤ 2 ^ (l + j))
    (hover : 2 ^ (l + i) < (counts.take (i + 1)).foldl (fun u c => 2 * u + c) u) :
    assignCodes l counts acc = .error ⟨.badCodeLengths, BitVec.ofNat 32 (l + i)⟩ := by
  induction counts generalizing l u acc i with
  | nil => simp at hi
  | cons cnt cs ih =>
    cases i with
    | zero => simp only [assignCodes, assignLength_overflows hu hbound hover, Nat.add_zero]
    | succ i =>
      have hfirst : 2 * u + cnt ≤ 2 ^ l := hfit 0 (by omega)
      obtain ⟨acc1, h1, hcode⟩ := assignLength_fits hu hfirst
      have hshift : ∀ j, l + (j + 1) = l + 1 + j := by omega
      rw [hshift] at hover ⊢
      simp only [assignCodes, h1]
      refine ih hcode (by rw [Nat.pow_succ]; omega) (by simpa using hi) (fun j hj => ?_) hover
      rw [← hshift]
      exact hfit (j + 1) (by omega)

/-! ### The builder (41_tables.md R142, R143) -/

section
variable {counts : List Nat} {sym : List Byte}

theorem buildHuffman_of_fits (hlen : counts.length = 16) (hfit : LengthsFit counts) : ∃ t, buildHuffman counts sym = .ok t := by
  obtain ⟨acc, hloop⟩ : ∃ acc, assignCodes 1 counts ⟨0, 0, [], [], []⟩ = .ok acc := by
    refine assignCodes_fits (u := 0) rfl fun i hi => ?_
    rw [Nat.add_comm 1]
    exact hfit (i + 1) (by omega) (by omega)
  rw [buildHuffman, hloop]
  exact ⟨_, rfl⟩

theorem buildHuffman_of_overflow (hlen : counts.length = 16) {l : Nat} (h : FirstOverflow counts l) :
    buildHuffman counts sym = .error ⟨.badCodeLengths, BitVec.ofNat 32 l⟩ := by
  obtain ⟨hpos, hl, hover, hfit⟩ := h
  obtain ⟨i, rfl⟩ : ∃ i, l = 1 + i := ⟨l - 1, by omega⟩
  have hloop : assignCodes 1 counts ⟨0, 0, [], [], []⟩ = .error ⟨.badCodeLengths, BitVec.ofNat 32 (1 + i)⟩ := by
    refine assignCodes_overflows (u := 0) rfl (Nat.zero_le _) (by omega) (fun j hj => ?_) ?_
    · rw [Nat.add_comm 1]
      exact hfit (j + 1) (by omega) (by omega)
    · rwa [Nat.add_comm i 1]
  rw [buildHuffman, hloop]

theorem buildHuffman_values {t : HuffTable} (h : buildHuffman counts sym = .ok t) : t.values = sym := by
  unfold buildHuffman at h
  split at h
  · cases h
  · cases h
    rfl

/-- Where the symbol at index `k` stands in the record, and its code below the bound of its length (41_tables.md R142, R143). -/
theorem symbol_bounds {t : HuffTable} (hrec : LegalRecord counts sym) (hb : buildHuffman counts sym = .ok t) {k : Nat}
    (hk : k < t.n) :
    1 ≤ sizeAt t k ∧ sizeAt t k ≤ 16 ∧ codeAt t k < 2 ^ sizeAt t k ∧ (counts.take (sizeAt t k - 1)).sum ≤ k ∧
      k < (counts.take (sizeAt t k)).sum := by
  obtain ⟨i, j, hi, hj, rfl⟩ := exists_classPosition_of_build hrec hb hk
  obtain ⟨-, hsize, hcode⟩ := symbol_of_classPosition hb hj
  have hlen : i < counts.length := by rwa [hrec.1]
  have hbound := codesUsed_le_of_build hrec hb (l := i + 1) (by omega) hi
  rw [codesUsed_succ hlen] at hbound
  rw [hsize, hcode, Nat.add_sub_cancel, List.take_succ_eq_append_getElem hlen, List.sum_append, List.sum_singleton,
    ← List.getD_eq_getElem _ 0 hlen]
  exact ⟨by omega, hi, by omega, by omega, by omega⟩

end

/-- Settles O29: the loop's check at a length is that of the code counter after it, and a symbol's place in its length class
gives the rest. -/
theorem builderAccepts : Obligations.BuilderAccepts := by
  unfold Obligations.BuilderAccepts
  intro counts sym hrec
  have hlen : counts.length = 16 := hrec.1
  refine ⟨⟨buildHuffman_of_fits hlen, fun ⟨t, hb⟩ l hpos hl => codesUsed_le_of_build hrec hb hpos hl⟩,
    fun l => buildHuffman_of_overflow hlen, fun t hb => ?built⟩
  exact ⟨(buildHuffman_ok hb).1, buildHuffman_values hb, built_size_length ⟨counts, sym, hrec, hb⟩,
    fun k hk => symbol_bounds hrec hb hk⟩

/-! ### The loads (41_tables.md R140, R141) -/

theorem recordCounts_length (m : Memory) (a : Nat) : (recordCounts m a).length = 16 := by
  simp [recordCounts, readBytes]

/-- Settles O26: the record's first byte and the check name one of LOAD_DQT's four ends. -/
theorem loadDqtOutcomes : Obligations.LoadDqtOutcomes := by
  unfold Obligations.LoadDqtOutcomes
  intro s
  have hcheck := checkFootprint_record s (argNat s 0) (n := 65) (by omega)
  refine ⟨fun hout => ?range, fun hin => ?inMem⟩
  case range =>
    rw [if_pos hout] at hcheck
    simp only [exec, execLoadDqt, hcheck]
  rw [if_neg (by omega)] at hcheck
  simp only [exec, execLoadDqt, hcheck]
  refine ⟨fun hprecision => ?precision, fun hprecision hslot => ?slot, fun tq htq => ?installed⟩
  case precision => exact if_pos hprecision
  case slot => exact (if_neg (not_not.2 hprecision)).trans (if_pos hslot)
  case installed =>
    have hhigh : highNibble (s.mem.read (argNat s 0)) = 0 := by rw [highNibble]; omega
    have hlow : lowNibble (s.mem.read (argNat s 0)) = tq.val := by rw [lowNibble]; omega
    have hfin : Fin.ofNat 4 tq.val = tq := Fin.ext (Nat.mod_eq_of_lt tq.isLt)
    refine ⟨quantBytes s.mem (argNat s 0), fun k => by simp [quantBytes, Vector.get_eq_getElem], ?_⟩
    simp only [hhigh, hlow, hfin, if_neg (not_lt.2 (Nat.le_of_lt_succ tq.isLt))]
    rfl

section
variable {s : State} (hheader : argNat s 0 + 17 ≤ s.config.memSize)
include hheader

theorem exec_loadDht_bad_slot
    (hslot : 1 < highNibble (s.mem.read (argNat s 0)) ∨ 3 < lowNibble (s.mem.read (argNat s 0))) :
    exec .loadDht s = .next (faultEntry ⟨.badDht, 1⟩ s) := by
  have hcheck := checkFootprint_record s (argNat s 0) (n := 17) (by omega)
  rw [if_neg (by omega)] at hcheck
  simp only [exec, execLoadDht, hcheck, if_pos hslot]

/-- LOAD_DHT of a header that names a slot goes on with the record's counts (41_tables.md R141). -/
theorem exec_loadDht_body
    (hslot : ¬(1 < highNibble (s.mem.read (argNat s 0)) ∨ 3 < lowNibble (s.mem.read (argNat s 0)))) :
    exec .loadDht s =
      .next (loadDhtBody (argNat s 0)
        (recordSlot (highNibble (s.mem.read (argNat s 0))) (lowNibble (s.mem.read (argNat s 0))))
        (recordCounts s.mem (argNat s 0)) s) := by
  have hcheck := checkFootprint_record s (argNat s 0) (n := 17) (by omega)
  rw [if_neg (by omega)] at hcheck
  simp only [exec, execLoadDht, hcheck, if_neg hslot]

end

/-- The symbols' check: past the header only their upper end can leave MEM. -/
theorem checkFootprint_symbols {s : State} {a : Nat} (ha : a ≤ s.config.memSize) (n : Nat) :
    checkFootprint s [recordRows a n] =
      if s.config.memSize < a + n then some ⟨.addrRange, BitVec.ofNat 32 s.config.memSize⟩ else none := by
  rcases Nat.eq_zero_or_pos n with rfl | hn
  · rw [if_neg (by omega)]
    exact (checkFootprint_eq_none _ _).2 fun r hr y hy => .inl (by rw [List.mem_singleton.1 hr]; rfl)
  · rw [checkFootprint_record s a hn, Nat.max_eq_right ha]

section
variable {s : State} {a : Nat} {slot : Fin 8} {counts : List Nat} (hheader : a + 17 ≤ s.config.memSize)
  (hn : counts.sum ≤ 256)
include hheader hn

theorem loadDhtBody_symbols_out (hout : s.config.memSize < a + 17 + counts.sum) :
    loadDhtBody a slot counts s = faultEntry ⟨.addrRange, BitVec.ofNat 32 s.config.memSize⟩ s := by
  have hsymbols := checkFootprint_symbols hheader counts.sum
  rw [if_pos hout] at hsymbols
  rw [loadDhtBody, if_neg (not_lt.2 hn), hsymbols]

section
variable (hin : a + 17 + counts.sum ≤ s.config.memSize)
include hin

omit hn in
theorem checkFootprint_symbols_in : checkFootprint s [recordRows (a + 17) counts.sum] = none := by
  rw [checkFootprint_symbols hheader, if_neg (not_lt.2 hin)]

/-- With its symbols in MEM the record goes to the builder: its table is installed. -/
theorem loadDhtBody_of_built {t : HuffTable} (ht : buildHuffman counts (readBytes s.mem (a + 17) counts.sum) = .ok t) :
    loadDhtBody a slot counts s =
      complete (BitVec.ofNat 32 (17 + counts.sum)) { s with ht := s.ht.set slot (some t) } := by
  simp only [loadDhtBody, if_neg (not_lt.2 hn), checkFootprint_symbols_in hheader hin, ht]

/-- With its symbols in MEM the record goes to the builder: its fault leaves the slot free. -/
theorem loadDhtBody_of_build_fault {r : Raised} (hr : buildHuffman counts (readBytes s.mem (a + 17) counts.sum) = .error r) :
    loadDhtBody a slot counts s = slotFault r slot s := by
  simp only [loadDhtBody, if_neg (not_lt.2 hn), checkFootprint_symbols_in hheader hin, hr]

end

end

/-- Settles O28: the check of the header, its class and id, the number of symbols, their check, and the builder, in turn. -/
theorem loadDhtFaults : Obligations.LoadDhtFaults := by
  unfold Obligations.LoadDhtFaults
  intro s n hsum
  refine ⟨fun hout => ?range, fun hheader => ⟨fun hslot => ?badSlot, fun hslot => ?body⟩⟩
  case range =>
    have hcheck := checkFootprint_record s (argNat s 0) (n := 17) (by omega)
    rw [if_pos hout] at hcheck
    simp only [exec, execLoadDht, hcheck]
  case badSlot => exact exec_loadDht_bad_slot hheader hslot
  have hlen := recordCounts_length s.mem (argNat s 0)
  rw [exec_loadDht_body hheader hslot]
  generalize recordCounts s.mem (argNat s 0) = counts at hsum hlen ⊢
  subst hsum
  refine ⟨fun hn => ?many, fun hn hout => ?symbols, fun hn hin l hover => ?lengths⟩
  case many => rw [loadDhtBody, if_pos hn]
  case symbols => rw [loadDhtBody_symbols_out hheader hn hout]
  case lengths =>
    rw [loadDhtBody_of_build_fault hheader hn hin (buildHuffman_of_overflow hlen hover)]
    exact ⟨_, _, recordSlot_val (by unfold highNibble; omega) (by unfold lowNibble; omega), rfl⟩

/-- Settles O27: none of LOAD_DHT's checks fails, and the builder accepts the record. -/
theorem loadDhtInstalls : Obligations.LoadDhtInstalls := by
  unfold Obligations.LoadDhtInstalls
  intro s slot n hin hh hl hslot hsum hn hfit
  have hheader : argNat s 0 + 17 ≤ s.config.memSize := by omega
  have hlen := recordCounts_length s.mem (argNat s 0)
  obtain rfl : slot = recordSlot (highNibble (s.mem.read (argNat s 0))) (lowNibble (s.mem.read (argNat s 0))) :=
    Fin.ext (hslot.trans (recordSlot_val hh hl).symm)
  rw [exec_loadDht_body hheader (by unfold highNibble lowNibble; omega)]
  generalize recordCounts s.mem (argNat s 0) = counts at hsum hlen hfit ⊢
  subst hsum
  obtain ⟨t, ht⟩ := buildHuffman_of_fits (sym := readBytes s.mem (argNat s 0 + 17) counts.sum) hlen hfit
  exact ⟨t, ht, by rw [loadDhtBody_of_built hheader hn hin ht]⟩

end Sys2Proof.Proofs
end

section
/-! SUPPORT. Refill (40_cursor.md R110–R114, R121): turn by turn, when it cannot fault, what it keeps, and where it faults. -/
namespace Sys2Proof.Proofs

open Sys2Proof.Machine Sys2Proof.Safety

/-! ### One turn (40_cursor.md R111) -/

/-- A turn at a data byte. -/
theorem refillByte_of_data {s : State} {c : Cursor} (hnomore : c.nomore = false) (h : Fetchable s c.bsPtr.toNat)
    (hdata : s.mem.read c.bsPtr.toNat ≠ 0xFF) :
    refillByte s c = .ok (s.mem.read c.bsPtr.toNat, { c with bsPtr := c.bsPtr + 1 }) := by
  rw [refillByte, if_neg (by simp [hnomore]), readStreamByte_of_fetchable h]
  exact if_neg hdata

/-- A turn leaves the valid bits and their count to the byte that is inserted after it. -/
theorem refillByte_bits {s : State} {c c1 : Cursor} {b : Byte} (h : refillByte s c = .ok (b, c1)) :
    c1.bitbuf = c.bitbuf ∧ c1.bitcnt = c.bitcnt := by
  obtain ⟨-, -, rfl⟩ | ⟨-, -, h1⟩ | ⟨c2, -, -, h1, h2⟩ | ⟨c2, c3, m, -, -, -, h1, h2, rfl⟩ := refillByte_ok h
  · exact ⟨rfl, rfl⟩
  · obtain ⟨-, -, -, rfl⟩ := readStreamByte_ok h1
    exact ⟨rfl, rfl⟩
  all_goals
    obtain ⟨-, -, -, rfl⟩ := readStreamByte_ok h1
    obtain ⟨-, -, -, rfl⟩ := readStreamByte_ok h2
    exact ⟨rfl, rfl⟩

theorem pushByte_bitcnt_toNat (b : Byte) {c : Cursor} (hlt : c.bitcnt.toNat < 24) :
    (pushByte b c).bitcnt.toNat = c.bitcnt.toNat + 8 := by
  rw [pushByte_bitcnt, BitVec.toNat_add]
  have h8 : (8 : BitVec 5).toNat = 8 := rfl
  omega

/-! ### The loop -/

section
variable {s : State} {c : Cursor}

theorem refillLoop_of_enough (n : Nat) (h : 24 ≤ c.bitcnt.toNat) : refillLoop s n c = .ok c := by
  cases n with
  | zero => rfl
  | succ n => rw [refillLoop, if_neg (by omega)]

theorem refillLoop_turn {n : Nat} {b : Byte} {c1 : Cursor} (hlt : c.bitcnt.toNat < 24) (h : refillByte s c = .ok (b, c1)) :
    refillLoop s (n + 1) c = refillLoop s n (pushByte b c1) := by
  rw [refillLoop, if_pos hlt, h]

theorem refillLoop_fault {n : Nat} {r : Raised} (hlt : c.bitcnt.toNat < 24) (h : refillByte s c = .error r) :
    refillLoop s (n + 1) c = .error r := by
  rw [refillLoop, if_pos hlt, h]

end

/-- Turns that cannot be needed change nothing: each brings 8 bits. -/
theorem refillLoop_succ {s : State} {n : Nat} {c : Cursor} (h : 24 ≤ c.bitcnt.toNat + 8 * n) :
    refillLoop s (n + 1) c = refillLoop s n c := by
  induction n generalizing c with
  | zero => exact refillLoop_of_enough 1 (by omega)
  | succ n ih =>
    rcases Nat.lt_or_ge c.bitcnt.toNat 24 with hlt | henough
    · cases hb : refillByte s c with
      | error r => rw [refillLoop_fault hlt hb, refillLoop_fault hlt hb]
      | ok p =>
        obtain ⟨b, c1⟩ := p
        obtain ⟨-, hcnt⟩ := refillByte_bits hb
        rw [refillLoop_turn hlt hb, refillLoop_turn hlt hb]
        refine ih ?_
        rw [pushByte_bitcnt_toNat b (by rwa [hcnt]), hcnt]
        omega
    · rw [refillLoop_of_enough _ henough, refillLoop_of_enough _ henough]

section
variable {s : State} {c : Cursor}

theorem refill_of_enough (h : 24 ≤ c.bitcnt.toNat) : refill s c = .ok c := refillLoop_of_enough 3 h

/-- A refill is a turn and a refill (40_cursor.md R111). -/
theorem refill_turn {b : Byte} {c1 : Cursor} (hlt : c.bitcnt.toNat < 24) (h : refillByte s c = .ok (b, c1)) :
    refill s c = refill s (pushByte b c1) := by
  obtain ⟨-, hcnt⟩ := refillByte_bits h
  have hpushed := pushByte_bitcnt_toNat b (c := c1) (by rwa [hcnt])
  rw [refill, refillLoop_turn hlt h]
  exact (refillLoop_succ (by omega)).symm

theorem refill_fault {r : Raised} (hlt : c.bitcnt.toNat < 24) (h : refillByte s c = .error r) : refill s c = .error r :=
  refillLoop_fault hlt h

end

/-! ### A refill that cannot fault (40_cursor.md R111, R114, R121) -/

/-- `n` turns cannot fault: a marker has been seen, or the two bytes that a turn fetches at most are there for each. -/
def TurnsReady (s : State) (n : Nat) (c : Cursor) : Prop :=
  c.nomore = true ∨ (c.bsPtr.toNat + 2 * n ≤ s.bsEnd.toNat ∧ c.bsPtr.toNat + 2 * n ≤ s.config.memSize)

theorem turnsReady_step {s : State} {n : Nat} {c : Cursor} (h : TurnsReady s (n + 1) c) :
    ∃ b c1, refillByte s c = .ok (b, c1) ∧ TurnsReady s n (pushByte b c1) := by
  cases hnomore : c.nomore with
  | true => exact ⟨_, _, refillByte_of_nomore s hnomore, .inl hnomore⟩
  | false =>
    obtain ⟨hend, hmem⟩ := h.resolve_left (by simp [hnomore])
    have hfirst : Fetchable s c.bsPtr.toNat := ⟨by omega, by omega⟩
    have hsecond : Fetchable s (c.bsPtr.toNat + 1) := ⟨by omega, by omega⟩
    have hone := toNat_add_one_of_fetchable hsecond
    have htwo : (c.bsPtr + 2).toNat = c.bsPtr.toNat + 2 := by
      have h2 : (2 : Word).toNat = 2 := rfl
      have hlt := s.bsEnd.isLt
      rw [BitVec.toNat_add]
      omega
    by_cases hff : s.mem.read c.bsPtr.toNat = 0xFF
    · rw [refillByte_of_ff hnomore hfirst hsecond hff]
      split
      · exact ⟨_, _, rfl, .inr ⟨by simp only [pushByte_bsPtr]; omega, by simp only [pushByte_bsPtr]; omega⟩⟩
      · exact ⟨_, _, rfl, .inl rfl⟩
    · exact ⟨_, _, refillByte_of_data hnomore hfirst hff,
        .inr ⟨by simp only [pushByte_bsPtr]; omega, by simp only [pushByte_bsPtr]; omega⟩⟩

theorem refillLoop_ready {s : State} {n : Nat} {c : Cursor} (h : TurnsReady s n c) : ∃ c', refillLoop s n c = .ok c' := by
  induction n generalizing c with
  | zero => exact ⟨c, rfl⟩
  | succ n ih =>
    rcases Nat.lt_or_ge c.bitcnt.toNat 24 with hlt | henough
    · obtain ⟨b, c1, hb, hready⟩ := turnsReady_step h
      rw [refillLoop_turn hlt hb]
      exact ih hready
    · exact ⟨c, refillLoop_of_enough _ henough⟩

/-- Where fewer than `n` bits are valid and the stream is ready for `n`, a refill succeeds. -/
theorem refill_of_streamReady {n : Nat} {s : State} (h : StreamReady n s) (hlt : s.cur.bitcnt.toNat < n) :
    ∃ c, refill s s.cur = .ok c :=
  refillLoop_ready (h.resolve_left (by omega))

/-! ### The bits that were valid (40_cursor.md R111) -/

theorem leadingBits_eq_toNat (w : Word) (n : Nat) : leadingBits w n = (w >>> (32 - n)).toNat := by
  rw [leadingBits, BitVec.toNat_ushiftRight, Nat.shiftRight_eq_div_pow]

/-- A byte is inserted below the valid bits. -/
theorem leadingBits_pushByte (b : Byte) {c : Cursor} {n : Nat} (hn : n ≤ c.bitcnt.toNat) (hlt : c.bitcnt.toNat < 24) :
    leadingBits (pushByte b c).bitbuf n = leadingBits c.bitbuf n := by
  have hbelow : (b.setWidth 32 <<< (24 - c.bitcnt.toNat)) >>> (32 - n) = 0 := by
    apply BitVec.eq_of_getLsbD_eq
    intro i hi
    have hbit : b.getLsbD (32 - n + i - (24 - c.bitcnt.toNat)) = false := BitVec.getLsbD_of_ge b _ (by omega)
    simp only [BitVec.getLsbD_ushiftRight, BitVec.getLsbD_shiftLeft, BitVec.getLsbD_setWidth, hbit, Bool.and_false]
    exact BitVec.getLsbD_zero.symm
  rw [leadingBits_eq_toNat, leadingBits_eq_toNat, pushByte_bitbuf, BitVec.ushiftRight_or_distrib, hbelow]
  exact congrArg BitVec.toNat BitVec.or_zero

theorem refill_keeps_bits {s : State} {c c' : Cursor} (h : refill s c = .ok c') :
    leadingBits c'.bitbuf c.bitcnt.toNat = leadingBits c.bitbuf c.bitcnt.toNat := by
  refine (refillLoop_induct
    (fun x => c.bitcnt.toNat ≤ x.bitcnt.toNat ∧ leadingBits x.bitbuf c.bitcnt.toNat = leadingBits c.bitbuf c.bitcnt.toNat)
    ?turn 3 ⟨le_rfl, rfl⟩ h).2
  intro x b x1 ⟨hcnt, hbits⟩ hlt hb
  obtain ⟨hbuf1, hcnt1⟩ := refillByte_bits hb
  rw [pushByte_bitcnt_toNat b (by rwa [hcnt1]), leadingBits_pushByte b (by rwa [hcnt1]) (by rwa [hcnt1]), hcnt1, hbuf1]
  exact ⟨by omega, hbits⟩

/-! ### Where a byte's bits go (40_cursor.md R111) -/

section
variable (b : Byte) {c : Cursor} (hlt : c.bitcnt.toNat < 24)
include hlt

/-- The inserted byte stands just below the valid bits, where BITBUF is 0. -/
theorem pushByte_bit_inserted (hzero : c.bitbuf <<< c.bitcnt.toNat = 0) {i : Nat} (hi : i < 8) :
    (pushByte b c).bitbuf.getLsbD (24 - c.bitcnt.toNat + i) = b.getLsbD i := by
  have hclear : c.bitbuf.getLsbD (24 - c.bitcnt.toNat + i) = false := by
    have hbit := congrArg (fun w : Word => w.getLsbD (24 + i)) hzero
    have hindex : 24 + i - c.bitcnt.toNat = 24 - c.bitcnt.toNat + i := by omega
    have hlow : ¬ 24 + i < c.bitcnt.toNat := by omega
    have hhigh : 24 + i < 32 := by omega
    simpa only [BitVec.getLsbD_shiftLeft, hindex, hlow, hhigh, decide_true, decide_false, Bool.not_false, Bool.true_and,
      BitVec.ofNat_eq_ofNat, BitVec.getLsbD_zero] using hbit
  have hindex : 24 - c.bitcnt.toNat + i - (24 - c.bitcnt.toNat) = i := by omega
  have hin : 24 - c.bitcnt.toNat + i < 32 := by omega
  have hlow : ¬ 24 - c.bitcnt.toNat + i < 24 - c.bitcnt.toNat := by omega
  have hi32 : i < 32 := by omega
  simp only [pushByte_bitbuf, BitVec.getLsbD_or, hclear, BitVec.getLsbD_shiftLeft, BitVec.getLsbD_setWidth, hindex, hin,
    hlow, hi32, decide_true, decide_false, Bool.not_false, Bool.true_and, Bool.false_or]

theorem pushByte_bit_kept {i : Nat} (hi : i < 24 - c.bitcnt.toNat ∨ 32 - c.bitcnt.toNat ≤ i) :
    (pushByte b c).bitbuf.getLsbD i = c.bitbuf.getLsbD i := by
  have hzero : (b.setWidth 32 <<< (24 - c.bitcnt.toNat)).getLsbD i = false := by
    rw [BitVec.getLsbD_shiftLeft]
    obtain hi | hi := hi
    · simp [hi]
    · rw [BitVec.getLsbD_setWidth, BitVec.getLsbD_of_ge b _ (by omega), Bool.and_false, Bool.and_false]
  rw [pushByte_bitbuf, BitVec.getLsbD_or, hzero, Bool.or_false]

end

/-- Settles O36: the turns, their readiness and what they keep, each by its own lemma. -/
theorem refillFills : Obligations.RefillFills := by
  unfold Obligations.RefillFills
  intro s
  refine ⟨fun hready => ?succeeds, fun c h => ⟨?enough, refill_keeps_bits h, fun hc => ?invariant⟩,
    fun c => ⟨refill_of_enough, fun hlt => ⟨fun b c1 => refill_turn hlt, fun r => refill_fault hlt⟩⟩,
    fun c => ⟨refillByte_of_nomore s, refillByte_of_data⟩, fun b c hlt hzero => ?byte⟩
  case succeeds =>
    rcases Nat.lt_or_ge s.cur.bitcnt.toNat 24 with hlt | henough
    · exact refill_of_streamReady hready hlt
    · exact ⟨_, refill_of_enough henough⟩
  case enough => exact refillLoop_enough 3 h (by omega)
  case invariant => exact refillLoop_induct CursorOk (fun x b x1 => refillTurn_cursorOk x b x1) 3 hc h
  case byte =>
    exact ⟨rfl, pushByte_bitcnt_toNat b hlt, fun i => pushByte_bit_inserted b hlt hzero, fun i => pushByte_bit_kept b hlt⟩

/-! ### The read-ahead (40_cursor.md R113, R121) -/

/-- NOMORE is 0, or BS_PTR stands just after the marker that is latched. -/
def LatchedAt (s : State) (c : Cursor) : Prop :=
  c.nomore = true → ∃ p : Nat, c.bsPtr.toNat = p + 2 ∧ s.mem.read p = 0xFF ∧ s.mem.read (p + 1) = c.markerCode ∧
    c.markerCode ≠ 0x00 ∧ c.markerValid = true

/-- A fetch that went through did not wrap BS_PTR. -/
theorem toNat_bsPtr_of_read {s : State} {c c1 : Cursor} {b : Byte} (h : readStreamByte s c = .ok (b, c1)) :
    c1.bsPtr.toNat = c.bsPtr.toNat + 1 := by
  obtain ⟨hend, -, -, rfl⟩ := readStreamByte_ok h
  have hlt := s.bsEnd.isLt
  exact BitVec.toNat_add_of_lt (by change _ + 1 < _; omega)

theorem latchedAt_turn {s : State} {c c1 : Cursor} {b : Byte} (hc : LatchedAt s c) (h : refillByte s c = .ok (b, c1)) :
    LatchedAt s (pushByte b c1) := by
  obtain ⟨-, -, rfl⟩ | ⟨hnomore, -, h1⟩ | ⟨c2, hnomore, -, h1, h2⟩ | ⟨c2, c3, m, -, -, hm, h1, h2, rfl⟩ := refillByte_ok h
  · exact hc
  · exact fun hlatched => by simp [readStreamByte_nomore h1, hnomore] at hlatched
  · exact fun hlatched => by simp [readStreamByte_nomore h2, readStreamByte_nomore h1, hnomore] at hlatched
  · intro _
    have hptr1 := toNat_bsPtr_of_read h1
    have hptr2 := toNat_bsPtr_of_read h2
    obtain ⟨-, -, hff, -⟩ := readStreamByte_ok h1
    obtain ⟨-, -, hcode, -⟩ := readStreamByte_ok h2
    exact ⟨c.bsPtr.toNat, by simp only [pushByte_bsPtr]; omega, hff.symm, by rw [← hptr1]; exact hcode.symm, hm, rfl⟩

/-- Settles O38: a turn latches a marker only with BS_PTR just after it, and no turn after that moves BS_PTR. -/
theorem readAheadBound : Obligations.ReadAheadBound := by
  unfold Obligations.ReadAheadBound
  intro s c c' hnomore h hlatched
  have hc : LatchedAt s c := fun h => by simp [hnomore] at h
  obtain ⟨p, hptr, hff, hcode, hne, hvalid⟩ :=
    refillLoop_induct (LatchedAt s) (fun x b x1 hx _ hb => latchedAt_turn hx hb) 3 hc h hlatched
  exact ⟨p, hptr, hff, hcode, hne, hvalid, hptr⟩

end Sys2Proof.Proofs
end

section
/-! SUPPORT. END_MCU's ends (44_scan.md R221–R224), and FIND_MARKER's search told by the address it stands at (40_cursor.md
R119): along a run of 0xFF, and in skip mode along the bytes in front of the first marker. -/
namespace Sys2Proof.Proofs

open Sys2Proof.Machine Sys2Proof.Safety

/-! ### END_MCU (44_scan.md R221, R222) -/

theorem countDown_of_le {todo : BitVec 16} (h : todo.toNat ≤ 1) : countDown todo = 0 := by
  have hcases : todo = 0 ∨ todo = 1 := by bv_omega
  obtain rfl | rfl := hcases <;> rfl

theorem countDown_of_ge {todo : BitVec 16} (h : 2 ≤ todo.toNat) : countDown todo = todo - 1 ∧ countDown todo ≠ 0 := by
  have hne : todo ≠ 0 := by bv_omega
  rw [countDown, if_neg hne]
  exact ⟨rfl, by bv_omega⟩

theorem restartLatched_iff (c : Cursor) :
    restartLatched c = true ↔ c.markerValid = true ∧ 0xD0 ≤ c.markerCode.toNat ∧ c.markerCode.toNat ≤ 0xD7 := by
  simp only [restartLatched, Bool.and_eq_true, decide_eq_true_eq, and_assoc]

section
variable {s : State}

theorem restartRefill_of_enough (h : s.cur.markerValid = true ∨ 24 ≤ s.cur.bitcnt.toNat) :
    restartRefill s s.cur = .ok s.cur := by
  rw [restartRefill]
  split
  · rfl
  · exact refillBelow_of_le (h.resolve_left ‹_›)

theorem restartRefill_of_refill (hvalid : s.cur.markerValid = false) (hlt : s.cur.bitcnt.toNat < 24) :
    restartRefill s s.cur = refill s s.cur := by
  rw [restartRefill, if_neg (by simp [hvalid]), refillBelow_of_lt hlt]

variable (hri : s.ri ≠ 0) (htodo : s.todo.toNat ≤ 1)
include hri htodo

/-- Where the count is used up, END_MCU is the restart point. -/
theorem exec_endMcu_restartPoint : exec .endMcu s = .next (restartPoint s) := by
  simp only [exec, execEndMcu, if_neg hri, countDown_of_le htodo, if_true]

theorem exec_endMcu_refill_fault {r : Raised} (h : restartRefill s s.cur = .error r) :
    exec .endMcu s = .next (streamFault r { s with todo := 0 }) := by
  rw [exec_endMcu_restartPoint hri htodo, restartPoint, h]
  exact congrArg _ (restartFault_eq r s (countDown_of_le htodo))

theorem exec_endMcu_restart {c : Cursor} (h : restartRefill s s.cur = .ok c) (hlatched : restartLatched c = true) :
    exec .endMcu s = .next (complete 1 (rearm c s)) := by
  rw [exec_endMcu_restartPoint hri htodo, restartPoint, h]
  simp only [hlatched, if_true]

theorem exec_endMcu_scanEnd {c : Cursor} (h : restartRefill s s.cur = .ok c) (hlatched : ¬ restartLatched c = true) :
    exec .endMcu s = .next (complete 2 { s with cur := c, todo := 0, scanEnd := true }) := by
  rw [exec_endMcu_restartPoint hri htodo, restartPoint, h]
  simp only [hlatched, countDown_of_le htodo]
  rfl

end

/-- Settles O53: the interval, the count, and at a restart point the refill and what it has latched. -/
theorem endMcuOutcomes : Obligations.EndMcuOutcomes := by
  unfold Obligations.EndMcuOutcomes
  intro s
  refine ⟨fun hri => ?noInterval, fun hri htodo => ?counted, fun hri htodo c hc => ?point,
    fun hri htodo hvalid hlt r hr => exec_endMcu_refill_fault hri htodo (restartRefill_of_refill hvalid hlt ▸ hr)⟩
  case noInterval => simp only [exec, execEndMcu, if_pos hri]
  case counted =>
    obtain ⟨hcount, hne⟩ := countDown_of_ge htodo
    simp only [exec, execEndMcu, if_neg hri, if_neg hne]
    rw [hcount]
  case point =>
    have hrefill : restartRefill s s.cur = .ok c := by
      obtain ⟨henough, rfl⟩ | ⟨hvalid, hlt, hr⟩ := hc
      · exact restartRefill_of_enough henough
      · exact restartRefill_of_refill hvalid hlt ▸ hr
    rw [← restartLatched_iff]
    exact ⟨exec_endMcu_restart hri htodo hrefill, exec_endMcu_scanEnd hri htodo hrefill⟩

/-! ### FIND_MARKER's search at an address (40_cursor.md R119) -/

/-- The cursor of the search with the next fetch at `a`: the latch is dropped. -/
def searchCursor (c : Cursor) (a : Nat) : Cursor :=
  { c with
    markerValid := false
    markerCode := if c.markerValid = true then 0xFF else c.markerCode
    bsPtr := BitVec.ofNat 32 a }

theorem searchCursor_of_valid {c : Cursor} (h : c.markerValid = true) : searchCursor c c.bsPtr.toNat = dropLatch c := by
  rw [searchCursor, if_pos h, BitVec.ofNat_toNat, BitVec.setWidth_eq]
  rfl

theorem searchCursor_of_not_valid {c : Cursor} (h : c.markerValid = false) : searchCursor c c.bsPtr.toNat = c := by
  obtain ⟨buf, cnt, nomore, valid, code, ptr⟩ := c
  obtain rfl : valid = false := h
  simp [searchCursor]

theorem searchCursor_bsPtr_toNat {c : Cursor} {a : Nat} (h : a < 2 ^ 32) : (searchCursor c a).bsPtr.toNat = a := by
  rw [searchCursor, BitVec.toNat_ofNat, Nat.mod_eq_of_lt h]

/-- The scan at the byte `x` with the next fetch at `a`. -/
def scanAt (s : State) (m : FindMode) (run : Bool) (x : Byte) (a : Nat) : Except Raised (Word × Cursor) :=
  scanMarker s m (s.bsEnd.toNat - a + 1) run x (searchCursor s.cur a)

section
variable {s : State} {a : Nat}

theorem readStreamByte_searchCursor (h : Fetchable s a) :
    readStreamByte s (searchCursor s.cur a) = .ok (s.mem.read a, searchCursor s.cur (a + 1)) := by
  obtain ⟨hend, hsize⟩ := h
  have ha : (searchCursor s.cur a).bsPtr.toNat = a := searchCursor_bsPtr_toNat (hend.trans s.bsEnd.isLt)
  rw [readStreamByte_of_fetchable (by rw [ha]; exact ⟨hend, hsize⟩), ha, searchCursor, searchCursor, BitVec.ofNat_add]
  rfl

theorem readStreamByte_fault {c : Cursor} {r : Raised} (h : FetchFault s c.bsPtr.toNat r) : readStreamByte s c = .error r := by
  rw [readStreamByte]
  obtain ⟨hend, rfl⟩ | ⟨hend, hsize, rfl⟩ := h
  · rw [if_pos hend, BitVec.ofNat_toNat, BitVec.setWidth_eq]
  · rw [if_neg (by omega), if_pos hsize, BitVec.ofNat_toNat, BitVec.setWidth_eq]

theorem readStreamByte_searchCursor_fault {r : Raised} (ha : a < 2 ^ 32) (h : FetchFault s a r) :
    readStreamByte s (searchCursor s.cur a) = .error r :=
  readStreamByte_fault (by rwa [searchCursor_bsPtr_toNat ha])

variable (m : FindMode) {run : Bool} {x : Byte}

/-- A byte of a fill run is passed over. -/
theorem scanAt_fill (h : Fetchable s a) : scanAt s m run 0xFF a = scanAt s m true (s.mem.read a) (a + 1) := by
  obtain ⟨hend, -⟩ := id h
  rw [scanAt, scanMarker, if_pos rfl, readStreamByte_searchCursor h, scanAt,
    show s.bsEnd.toNat - a = s.bsEnd.toNat - (a + 1) + 1 by omega]

/-- A run ends at a marker code. -/
theorem scanAt_found (hfill : x ≠ 0xFF) (hzero : x ≠ 0x00) :
    scanAt s m true x a = .ok (foundMarker x, searchCursor s.cur a) := by
  rw [scanAt, scanMarker, if_neg hfill, if_pos (by simpa using hzero)]

theorem scanAt_strict_zero : scanAt s .strict true 0x00 a = .ok (noMarker, searchCursor s.cur a) := rfl

/-- Skip mode passes over a data byte, and over the 0x00 that ends a run. -/
theorem scanAt_skip (hfill : x ≠ 0xFF) (hdata : run = true → x = 0x00) (h : Fetchable s a) :
    scanAt s .skip run x a = scanAt s .skip false (s.mem.read a) (a + 1) := by
  obtain ⟨hend, -⟩ := id h
  have hcode : ¬ (run && x != 0x00) = true := by simpa using hdata
  have hstrict : ¬ (run && FindMode.skip == FindMode.strict) = true := by simp
  rw [scanAt, scanMarker, if_neg hfill, if_neg hcode, if_neg hstrict, readStreamByte_searchCursor h, scanAt,
    show s.bsEnd.toNat - a = s.bsEnd.toNat - (a + 1) + 1 by omega]

section
variable {r : Raised} (ha : a < 2 ^ 32) (h : FetchFault s a r)
include ha h

theorem scanAt_fill_fault : scanAt s m run 0xFF a = .error r := by
  rw [scanAt, scanMarker, if_pos rfl, readStreamByte_searchCursor_fault ha h]

theorem scanAt_skip_fault (hdata : run = true → x ≠ 0xFF → x = 0x00) : scanAt s .skip run x a = .error r := by
  by_cases hfill : x = 0xFF
  · rw [hfill, scanAt_fill_fault .skip ha h]
  · have hcode : ¬ (run && x != 0x00) = true := by simpa using fun hrun => hdata hrun hfill
    have hstrict : ¬ (run && FindMode.skip == FindMode.strict) = true := by simp
    rw [scanAt, scanMarker, if_neg hfill, if_neg hcode, if_neg hstrict, readStreamByte_searchCursor_fault ha h]

end
end

/-! ### Where the search begins -/

section
variable {s : State} (m : FindMode)

theorem findMarker_of_latched (hvalid : s.cur.markerValid = true) (hcode : s.cur.markerCode ≠ 0xFF) :
    findMarker s m s.cur = .ok (foundMarker s.cur.markerCode, dropLatch s.cur) := by
  rw [findMarker, if_pos hvalid, if_neg hcode]

theorem findMarker_of_latched_fill (hvalid : s.cur.markerValid = true) (hcode : s.cur.markerCode = 0xFF) :
    findMarker s m s.cur = scanAt s m true 0xFF s.cur.bsPtr.toNat := by
  rw [findMarker, if_pos hvalid, if_pos hcode, scanAt, searchCursor_of_valid hvalid]
  rfl

section
variable (hvalid : s.cur.markerValid = false)
include hvalid

theorem findMarker_first_fault {r : Raised} (h : FetchFault s s.cur.bsPtr.toNat r) : findMarker s m s.cur = .error r := by
  rw [findMarker, if_neg (by simp [hvalid]), readStreamByte_fault h]

variable (h : Fetchable s s.cur.bsPtr.toNat)
include h

theorem readStreamByte_first :
    readStreamByte s s.cur = .ok (s.mem.read s.cur.bsPtr.toNat, searchCursor s.cur (s.cur.bsPtr.toNat + 1)) := by
  have hread := readStreamByte_searchCursor h
  rwa [searchCursor_of_not_valid hvalid] at hread

theorem findMarker_strict_data (hdata : s.mem.read s.cur.bsPtr.toNat ≠ 0xFF) :
    findMarker s .strict s.cur = .ok (noMarker, searchCursor s.cur (s.cur.bsPtr.toNat + 1)) := by
  rw [findMarker, if_neg (by simp [hvalid]), readStreamByte_first hvalid h]
  exact if_pos (by simpa using hdata)

/-- The first byte is scanned, if it is 0xFF or the mode skips. -/
theorem findMarker_first (hscan : s.mem.read s.cur.bsPtr.toNat = 0xFF ∨ m = .skip) :
    findMarker s m s.cur = scanAt s m false (s.mem.read s.cur.bsPtr.toNat) (s.cur.bsPtr.toNat + 1) := by
  obtain ⟨hend, -⟩ := id h
  have hnext : (searchCursor s.cur (s.cur.bsPtr.toNat + 1)).bsPtr.toNat = s.cur.bsPtr.toNat + 1 :=
    searchCursor_bsPtr_toNat (Nat.lt_of_le_of_lt hend s.bsEnd.isLt)
  rw [findMarker, if_neg (by simp [hvalid]), readStreamByte_first hvalid h, scanAt]
  simp only [scanFuel, hnext]
  refine if_neg ?_
  obtain hff | rfl := hscan
  · simp [hff]
  · simp

end

/-! ### A run of 0xFF -/

/-- After `n` bytes of a run the search stands inside it, if it has begun one. -/
theorem findMarker_fillRun {n : Nat} (hrun : FillRun s n) (hbegun : s.cur.markerValid = true ∨ 1 ≤ n) :
    ∃ run, findMarker s m s.cur = scanAt s m run 0xFF (s.cur.bsPtr.toNat + n) := by
  obtain ⟨hcode, hfill⟩ := hrun
  induction n with
  | zero =>
    have hvalid := hbegun.resolve_right (by omega)
    exact ⟨true, findMarker_of_latched_fill m hvalid (hcode hvalid)⟩
  | succ n ih =>
    obtain ⟨hfetch, hff⟩ := hfill n (by omega)
    by_cases hbefore : s.cur.markerValid = true ∨ 1 ≤ n
    · obtain ⟨run, hscan⟩ := ih hbefore fun j hj => hfill j (by omega)
      rw [hscan, scanAt_fill m hfetch, hff]
      exact ⟨true, rfl⟩
    · obtain ⟨hvalid, hn⟩ := not_or.1 hbefore
      obtain rfl : n = 0 := by omega
      rw [findMarker_first m (by simpa using hvalid) hfetch (.inl hff)]
      exact ⟨false, congrArg (fun x => scanAt s m false x _) hff⟩

/-- A run and the byte after it. -/
theorem findMarker_after_fillRun {n : Nat} (hrun : FillRun s n) (hbegun : s.cur.markerValid = true ∨ 1 ≤ n)
    (h : Fetchable s (s.cur.bsPtr.toNat + n)) :
    findMarker s m s.cur = scanAt s m true (s.mem.read (s.cur.bsPtr.toNat + n)) (s.cur.bsPtr.toNat + n + 1) := by
  obtain ⟨run, hscan⟩ := findMarker_fillRun m hrun hbegun
  rw [hscan, scanAt_fill m h]

/-- A run at whose end the fetch faults. -/
theorem findMarker_fillRun_fault {n : Nat} {r : Raised} (hrun : FillRun s n)
    (h : FetchFault s (s.cur.bsPtr.toNat + n) r) : findMarker s m s.cur = .error r := by
  by_cases hbegun : s.cur.markerValid = true ∨ 1 ≤ n
  · obtain ⟨run, hscan⟩ := findMarker_fillRun m hrun hbegun
    have hlt : s.cur.bsPtr.toNat + n < 2 ^ 32 := by
      rcases Nat.eq_zero_or_pos n with rfl | hn
      · exact s.cur.bsPtr.isLt
      · obtain ⟨⟨hend, -⟩, -⟩ := hrun.2 (n - 1) (by omega)
        have := s.bsEnd.isLt
        omega
    rw [hscan, scanAt_fill_fault m hlt h]
  · obtain ⟨hvalid, hn⟩ := not_or.1 hbegun
    obtain rfl : n = 0 := by omega
    exact findMarker_first_fault m (by simpa using hvalid) h

end

theorem fetchable_of_le {s : State} {a b : Nat} (h : Fetchable s b) (hab : a ≤ b) : Fetchable s a :=
  ⟨hab.trans_lt h.1, hab.trans_lt h.2⟩

theorem exec_findMarker_of_ok {s : State} {m : FindMode} {v : Word} {c : Cursor} (h : findMarker s m s.cur = .ok (v, c)) :
    exec (.findMarker m) s = .next (complete v { s with cur := c }) := by
  simp only [exec, execFindMarker, h, finishStream]

theorem exec_findMarker_of_error {s : State} {m : FindMode} {r : Raised} (h : findMarker s m s.cur = .error r) :
    exec (.findMarker m) s = .next (streamFault r s) := by
  simp only [exec, execFindMarker, h, finishStream]

/-- Settles O41: the latch, the first byte, and the byte that ends a run. -/
theorem findMarkerStrict : Obligations.FindMarkerStrict := by
  unfold Obligations.FindMarkerStrict
  intro s
  refine ⟨fun m hvalid hcode => exec_findMarker_of_ok (findMarker_of_latched m hvalid hcode),
    fun hvalid h hdata => ?data, fun n m hstart hfill h hend => ?run⟩
  case data =>
    rw [exec_findMarker_of_ok (findMarker_strict_data hvalid h hdata), searchCursor, BitVec.ofNat_add, BitVec.ofNat_toNat,
      BitVec.setWidth_eq, if_neg (by simp [hvalid]), ← hvalid]
    rfl
  case run =>
    have hrun : FillRun s n :=
      ⟨fun hvalid => (hstart.resolve_left (by simp [hvalid])).2,
        fun j hj => ⟨fetchable_of_le h (by omega), hfill j hj⟩⟩
    have hscan (m : FindMode) :=
      findMarker_after_fillRun m hrun (hstart.symm.imp And.left And.right) h
    have hcursor : searchCursor s.cur (s.cur.bsPtr.toNat + n + 1) =
        { s.cur with
          markerValid := false
          markerCode := if s.cur.markerValid = true then 0xFF else s.cur.markerCode
          bsPtr := s.cur.bsPtr + BitVec.ofNat 32 (n + 1) } := by
      rw [searchCursor, Nat.add_assoc, BitVec.ofNat_add, BitVec.ofNat_toNat, BitVec.setWidth_eq]
    rw [← hcursor]
    exact ⟨fun hcode => exec_findMarker_of_ok ((hscan m).trans (scanAt_found m hend hcode)),
      fun hzero => exec_findMarker_of_ok ((hscan .strict).trans (hzero ▸ scanAt_strict_zero))⟩

/-! ### Skip mode in front of the first marker -/

/-- The byte in front of `j` is a 0xFF that the search has passed since `p`. -/
def inRun (s : State) (p j : Nat) : Bool := decide (p < j ∧ s.mem.read (j - 1) = 0xFF)

/-- The byte in front of a byte that skip mode does not end at. -/
theorem inRun_data {s : State} {p j : Nat} (hmarker : ∀ i, p ≤ i → i + 1 = j → ¬ MarkerAt s i) (hrun : inRun s p j = true)
    (hfill : s.mem.read j ≠ 0xFF) : s.mem.read j = 0x00 := by
  obtain ⟨hp, hff⟩ := of_decide_eq_true hrun
  obtain ⟨i, rfl⟩ : ∃ i, j = i + 1 := ⟨j - 1, by omega⟩
  by_contra hzero
  exact hmarker i (by omega) rfl ⟨hff, hzero, hfill⟩

section
variable {s : State} {p : Nat} (hstart : SkipStart s p)
include hstart

theorem findMarker_skipStart (h : Fetchable s p) :
    findMarker s .skip s.cur = scanAt s .skip false (s.mem.read p) (p + 1) := by
  obtain ⟨hvalid, rfl⟩ | ⟨hvalid, n, hrun, hzero, hread, rfl⟩ := hstart
  · exact findMarker_first .skip hvalid h (.inr rfl)
  · rw [findMarker_after_fillRun .skip hrun (.inl hvalid) hzero, hread]
    exact scanAt_skip (by decide) (fun _ => rfl) h

theorem findMarker_skipStart_fault {r : Raised} (h : FetchFault s p r) : findMarker s .skip s.cur = .error r := by
  obtain ⟨hvalid, rfl⟩ | ⟨hvalid, n, hrun, hzero, hread, rfl⟩ := hstart
  · exact findMarker_first_fault .skip hvalid h
  · have hlt := s.bsEnd.isLt
    obtain ⟨hend, -⟩ := id hzero
    rw [findMarker_after_fillRun .skip hrun (.inl hvalid) hzero, hread]
    exact scanAt_skip_fault (by omega) h fun _ _ => rfl

/-- Skip mode comes to every byte up to the first marker's second. -/
theorem findMarker_skip_to {j : Nat} (hj : p ≤ j) (h : Fetchable s j) (hmarker : ∀ i, p ≤ i → i + 1 < j → ¬ MarkerAt s i) :
    findMarker s .skip s.cur = scanAt s .skip (inRun s p j) (s.mem.read j) (j + 1) := by
  induction j, hj using Nat.le_induction with
  | base =>
    rw [findMarker_skipStart hstart h, inRun, decide_eq_false (by omega)]
  | succ j hpj ih =>
    rw [ih (fetchable_of_le h (by omega)) fun i hi hij => hmarker i hi (by omega)]
    have hafter : inRun s p (j + 1) = decide (s.mem.read j = 0xFF) := by
      simp only [inRun, Nat.add_sub_cancel, Nat.lt_succ_of_le hpj, true_and]
    rw [hafter]
    by_cases hfill : s.mem.read j = 0xFF
    · rw [hfill, scanAt_fill .skip h]
      rfl
    · rw [decide_eq_false hfill]
      exact scanAt_skip hfill (fun hrun => inRun_data (fun i hi hij => hmarker i hi (by omega)) hrun hfill) h

/-- Skip mode with no marker in front of the byte whose fetch faults. -/
theorem findMarker_skip_fault {e : Nat} {r : Raised} (he : p ≤ e) (hfetch : ∀ a, p ≤ a → a < e → Fetchable s a)
    (hmarker : ∀ j, p ≤ j → j + 1 < e → ¬ MarkerAt s j) (h : FetchFault s e r) : findMarker s .skip s.cur = .error r := by
  rcases Nat.eq_or_lt_of_le he with rfl | hlt
  · exact findMarker_skipStart_fault hstart h
  · obtain ⟨j, rfl⟩ : ∃ j, e = j + 1 := ⟨e - 1, by omega⟩
    have hj := hfetch j (by omega) (by omega)
    have hend := s.bsEnd.isLt
    obtain ⟨hjend, -⟩ := id hj
    rw [findMarker_skip_to hstart (by omega) hj fun i hi hij => hmarker i hi (by omega)]
    exact scanAt_skip_fault (by omega) h (inRun_data fun i hi hij => hmarker i hi (by omega))

end

/-- Settles O42: skip mode comes to the marker's second byte inside a run, where the scan ends. -/
theorem findMarkerSkip : Obligations.FindMarkerSkip := by
  unfold Obligations.FindMarkerSkip
  intro s p0 p hstart hp h hat hfirst
  obtain ⟨hff, hzero, hfill⟩ := hat
  have hrun : inRun s p0 (p + 1) = true := decide_eq_true ⟨by omega, hff⟩
  have hscan := findMarker_skip_to hstart (by omega) h fun i hi hip => hfirst i hi (by omega)
  rw [hrun, scanAt_found .skip hfill hzero] at hscan
  exact exec_findMarker_of_ok hscan

end Sys2Proof.Proofs
end

section
/-! SUPPORT. The entropy decoder (42_entropy.md): the ends of RECEIVE, HUFF_DECODE and DECODE_BLOCK, and the AC loop turn by
turn. -/
namespace Sys2Proof.Proofs

open Sys2Proof.Machine Sys2Proof.Safety

/-! ### RECEIVE (42_entropy.md R172, R174) -/

section
variable {s : State} {n : BitVec 5} (hn : n.toNat ≤ 16)
include hn

theorem exec_receive_of_ok {v : Word} {c : Cursor} (h : receiveExtend s n.toNat s.cur = .ok (v, c)) :
    exec (.receive n) s = .next (complete v { s with cur := c }) := by
  simp only [exec, execReceive, if_neg (not_lt.2 hn), h, finishStream]

theorem exec_receive_of_error {r : Raised} (h : receiveExtend s n.toNat s.cur = .error r) :
    exec (.receive n) s = .next (streamFault r s) := by
  simp only [exec, execReceive, if_neg (not_lt.2 hn), h, finishStream]

end

/-- Settles O44: N of 0, N bits that are valid or that a refill brings, and N above 16. -/
theorem receiveResult : Obligations.ReceiveResult := by
  unfold Obligations.ReceiveResult
  intro n s
  refine ⟨fun hzero => ?zero, fun hpos hle henough => ?valid, fun hpos hle hlt hready => ?refilled, fun hbig => ?refused⟩
  case zero =>
    subst hzero
    exact exec_receive_of_ok (by decide) (receiveExtend_zero s s.cur)
  case valid =>
    obtain ⟨v, hv, hvalue⟩ := receiveExtend_value hpos hle (refillBelow_of_le (s := s) henough)
    exact ⟨v, hvalue, exec_receive_of_ok hle hv⟩
  case refilled =>
    obtain ⟨c, hc⟩ := refill_of_streamReady hready hlt
    obtain ⟨v, hv, hvalue⟩ := receiveExtend_value hpos hle ((refillBelow_of_lt hlt).trans hc)
    exact ⟨c, v, hc, hvalue, exec_receive_of_ok hle hv⟩
  case refused =>
    simp only [exec, execReceive, if_pos hbig]
    rfl

/-! ### HUFF_DECODE (42_entropy.md R170, R173) -/

section
variable {s : State} {t : HuffTable} {c : Cursor}

theorem decodeSymbol_of_enough (h : 16 ≤ c.bitcnt.toNat) : decodeSymbol s t c = lookupSymbol t c := by
  rw [decodeSymbol, refillBelow_of_le h]

theorem decodeSymbol_of_refill {c1 : Cursor} (hlt : c.bitcnt.toNat < 16) (h : refill s c = .ok c1) :
    decodeSymbol s t c = lookupSymbol t c1 := by
  rw [decodeSymbol, refillBelow_of_lt hlt, h]

theorem decodeSymbol_of_refill_fault {r : Raised} (hlt : c.bitcnt.toNat < 16) (h : refill s c = .error r) :
    decodeSymbol s t c = .error r := by
  rw [decodeSymbol, refillBelow_of_lt hlt, h]

end

section
variable {s : State} {i : Fin 8} {t : HuffTable} (ht : s.ht.get i = some t)
include ht

theorem exec_huffDecode_of_ok {v : Byte} {c : Cursor} (h : decodeSymbol s t s.cur = .ok (v, c)) :
    exec (.huffDecode i) s = .next (complete (v.setWidth 32) { s with cur := c }) := by
  simp only [exec, execHuffDecode, ht, h, Except.map, finishStream]

theorem exec_huffDecode_of_error {r : Raised} (h : decodeSymbol s t s.cur = .error r) :
    exec (.huffDecode i) s = .next (streamFault r s) := by
  simp only [exec, execHuffDecode, ht, h, Except.map, finishStream]

end

/-- No code matches: no symbol's code begins the bits. -/
theorem not_bitsBegin {t : HuffTable} {c : Cursor} (h : ∀ k, k < t.n → leadingBits c.bitbuf (sizeAt t k) ≠ codeAt t k) :
    ∀ k, ¬ BitsBegin t c k :=
  fun k hk => h k hk.1 hk.2

/-- Settles O45: DecodeSymbol is the lookup in the refilled cursor, and the lookup finds the code that begins the bits. -/
theorem huffDecodeResult : Obligations.HuffDecodeResult := by
  unfold Obligations.HuffDecodeResult
  refine ⟨fun s t c => ⟨decodeSymbol_of_enough, fun hlt c1 => decodeSymbol_of_refill hlt,
    fun hlt r => decodeSymbol_of_refill_fault hlt⟩, fun i t s ht hbuilt => ⟨fun k henough hk hbits => ?found,
    fun hlt hready => ?refilled, fun henough hnone => ?missing⟩⟩
  case found =>
    exact exec_huffDecode_of_ok ht ((decodeSymbol_of_enough henough).trans (lookupSymbol_of_begins hbuilt ⟨hk, hbits⟩))
  case refilled =>
    obtain ⟨c, hc⟩ := refill_of_streamReady hready hlt
    have hdecode := decodeSymbol_of_refill (t := t) hlt hc
    exact ⟨c, hc, fun k hk hbits => exec_huffDecode_of_ok ht (hdecode.trans (lookupSymbol_of_begins hbuilt ⟨hk, hbits⟩)),
      fun hnone => exec_huffDecode_of_error ht (hdecode.trans (lookupSymbol_of_none hbuilt (not_bitsBegin hnone)))⟩
  case missing =>
    exact exec_huffDecode_of_error ht
      ((decodeSymbol_of_enough henough).trans (lookupSymbol_of_none hbuilt (not_bitsBegin hnone)))

/-! ### The slots that DECODE_BLOCK names (42_entropy.md R175) -/

theorem eq_dcSlot {dc : Fin 4} {i : Fin 8} (h : i.val = dc.val) : i = dcSlot dc :=
  Fin.ext (by simp only [dcSlot, Fin.val_ofNat]; omega)

theorem eq_acSlot {ac : Fin 4} {i : Fin 8} (h : i.val = 4 + ac.val) : i = acSlot ac :=
  Fin.ext (by simp only [acSlot, Fin.val_ofNat]; omega)

/-- Settles O46: the slots are looked up in turn, before anything else. -/
theorem unboundTableFaults : Obligations.UnboundTableFaults := by
  unfold Obligations.UnboundTableFaults
  intro s
  refine ⟨fun i h => by simp only [exec, execHuffDecode, h], fun dc ac q c dcs acs hdcs hacs => ?_⟩
  rw [eq_dcSlot hdcs, eq_acSlot hacs]
  refine ⟨fun hdc => by simp only [exec, execDecodeBlock, hdc], fun hdc hac => ?ac, fun hdc hac hq => ?quant⟩
  case ac =>
    obtain ⟨tdc, hdc⟩ := Option.ne_none_iff_exists'.1 hdc
    simp only [exec, execDecodeBlock, hdc, hac]
  case quant =>
    obtain ⟨tdc, hdc⟩ := Option.ne_none_iff_exists'.1 hdc
    obtain ⟨tac, hac⟩ := Option.ne_none_iff_exists'.1 hac
    simp only [exec, execDecodeBlock, hdc, hac, hq]

/-! ### One turn of the AC loop (42_entropy.md R175–R178) -/

section
variable {s : State} {t : HuffTable} {q : Vector Byte 64} {b : BlockState}

theorem acStep_of_symbol_fault {r : Raised} (h : decodeSymbol s t b.cur = .error r) : acStep s t q b = .error r := by
  rw [acStep, h]

variable {rs : Byte} {c1 : Cursor} (h : decodeSymbol s t b.cur = .ok (rs, c1))
include h

/-- A symbol of size 0 other than ZRL ends the block. -/
theorem acStep_of_end (hsize : rs.toNat % 16 = 0) (hzrl : rs ≠ 0xF0) :
    acStep s t q b = .ok (⟨c1, b.coef, b.k + rs.toNat / 16⟩, true) := by
  simp only [acStep, h, hsize, ne_eq, hzrl, not_false_eq_true, and_self, if_true]

variable (hvalue : rs.toNat % 16 ≠ 0 ∨ rs = 0xF0)
include hvalue

theorem acStep_of_past (hpast : 63 < b.k + rs.toNat / 16) : acStep s t q b = .error ⟨.badHuffmanCode, 3⟩ := by
  have hgoes : ¬ (rs.toNat % 16 = 0 ∧ rs ≠ 0xF0) := by tauto
  simp only [acStep, h, if_neg hgoes, if_pos hpast]

theorem acStep_of_value_fault {r : Raised} (hle : b.k + rs.toNat / 16 ≤ 63)
    (hr : receiveExtend s (rs.toNat % 16) c1 = .error r) : acStep s t q b = .error r := by
  have hgoes : ¬ (rs.toNat % 16 = 0 ∧ rs ≠ 0xF0) := by tauto
  simp only [acStep, h, if_neg hgoes, if_neg (not_lt.2 hle), hr]

theorem acStep_of_value {v : Word} {c2 : Cursor} (hle : b.k + rs.toNat / 16 ≤ 63)
    (hv : receiveExtend s (rs.toNat % 16) c1 = .ok (v, c2)) :
    acStep s t q b =
      .ok (⟨c2, storeCoef s (b.k + rs.toNat / 16) (dequantize q (b.k + rs.toNat / 16) v) b.coef,
        b.k + rs.toNat / 16 + 1⟩, false) := by
  have hgoes : ¬ (rs.toNat % 16 = 0 ∧ rs ≠ 0xF0) := by tauto
  simp only [acStep, h, if_neg hgoes, if_neg (not_lt.2 hle), hv]

end

/-! ### The AC loop (42_entropy.md R175) -/

section
variable {s : State} {t : HuffTable} {q : Vector Byte 64} {n : Nat} {b b1 : BlockState}

theorem acLoop_of_done (h : 64 ≤ b.k) : acLoop s t q n b = .ok b := by
  cases n with
  | zero => rfl
  | succ n => rw [acLoop, if_neg (not_lt.2 h)]

theorem acLoop_fault {r : Raised} (hk : b.k < 64) (h : acStep s t q b = .error r) : acLoop s t q (n + 1) b = .error r := by
  rw [acLoop, if_pos hk, h]

theorem acLoop_end (hk : b.k < 64) (h : acStep s t q b = .ok (b1, true)) : acLoop s t q (n + 1) b = .ok b1 := by
  rw [acLoop, if_pos hk, h]

theorem acLoop_turn (hk : b.k < 64) (h : acStep s t q b = .ok (b1, false)) :
    acLoop s t q (n + 1) b = acLoop s t q n b1 := by
  rw [acLoop, if_pos hk, h]

/-- A turn that does not end the block moves on. -/
theorem lt_k_of_acStep (h : acStep s t q b = .ok (b1, false)) : b.k < b1.k := by
  obtain ⟨rs, c1, -, ⟨hlast, -⟩ | ⟨-, -, v, c2, -, rfl⟩⟩ := acStep_ok h
  · cases hlast
  · dsimp only
    omega

/-- Turns that cannot be needed change nothing. -/
theorem acLoop_succ (hk : 64 ≤ b.k + n) : acLoop s t q (n + 1) b = acLoop s t q n b := by
  induction n generalizing b with
  | zero => exact acLoop_of_done hk
  | succ n ih =>
    rcases Nat.lt_or_ge b.k 64 with hlt | hdone
    · cases hstep : acStep s t q b with
      | error r => rw [acLoop_fault hlt hstep, acLoop_fault hlt hstep]
      | ok p =>
        obtain ⟨b1, last⟩ := p
        cases last with
        | true => rw [acLoop_end hlt hstep, acLoop_end hlt hstep]
        | false =>
          have hmoves := lt_k_of_acStep hstep
          rw [acLoop_turn hlt hstep, acLoop_turn hlt hstep, ih (by omega)]
    · rw [acLoop_of_done hdone, acLoop_of_done hdone]

end

/-- Settles O49: a turn by its symbol, and the loop by its turns, of which those after the 63rd are never needed. -/
theorem acCoefficients : Obligations.AcCoefficients := by
  unfold Obligations.AcCoefficients
  refine ⟨fun s t q b => ⟨fun r => acStep_of_symbol_fault, fun rs c1 h => ⟨acStep_of_end h, acStep_of_past h,
    fun hvalue hle r => acStep_of_value_fault h hvalue hle, fun j v c2 hvalue hj hv => ?stores⟩⟩,
    fun s t q b hk => ⟨acLoop_of_done, fun hlt => ⟨fun r => acLoop_fault hlt, fun b1 => acLoop_end hlt,
      fun b1 h => ?goesOn⟩, fun n hn => ?enough⟩⟩
  case stores =>
    have hpos : Fin.ofNat 64 j.val = j := Fin.ext (Nat.mod_eq_of_lt j.isLt)
    rw [acStep_of_value h hvalue (by omega) hv, ← hj, storeCoef, dequantize]
    simp only [hpos]
  case goesOn =>
    have hmoves := lt_k_of_acStep h
    rw [acLoop_turn hlt h]
    exact (acLoop_succ (by omega)).symm
  case enough =>
    induction n, hn using Nat.le_induction with
    | base => rfl
    | succ n hle ih => rw [acLoop_succ (by omega), ih]

/-! ### DECODE_BLOCK by its parts (42_entropy.md R175) -/

section
variable {s : State} {t : HuffTable} {c : Cursor}

theorem decodeDc_of_symbol_fault {r : Raised} (h : decodeSymbol s t c = .error r) : decodeDc s t c = .error r := by
  rw [decodeDc, h]

theorem decodeDc_of_category {cat : Byte} {c1 : Cursor} (h : decodeSymbol s t c = .ok (cat, c1)) :
    decodeDc s t c = if 16 < cat.toNat then .error ⟨.badHuffmanCode, 2⟩ else receiveExtend s cat.toNat c1 := by
  rw [decodeDc, h]

end

/-- The block the AC loop begins with: the new predictor, dequantized, and zeros. -/
def dcBlock (q : Vector Byte 64) (pred : Word) (c : Cursor) : BlockState :=
  ⟨c, (Vector.replicate 64 0).set 0 (dequantize q 0 pred), 1⟩

section
variable {dc ac q c : Fin 4} {s : State} {tdc tac : HuffTable} {quant : Vector Byte 64}
  (hdc : s.ht.get (dcSlot dc) = some tdc) (hac : s.ht.get (acSlot ac) = some tac) (hq : s.qt.get q = some quant)
include hdc hac hq

theorem exec_decodeBlock_dc_fault {r : Raised} (h : decodeDc s tdc s.cur = .error r) :
    exec (.decodeBlock dc ac q c) s = .next (blockFault r c s) := by
  simp only [exec, execDecodeBlock, hdc, hac, hq, decodeBlockData, h]

variable {d : Word} {c1 : Cursor} (h : decodeDc s tdc s.cur = .ok (d, c1))
include h

theorem exec_decodeBlock_loop_fault {r : Raised}
    (hr : acLoop s tac quant 63 (dcBlock quant (s.dcpred.get c + d) c1) = .error r) :
    exec (.decodeBlock dc ac q c) s = .next (blockFault r c s) := by
  have hdata : decodeBlockData s tdc tac quant c = .error r := by
    rw [dcBlock] at hr
    simp only [decodeBlockData, h, hr]
  simp only [exec, execDecodeBlock, hdc, hac, hq, hdata]

theorem exec_decodeBlock_completes {b : BlockState}
    (hb : acLoop s tac quant 63 (dcBlock quant (s.dcpred.get c + d) c1) = .ok b) :
    exec (.decodeBlock dc ac q c) s =
      .next (complete (BitVec.ofNat 32 b.k)
        { s with cur := b.cur, dcpred := s.dcpred.set c (s.dcpred.get c + d), coef := b.coef }) := by
  have hdata : decodeBlockData s tdc tac quant c = .ok (s.dcpred.get c + d, b) := by
    rw [dcBlock] at hb
    simp only [decodeBlockData, h, hb]
  simp only [exec, execDecodeBlock, hdc, hac, hq, hdata]

end

/-! ### What the AC loop leaves (42_entropy.md section 3) -/

theorem zigzagTable_injective : ∀ i j : Fin 64, zigzagTable.get i = zigzagTable.get j → i = j := by decide

/-- The AC loop's invariant: k is in its range, and every zigzag position from k on is 0. -/
def ZeroFrom (b : BlockState) : Prop :=
  1 ≤ b.k ∧ b.k ≤ 77 ∧ ∀ j : Fin 64, b.k ≤ j.val → b.coef.get (zigzagTable.get j) = 0

theorem zeroFrom_dcBlock (q : Vector Byte 64) (pred : Word) (c : Cursor) : ZeroFrom (dcBlock q pred c) := by
  refine ⟨le_rfl, show 1 ≤ 77 by decide, fun j (hj : 1 ≤ j.val) => ?_⟩
  have hpos : j ≠ 0 := fun h => absurd (congrArg Fin.val h) (Nat.ne_of_gt hj)
  exact (get_set_other _ (i := 0) _ (zigzagTable_get_ne_zero j hpos)).trans (Vector.getElem_replicate _)

/-- A symbol that ends a block has a run of 14 at most, since 0xF0 is not one. -/
theorem run_le_of_end {rs : Byte} (hsize : rs.toNat % 16 = 0) (hzrl : rs ≠ 0xF0) : rs.toNat / 16 ≤ 14 := by
  have hne : rs.toNat ≠ 0xF0 := fun h => hzrl (BitVec.eq_of_toNat_eq h)
  have hlt := rs.isLt
  omega

theorem zeroFrom_acStep {s : State} (hzz : s.config.zigzag = zigzagTable) {t : HuffTable} {q : Vector Byte 64}
    {b b1 : BlockState} {last : Bool} (hb : ZeroFrom b) (hlt : b.k < 64) (h : acStep s t q b = .ok (b1, last)) :
    ZeroFrom b1 := by
  obtain ⟨hk, -, hzero⟩ := hb
  obtain ⟨rs, c1, -, ⟨-, hsize, hzrl, rfl⟩ | ⟨-, hle, v, c2, -, rfl⟩⟩ := acStep_ok h
  · have hrun := run_le_of_end hsize hzrl
    exact ⟨by dsimp only; omega, by dsimp only; omega, fun j hj => hzero j (by dsimp only at hj; omega)⟩
  · refine ⟨by dsimp only; omega, by dsimp only; omega, fun j hj => ?_⟩
    dsimp only at hj
    have hother : j ≠ Fin.ofNat 64 (b.k + rs.toNat / 16) := fun h => by
      have hval := congrArg Fin.val h
      simp only [Fin.val_ofNat] at hval
      omega
    have hne : s.config.zigzag.get (Fin.ofNat 64 (b.k + rs.toNat / 16)) ≠ zigzagTable.get j :=
      fun h => hother (zigzagTable_injective _ _ (hzz ▸ h)).symm
    exact (get_set_other _ _ hne.symm).trans (hzero j (by omega))

/-- Settles O48: the DC part and the command by their parts, and the AC loop's invariant for what a completed one leaves. -/
theorem decodeBlockOutcome : Obligations.DecodeBlockOutcome := by
  unfold Obligations.DecodeBlockOutcome
  refine ⟨fun s t c => ⟨fun r => decodeDc_of_symbol_fault, fun cat c1 h => ⟨fun hbig => ?bigCategory,
    fun hle => ?category⟩⟩, fun dc ac q c s tdc tac quant hdc hac hq => ⟨fun r => exec_decodeBlock_dc_fault hdc hac hq,
    fun d pred c1 b0 h hpred hb0 => ?parts⟩, fun dc ac q c s t hzz _ hexec hfault => ?completes⟩
  case bigCategory => rw [decodeDc_of_category h, if_pos hbig]
  case category => rw [decodeDc_of_category h, if_neg (not_lt.2 hle)]
  case parts =>
    subst hpred hb0
    exact ⟨fun r => exec_decodeBlock_loop_fault hdc hac hq h, fun b => exec_decodeBlock_completes hdc hac hq h⟩
  case completes =>
    obtain ⟨tdc, tac, quant, pred, b, hdc, hac, hq, hdata, rfl⟩ := decodeBlock_completes hexec hfault
    obtain ⟨d, c1, hd, rfl, hloop⟩ := decodeBlockData_ok hdata
    obtain ⟨hk, hmax, hzero⟩ :=
      acLoop_induct ZeroFrom (fun _ _ _ => zeroFrom_acStep hzz) 63 (zeroFrom_dcBlock quant (s.dcpred.get c + d) c1) hloop
    exact ⟨tdc, tac, quant, d, c1, b.k, hdc, hac, hq, hd, hk, hmax, rfl, decodeBlockData_coef_zero hzz hdata, hzero⟩

/-! ### A block in the valid bits (42_entropy.md section 2) -/

theorem consume_zero (c : Cursor) : consume 0 c = c := by
  rw [consume, BitVec.shiftLeft_zero, show c.bitcnt - BitVec.ofNat 5 0 = c.bitcnt from BitVec.sub_zero c.bitcnt]

theorem consume_bitcnt_toNat {n : Nat} {c : Cursor} (h : n ≤ c.bitcnt.toNat) :
    (consume n c).bitcnt.toNat = c.bitcnt.toNat - n := by
  have hlt := c.bitcnt.isLt
  have hn : (BitVec.ofNat 5 n).toNat = n := by rw [BitVec.toNat_ofNat]; omega
  rw [consume, BitVec.toNat_sub_of_le (by rw [BitVec.le_def]; omega), hn]

/-- ReceiveExtend of bits that are valid, N of 0 too. -/
theorem receiveExtend_of_enough {s : State} {n : Nat} {c : Cursor} (hn : n ≤ 16) (h : n ≤ c.bitcnt.toNat) :
    ∃ v : Word, receiveExtend s n c = .ok (v, consume n c) ∧
      v.toInt = if n = 0 then 0 else extended n (leadingBits c.bitbuf n) := by
  rcases Nat.eq_zero_or_pos n with rfl | hpos
  · exact ⟨0, by rw [receiveExtend_zero, consume_zero], rfl⟩
  · obtain ⟨v, hv, hvalue⟩ := receiveExtend_value hpos hn (refillBelow_of_le (s := s) h)
    exact ⟨v, hv, by rw [hvalue, if_neg (by omega), peek_eq_leadingBits]⟩

/-- DecodeSymbol of a code that is in the valid bits. -/
theorem decodeSymbol_of_begins {s : State} {t : HuffTable} (ht : Built t) {c : Cursor} {k : Nat} (h : 16 ≤ c.bitcnt.toNat)
    (hk : BitsBegin t c k) : decodeSymbol s t c = .ok (t.values.getD k 0, consume (sizeAt t k) c) :=
  (decodeSymbol_of_enough h).trans (lookupSymbol_of_begins ht hk)

/-- Settles O47: the category's code, the magnitude and the end-of-block code, each taken from the valid bits. -/
theorem decodeBlockDcOnly : Obligations.DecodeBlockDcOnly := by
  unfold Obligations.DecodeBlockDcOnly
  intro dc ac q c dcs acs tdc tac quant s k j size hdcs hacs hdc hac hq hbuiltDc hbuiltAc hk hbitsDc hsize hle henough hbits
    hj hbitsAc hend hzrl
  rw [eq_dcSlot hdcs] at hdc
  rw [eq_acSlot hacs] at hac
  have hcntDc := consume_bitcnt_toNat (n := sizeAt tdc k) (c := s.cur) (by omega)
  have hcntAc := consume_bitcnt_toNat (n := size) (c := consume (sizeAt tdc k) s.cur) (by omega)
  obtain ⟨d, hd, hvalue⟩ := receiveExtend_of_enough (s := s) (c := consume (sizeAt tdc k) s.cur) hle (by omega)
  have hdcPart : decodeDc s tdc s.cur = .ok (d, consume size (consume (sizeAt tdc k) s.cur)) := by
    rw [decodeDc_of_category (decodeSymbol_of_begins hbuiltDc henough ⟨hk, hbitsDc⟩), ← hsize, if_neg (not_lt.2 hle), hd]
  have hbuf : (consume size (consume (sizeAt tdc k) s.cur)).bitbuf = s.cur.bitbuf <<< (sizeAt tdc k + size) :=
    (BitVec.shiftLeft_add _ _ _).symm
  have hsymbol := decodeSymbol_of_begins (s := s) hbuiltAc (c := consume size (consume (sizeAt tdc k) s.cur)) (by omega)
    ⟨hj, by rw [hbuf]; exact hbitsAc⟩
  have hloop := acLoop_end (n := 62) (q := quant) (b := dcBlock quant (s.dcpred.get c + d) _) (show 1 < 64 by decide)
    (acStep_of_end hsymbol hend hzrl)
  exact ⟨d, s.dcpred.get c + d, hvalue, rfl, exec_decodeBlock_completes hdc hac hq hdcPart hloop⟩

end Sys2Proof.Proofs
end

section
/-! SUPPORT. The fetches that fault (40_cursor.md R110; 60_exceptions.md R288), in a turn of Refill and in every command that
fetches. -/
namespace Sys2Proof.Proofs

open Sys2Proof.Machine Sys2Proof.Safety

/-! ### In a turn (40_cursor.md R111) -/

section
variable {s : State} {c : Cursor} {r : Raised} (hnomore : c.nomore = false)
include hnomore

theorem refillByte_first_fault (h : FetchFault s c.bsPtr.toNat r) : refillByte s c = .error r := by
  rw [refillByte, if_neg (by simp [hnomore]), readStreamByte_fault h]

/-- After a 0xFF the second fetch can fault. -/
theorem refillByte_second_fault (hfirst : Fetchable s c.bsPtr.toNat) (hff : s.mem.read c.bsPtr.toNat = 0xFF)
    (h : FetchFault s (c.bsPtr.toNat + 1) r) : refillByte s c = .error r := by
  have hread := readStreamByte_of_fetchable hfirst
  have hptr := toNat_bsPtr_of_read hread
  have hsecond : readStreamByte s { c with bsPtr := c.bsPtr + 1 } = .error r := readStreamByte_fault (by rwa [hptr])
  rw [refillByte, if_neg (by simp [hnomore])]
  simp only [hread, hff, hsecond, if_true]

end

/-- Settles O39: the turn's fetches, the refill's fault in each command that refills, and FIND_MARKER's fetches after a run
and in skip mode. -/
theorem streamFetchFaults : Obligations.StreamFetchFaults := by
  unfold Obligations.StreamFetchFaults
  intro s r
  refine ⟨fun c hnomore hfetch => ?turn, fun hr => ⟨fun n hn hlt => ?receive, fun i t ht hlt => ?huffDecode,
    fun dc ac q c tdc tac quant hdc hac hq hlt => ?decodeBlock, fun hri htodo hvalid hlt => ?endMcu⟩,
    fun m n hrun h => exec_findMarker_of_error (findMarker_fillRun_fault m hrun h),
    fun p e hstart he hfetch hmarker h => exec_findMarker_of_error (findMarker_skip_fault hstart he hfetch hmarker h)⟩
  case turn =>
    have hturn : refillByte s c = .error r :=
      hfetch.elim (refillByte_first_fault hnomore) fun ⟨hfirst, hff, h⟩ => refillByte_second_fault hnomore hfirst hff h
    exact ⟨hturn, fun hlt => refill_fault hlt hturn⟩
  case receive =>
    exact exec_receive_of_error hn (receiveExtend_of_error (by omega) ((refillBelow_of_lt hlt).trans hr))
  case huffDecode => exact exec_huffDecode_of_error ht (decodeSymbol_of_refill_fault hlt hr)
  case decodeBlock =>
    exact exec_decodeBlock_dc_fault hdc hac hq (decodeDc_of_symbol_fault (decodeSymbol_of_refill_fault hlt hr))
  case endMcu =>
    exact exec_endMcu_refill_fault hri htodo ((restartRefill_of_refill hvalid hlt).trans hr)

end Sys2Proof.Proofs
end

section
/-! SUPPORT. Writes that go row by row (20_memory.md R76, R78), as IDCT, UPSAMPLE and COLOR_CONVERT make them; and the IDCT: its
store, and its two passes over the integers (43_idct.md). -/
namespace Sys2Proof.Proofs

open Sys2Proof.Machine Sys2Proof.Safety

/-! ### Writes row by row -/

/-- Each byte of a footprint written once in its turn: `g y x` to column x of row y. -/
def rowWrites (dest : Rows) (g : Nat → Nat → Byte) : List (Nat × Byte) :=
  (List.range dest.count).flatMap (fun y => (List.range dest.len).map (fun x => (dest.addr y x, g y x)))

section
variable {reads : List Rows} {dest : Rows}

theorem any_meets_of_apart (h : Apart reads dest) : reads.any (fun r => r.meets dest) = false :=
  List.any_eq_false.2 fun r hr => by simpa using Rows.meets_eq_false r dest (h r hr)

/-- Rows that meet themselves have a byte written twice: the first of row 1 is in row 0. -/
theorem selfMeets_of_writesOnce (h : WritesOnce dest) : dest.selfMeets = false := by
  by_contra hmeets
  simp only [Rows.selfMeets, Bool.not_eq_false, Bool.and_eq_true, decide_eq_true_eq] at hmeets
  obtain ⟨hcount, hstride⟩ := hmeets
  have haddr : dest.addr 1 0 = dest.addr 0 dest.stride := by simp [Rows.addr]
  have := h 0 (by omega) dest.stride hstride 1 hcount 0 (by omega) haddr
  omega

theorem writesOnce_of_stride (h : dest.len ≤ dest.stride) : WritesOnce dest := by
  have hmeets : dest.selfMeets = false := by simp [Rows.selfMeets, h]
  exact fun y hy x hx z hz w hw heq => dest.addr_injective hmeets hz hy hw hx heq

variable (g : Nat → Nat → Byte) (s : State)

theorem storeRows_read_written (h : Apart reads dest) {y x : Nat} (hy : y < dest.count) (hx : x < dest.len)
    (honce : WrittenOnce dest y x) : (storeRows reads dest (rowWrites dest g) s).mem.read (dest.addr y x) = g y x := by
  refine storeRows_read_once _ _ _ s _ _ (any_meets_of_apart h) (writeCount_rows _ _ dest.addr g y x hy hx honce) ?_
  simp only [rowWrites, List.mem_flatMap, List.mem_map, List.mem_range]
  exact ⟨y, hy, x, hx, rfl⟩

theorem storeRows_untouched : Untouched s (storeRows reads dest (rowWrites dest g) s) dest := by
  refine fun a ha => storeRows_read_other _ _ _ s a fun w hw => ?_
  simp only [rowWrites, List.mem_flatMap, List.mem_map, List.mem_range] at hw
  obtain ⟨y, hy, x, hx, rfl⟩ := hw
  exact fun h => ha ((dest.mem_addresses a).2 ⟨y, hy, x, hx, h⟩)

/-- No value is drawn where nothing overlaps. -/
theorem storeRows_draws (ws : List (Nat × Byte)) (h : Apart reads dest) (honce : WritesOnce dest) :
    (storeRows reads dest ws s).draws = s.draws := by
  obtain ⟨hmeets, -⟩ | ⟨-, hself, -⟩ | ⟨-, -, hstore⟩ := storeRows_cases reads dest ws s
  · simp [any_meets_of_apart h] at hmeets
  · simp [selfMeets_of_writesOnce honce] at hself
  · rw [hstore]

end

/-! ### IDCT's store (43_idct.md R204) -/

/-- IDCT with its block inside MEM: each byte that one sample alone is written to holds it. -/
theorem exec_idct_stores {s : State} (h : argNat s 0 + 7 * argLow s 1 + 8 ≤ s.config.memSize) :
    ∃ t, exec .idct s = .next t ∧
      t = complete 0 { s with mem := t.mem, idctBuf := t.idctBuf, draws := t.draws } ∧
      (∀ r c : Nat, r < 8 → c < 8 → WrittenOnce (idctRows s) r c →
        t.mem.read (argNat s 0 + r * argLow s 1 + c) = blockAt (idctBlock s.config.kernel s.coef) r c) ∧
      Untouched s t (idctRows s) := by
  have hcheck : checkFootprint s [idctRows s] = none := (checkFootprint_eq_none _ _).2 fun q hq y hy => by
    obtain rfl := List.mem_singleton.1 hq
    have hrow := Nat.mul_le_mul_right (argLow s 1) (Nat.le_of_lt_succ hy : y ≤ 7)
    exact .inr (by simp only [idctRows, Rows.addr]; omega)
  have hexec : exec .idct s = .next (complete 0 (freeIdctBuffer
      (storeRows [] (idctRows s) (rowWrites (idctRows s) (blockAt (idctBlock s.config.kernel s.coef))) s))) := by
    simp only [exec, execIdct, hcheck]
    rfl
  refine ⟨_, hexec, ?frame, fun r c hr hc honce => ?sample, ?rest⟩
  case frame =>
    rw [freeIdctBuffer, storeRows_frame]
    rfl
  case sample =>
    exact storeRows_read_written (blockAt (idctBlock s.config.kernel s.coef)) s (reads := []) (dest := idctRows s)
      (fun q hq => absurd hq List.not_mem_nil) hr hc honce
  case rest => exact storeRows_untouched (blockAt (idctBlock s.config.kernel s.coef)) s (reads := []) (dest := idctRows s)

/-- Settles O50: with a stride of 8 or more no byte is written twice. -/
theorem idctWritesBlock : Obligations.IdctWritesBlock := by
  unfold Obligations.IdctWritesBlock
  intro s hstride h
  obtain ⟨t, hexec, hframe, hsample, hrest⟩ := exec_idct_stores h
  exact ⟨t, hexec, hframe, fun r c hr hc => hsample r c hr hc (writesOnce_of_stride hstride r hr c hc), hrest⟩

/-- Settles O51, by the store of any stride. -/
theorem idctSelfOverlap : Obligations.IdctSelfOverlap := by
  unfold Obligations.IdctSelfOverlap
  exact fun s _ h => exec_idct_stores h

/-! ### The butterfly over the integers (43_idct.md R200) -/

/-- Each output of KERNEL_K12's butterfly is the word of the integer output: the words are the integers modulo 2^32, and the
constants multiplied out give the weights. -/
theorem butterflyK12_get (x : Nat → Word) (bias : Word) (o : Fin 8) :
    (butterflyK12 (Vector.ofFn (fun j : Fin 8 => x j.val)) bias).get o =
      ((k12Output (fun j => (x j).toInt) bias.toInt o.val : Int) : BitVec 32) := by
  have hcast (w : Word) : ((w.toInt : Int) : BitVec 32) = w := BitVec.ofInt_toInt
  simp only [k12Output, List.range, List.range.loop, List.map, List.sum_cons, List.sum_nil, Int.cast_add, Int.cast_mul, hcast]
  fin_cases o
  all_goals
    norm_num [butterflyK12, Vector.get, k12Weight, k12Even, k12Odd]
    ring

theorem butterflyK12_toInt (x : Nat → Word) (bias : Word) (o : Fin 8) :
    ((butterflyK12 (Vector.ofFn (fun j : Fin 8 => x j.val)) bias).get o).toInt =
      wrap32 (k12Output (fun j => (x j).toInt) bias.toInt o.val) := by
  rw [butterflyK12_get]
  exact BitVec.toInt_ofInt _

/-! ### The two passes (43_idct.md R201, R203) -/

section
variable {r c : Nat} (hr : r < 8) (hc : c < 8)
include hr hc

theorem blockAt_index : (Fin.ofNat 64 (8 * r + c)).val = 8 * r + c := Nat.mod_eq_of_lt (by omega)

theorem blockAt_row : (Fin.ofNat 8 ((Fin.ofNat 64 (8 * r + c)).val / 8)) = ⟨r, hr⟩ :=
  Fin.ext (by rw [blockAt_index hr hc, Fin.val_ofNat]; dsimp only; omega)

theorem blockAt_column : (Fin.ofNat 8 (Fin.ofNat 64 (8 * r + c)).val) = ⟨c, hc⟩ :=
  Fin.ext (by rw [blockAt_index hr hc, Fin.val_ofNat]; dsimp only; omega)

theorem verticalPass_toInt (coef : Vector Word 64) :
    (blockAt (verticalPass .k12 coef) r c).toInt =
      wrap32 (k12Output (fun j => (blockAt coef j c).toInt) 512 r) / 1024 := by
  have hword : blockAt (verticalPass .k12 coef) r c =
      ((butterflyK12 (blockColumn coef c) vbiasK12).get ⟨r, hr⟩).sshiftRight 10 := by
    simp only [blockAt, verticalPass, Vector.get_ofFn, blockAt_row hr hc, blockAt_column hr hc]
    rfl
  rw [hword, BitVec.toInt_sshiftRight, Int.shiftRight_eq_div_pow, blockColumn, butterflyK12_toInt (fun j => blockAt coef j c)]
  rfl

theorem horizontalPass_toNat (v : Vector Word 64) :
    (blockAt (horizontalPass .k12 v) r c).toNat =
      clamp255 (wrap32 (k12Output (fun j => (blockAt v r j).toInt) (257 * 65536) c) / 131072) := by
  have hbyte : blockAt (horizontalPass .k12 v) r c =
      clampByte (((butterflyK12 (blockRow v r) hbias).get ⟨c, hc⟩).sshiftRight 17) := by
    simp only [blockAt, horizontalPass, Vector.get_ofFn, blockAt_row hr hc, blockAt_column hr hc]
    rfl
  rw [hbyte, clampByte_toNat, BitVec.toInt_sshiftRight, Int.shiftRight_eq_div_pow, blockRow,
    butterflyK12_toInt (fun j => blockAt v r j)]
  rfl

end

/-! ### A DC-only block (43_idct.md section 4) -/

theorem k12Weight_zero : ∀ o, o < 8 → k12Weight o 0 = 4096 := by decide

/-- With the first sample alone an output is 4096 times it. -/
theorem k12Output_of_first {x : Nat → Int} (h : ∀ j, 1 ≤ j → j < 8 → x j = 0) (bias : Int) {o : Nat} (ho : o < 8) :
    k12Output x bias o = 4096 * x 0 + bias := by
  have hsum : ((List.range 8).map (fun j => k12Weight o j * x j)).sum = k12Weight o 0 * x 0 := by
    rw [List.range_succ_eq_map, List.map_cons, List.sum_cons, List.sum_eq_zero, add_zero]
    intro v hv
    simp only [List.map_map, List.mem_map, List.mem_range, Function.comp] at hv
    obtain ⟨j, hj, rfl⟩ := hv
    rw [h (j + 1) (by omega) (by omega), mul_zero]
  rw [k12Output, hsum, k12Weight_zero o ho]

theorem wrap32_of_bounds {x : Int} (hlow : -2 ^ 31 ≤ x) (hhigh : x < 2 ^ 31) : wrap32 x = x :=
  Int.bmod_eq_of_le (by omega) (by omega)

/-- The coefficients of a DC-only block. -/
def dcOnly (d : Word) : Vector Word 64 := (Vector.replicate 64 0).set 0 d

theorem blockAt_dcOnly_other (d : Word) {r c : Nat} (hr : r < 8) (hc : c < 8) (h : r ≠ 0 ∨ c ≠ 0) :
    blockAt (dcOnly d) r c = 0 := by
  have hne : Fin.ofNat 64 (8 * r + c) ≠ 0 := fun hzero => by
    have hval := congrArg Fin.val hzero
    rw [blockAt_index hr hc, Fin.val_zero] at hval
    omega
  exact (get_set_other _ (i := 0) d hne).trans (Vector.getElem_replicate _)

section
variable {d : Word} (hlow : -65536 < d.toInt) (hhigh : d.toInt < 65536)
include hlow hhigh

/-- The vertical pass of a DC-only block: 4·d in column 0, and 0 elsewhere. -/
theorem verticalPass_dcOnly {r c : Nat} (hr : r < 8) (hc : c < 8) :
    (blockAt (verticalPass .k12 (dcOnly d)) r c).toInt = if c = 0 then 4 * d.toInt else 0 := by
  have hcolumn : ∀ j, 1 ≤ j → j < 8 → (blockAt (dcOnly d) j c).toInt = 0 := fun j hj hj8 => by
    rw [blockAt_dcOnly_other d hj8 hc (.inl (by omega))]
    rfl
  rw [verticalPass_toInt hr hc, k12Output_of_first hcolumn 512 hr]
  split
  next hzero =>
    subst hzero
    have hfirst : (blockAt (dcOnly d) 0 0).toInt = d.toInt := rfl
    rw [hfirst, wrap32_of_bounds (by omega) (by omega)]
    omega
  next hne =>
    rw [blockAt_dcOnly_other d (by decide) hc (.inr hne)]
    rfl

/-- Every sample of a DC-only block. -/
theorem idctBlock_dcOnly (j : Fin 64) :
    ((idctBlock .k12 (dcOnly d)).get j).toNat = clamp255 ((d.toInt + 1028) / 8) := by
  have hr : j.val / 8 < 8 := by omega
  have hc : j.val % 8 < 8 := by omega
  have hj : j = Fin.ofNat 64 (8 * (j.val / 8) + j.val % 8) := Fin.ext (by rw [blockAt_index hr hc]; omega)
  have hrow : ∀ i, 1 ≤ i → i < 8 → (blockAt (verticalPass .k12 (dcOnly d)) (j.val / 8) i).toInt = 0 := fun i hi hi8 => by
    rw [verticalPass_dcOnly hlow hhigh hr hi8, if_neg (by omega)]
  have hsample := horizontalPass_toNat hr hc (verticalPass .k12 (dcOnly d))
  rw [k12Output_of_first hrow _ hc, verticalPass_dcOnly hlow hhigh hr (by decide), if_pos rfl,
    wrap32_of_bounds (by omega) (by omega)] at hsample
  rw [hj, idctBlock]
  refine hsample.trans (congrArg clamp255 ?_)
  omega

end

/-- Settles O52: the passes by the butterfly over the integers, and the DC-only block by its first column and row. -/
theorem idctArithmetic : Obligations.IdctArithmetic := by
  unfold Obligations.IdctArithmetic
  refine ⟨fun coef r c hr hc => ⟨verticalPass_toInt hr hc coef, horizontalPass_toNat hr hc _⟩,
    fun d j hlow hhigh => idctBlock_dcOnly hlow hhigh j, fun j => BitVec.eq_of_toNat_eq ?_⟩
  exact idctBlock_dcOnly (d := 0) (by decide) (by decide) j

end Sys2Proof.Proofs
end

section
/-! SUPPORT. UPSAMPLE (45_upsample.md) and COLOR_CONVERT (46_color.md): their stores as writes row by row, the filters with the
spec's clamped neighbours, the bounds of a filter, a pixel's four bytes, and YCC with the default coefficients. -/
namespace Sys2Proof.Proofs

open Sys2Proof.Machine Sys2Proof.Safety

/-! ### The neighbour is the spec's clamped index (45_upsample.md R240) -/

section
variable {i n : Nat} (hi : i < n)
include hi

theorem neighbour_even : neighbour (2 * i) n = clampIndex ((i : Int) - 1) n := by
  simp only [neighbour, clampIndex]
  split <;> omega

theorem neighbour_odd : neighbour (2 * i + 1) n = clampIndex ((i : Int) + 1) n := by
  simp only [neighbour, clampIndex]
  split <;> omega

end

theorem neighbour_lt {o n : Nat} (ho : o < n * 2) : neighbour o n < n := by
  simp only [neighbour]
  split <;> omega

/-! ### The filters (45_upsample.md R242, R243, R244) -/

theorem two_mul_div_two (i : Nat) : 2 * i / 2 = i := by omega

theorem two_mul_add_one_div_two (i : Nat) : (2 * i + 1) / 2 = i := by omega

section
variable (m : Memory) (p : Rows) (y : Nat) {i : Nat}

theorem sampleH_even (hi : i < p.len) : sampleH m p y (2 * i) =
    (3 * planeAt m p y i + planeAt m p y (clampIndex ((i : Int) - 1) p.len) + 2) / 4 := by
  rw [sampleH, two_mul_div_two, neighbour_even hi, blend]

theorem sampleH_odd (hi : i < p.len) : sampleH m p y (2 * i + 1) =
    (3 * planeAt m p y i + planeAt m p y (clampIndex ((i : Int) + 1) p.len) + 2) / 4 := by
  rw [sampleH, two_mul_add_one_div_two, neighbour_odd hi, blend]

theorem sampleV_even (x : Nat) (hi : i < p.count) : sampleV m p (2 * i) x =
    (3 * planeAt m p i x + planeAt m p (clampIndex ((i : Int) - 1) p.count) x + 2) / 4 := by
  rw [sampleV, two_mul_div_two, neighbour_even hi, blend]

theorem sampleV_odd (x : Nat) (hi : i < p.count) : sampleV m p (2 * i + 1) x =
    (3 * planeAt m p i x + planeAt m p (clampIndex ((i : Int) + 1) p.count) x + 2) / 4 := by
  rw [sampleV, two_mul_add_one_div_two, neighbour_odd hi, blend]

/-- The vertical blend of an output row, above or below its input row. -/
theorem verticalBlend_eq {j e f : Nat} (hj : j < p.count)
    (hef : e = 0 ∧ f = clampIndex ((j : Int) - 1) p.count ∨ e = 1 ∧ f = clampIndex ((j : Int) + 1) p.count) :
    verticalBlend m p (2 * j + e) = fun x => 3 * planeAt m p j x + planeAt m p f x := by
  funext x
  obtain ⟨rfl, rfl⟩ | ⟨rfl, rfl⟩ := hef
  · rw [Nat.add_zero, verticalBlend, two_mul_div_two, neighbour_even hj, blend]
  · rw [verticalBlend, two_mul_add_one_div_two, neighbour_odd hj, blend]

theorem sampleHV_even (hi : i < p.len) : sampleHV m p y (2 * i) =
    (3 * verticalBlend m p y i + verticalBlend m p y (clampIndex ((i : Int) - 1) p.len) + 8) / 16 := by
  rw [sampleHV, two_mul_div_two, neighbour_even hi, blend]

theorem sampleHV_odd (hi : i < p.len) : sampleHV m p y (2 * i + 1) =
    (3 * verticalBlend m p y i + verticalBlend m p y (clampIndex ((i : Int) + 1) p.len) + 8) / 16 := by
  rw [sampleHV, two_mul_add_one_div_two, neighbour_odd hi, blend]

end

/-! ### The bounds of a filter (45_upsample.md section 2) -/

/-- A 3:1 blend of samples between `lo` and `hi` is between four times them. -/
theorem blend_bounds {lo hi a b : Nat} (ha : lo ≤ a ∧ a ≤ hi) (hb : lo ≤ b ∧ b ≤ hi) :
    4 * lo ≤ blend a b ∧ blend a b ≤ 4 * hi := by
  simp only [blend]
  omega

/-- An output sample is an average, rounded, of input samples of the plane. -/
theorem upsampleSample_bounds {mode : UpsampleMode} {m : Memory} {p : Rows} {lo hi : Nat}
    (hplane : ∀ y x : Nat, y < p.count → x < p.len → lo ≤ planeAt m p y x ∧ planeAt m p y x ≤ hi) {y x : Nat}
    (hy : y < p.count * UpsampleMode.yFactor mode) (hx : x < p.len * UpsampleMode.xFactor mode) :
    lo ≤ upsampleSample mode m p y x ∧ upsampleSample mode m p y x ≤ hi := by
  have hblend {n o : Nat} (f : Nat → Nat) (ho : o < n * 2) {lo hi : Nat} (h : ∀ i, i < n → lo ≤ f i ∧ f i ≤ hi) :=
    blend_bounds (h (o / 2) (by omega)) (h (neighbour o n) (neighbour_lt ho))
  cases mode with
  | copy => exact hplane y x (by simpa [UpsampleMode.yFactor] using hy) (by simpa [UpsampleMode.xFactor] using hx)
  | h =>
    have hsum := hblend (planeAt m p y) hx fun i => hplane y i (by simpa [UpsampleMode.yFactor] using hy)
    simp only [upsampleSample, sampleH]
    omega
  | v =>
    have hsum := hblend (planeAt m p · x) hy fun i hi => hplane i x hi (by simpa [UpsampleMode.xFactor] using hx)
    simp only [upsampleSample, sampleV]
    omega
  | hv =>
    have hsum := hblend (verticalBlend m p y) hx fun i hi => hblend (planeAt m p · i) hy fun j hj => hplane j i hj hi
    simp only [upsampleSample, sampleHV]
    omega

/-- An output sample is a byte, as the input samples are. -/
theorem upsampleSample_lt {mode : UpsampleMode} {m : Memory} {p : Rows} {y x : Nat}
    (hy : y < p.count * UpsampleMode.yFactor mode) (hx : x < p.len * UpsampleMode.xFactor mode) :
    upsampleSample mode m p y x < 256 := by
  have hbyte (z w : Nat) : planeAt m p z w ≤ 255 := Nat.le_of_lt_succ (m.read (p.addr z w)).isLt
  have hbounds := upsampleSample_bounds (mode := mode) (lo := 0) (fun z w _ _ => ⟨Nat.zero_le _, hbyte z w⟩) hy hx
  omega

/-! ### UPSAMPLE's store (45_upsample.md R240) -/

/-- UPSAMPLE's end where its planes fit. -/
def upsampled (m : UpsampleMode) (s : State) : State :=
  complete 0 (storeRows [upsampleReads s] (upsampleRows m s)
    (rowWrites (upsampleRows m s) (fun y x => BitVec.ofNat 8 (upsampleSample m s.mem (upsampleReads s) y x))) s)

theorem exec_upsample_of_fits {m : UpsampleMode} {s : State} (h : UpsampleFits m s) :
    exec (.upsample m) s = .next (upsampled m s) := by
  obtain ⟨hwidth, hheight, hin⟩ := h
  have hsize : ¬ ((upsampleReads s).len = 0 ∨ (upsampleReads s).count = 0) := not_or.2 ⟨hwidth, hheight⟩
  simp only [exec, execUpsample, if_neg hsize, checkFootprint_of_inMem hin]
  rfl

theorem upsampled_draws {m : UpsampleMode} {s : State} (h : UpsampleReady m s) : (upsampled m s).draws = s.draws := by
  obtain ⟨-, hapart, honce⟩ := h
  exact storeRows_draws s _ hapart honce

/-- With planes apart a byte written once holds its sample. -/
theorem upsampled_outputIs {m : UpsampleMode} {s : State} (h : Apart [upsampleReads s] (upsampleRows m s)) {y x v : Nat}
    (hy : y < argHigh s 3 * UpsampleMode.yFactor m) (hx : x < argLow s 3 * UpsampleMode.xFactor m)
    (hv : upsampleSample m s.mem (upsampleReads s) y x = v) : OutputIs (upsampled m s).mem (upsampleRows m s) y x v := by
  intro honce
  have hread : (upsampled m s).mem.read ((upsampleRows m s).addr y x) =
      BitVec.ofNat 8 (upsampleSample m s.mem (upsampleReads s) y x) :=
    storeRows_read_written _ s h hy hx honce
  have hlt := upsampleSample_lt (mode := m) (m := s.mem) (p := upsampleReads s) hy hx
  rw [planeAt, hread, BitVec.toNat_ofNat, Nat.mod_eq_of_lt hlt, hv]

/-- Settles O55: the store of each mode, and its filter with the clamped neighbours. -/
theorem upsampleFilters : Obligations.UpsampleFilters := by
  unfold Obligations.UpsampleFilters
  refine ⟨fun m s hempty => ?empty, fun m s hfits => ⟨_, exec_upsample_of_fits hfits, ?frame,
    storeRows_untouched _ s, upsampled_draws, fun hapart => ⟨?copy, ?h, ?v, ?hv⟩⟩⟩
  case empty =>
    have hsize : (upsampleReads s).len = 0 ∨ (upsampleReads s).count = 0 := hempty
    simp only [exec, execUpsample, if_pos hsize]
  case frame =>
    rw [upsampled, storeRows_frame]
    rfl
  case copy =>
    rintro rfl y x hy hx
    exact upsampled_outputIs hapart (by simpa [UpsampleMode.yFactor] using hy) (by simpa [UpsampleMode.xFactor] using hx) rfl
  case h =>
    rintro rfl y i hy hi
    have hrow : y < argHigh s 3 * UpsampleMode.yFactor .h := by simpa [UpsampleMode.yFactor] using hy
    have hcolumn {e : Nat} (he : e < 2) : 2 * i + e < argLow s 3 * UpsampleMode.xFactor .h := by
      simp only [UpsampleMode.xFactor]; omega
    exact ⟨upsampled_outputIs hapart hrow (hcolumn (e := 0) (by decide)) (sampleH_even s.mem (upsampleReads s) y hi),
      upsampled_outputIs hapart hrow (hcolumn (by decide)) (sampleH_odd s.mem (upsampleReads s) y hi)⟩
  case v =>
    rintro rfl j x hj hx
    have hcolumn : x < argLow s 3 * UpsampleMode.xFactor .v := by simpa [UpsampleMode.xFactor] using hx
    have hrow {e : Nat} (he : e < 2) : 2 * j + e < argHigh s 3 * UpsampleMode.yFactor .v := by
      simp only [UpsampleMode.yFactor]; omega
    exact ⟨upsampled_outputIs hapart (hrow (e := 0) (by decide)) hcolumn (sampleV_even s.mem (upsampleReads s) x hj),
      upsampled_outputIs hapart (hrow (by decide)) hcolumn (sampleV_odd s.mem (upsampleReads s) x hj)⟩
  case hv =>
    rintro rfl j i e f hj hi hef g hg
    have hblend : verticalBlend s.mem (upsampleReads s) (2 * j + e) = g :=
      (verticalBlend_eq s.mem (upsampleReads s) hj hef).trans (funext hg).symm
    have hrow : 2 * j + e < argHigh s 3 * UpsampleMode.yFactor .hv := by simp only [UpsampleMode.yFactor]; omega
    rw [← hblend]
    have hcolumn {e : Nat} (he : e < 2) : 2 * i + e < argLow s 3 * UpsampleMode.xFactor .hv := by
      simp only [UpsampleMode.xFactor]; omega
    exact ⟨upsampled_outputIs hapart hrow (hcolumn (e := 0) (by decide)) (sampleHV_even s.mem (upsampleReads s) _ hi),
      upsampled_outputIs hapart hrow (hcolumn (by decide)) (sampleHV_odd s.mem (upsampleReads s) _ hi)⟩

/-- Settles O56: every byte of the output is a sample of the filter, which its bounds hold for. -/
theorem upsampleBounds : Obligations.UpsampleBounds := by
  unfold Obligations.UpsampleBounds
  rintro m s lo hi ⟨hfits, hapart, honce⟩ hplane
  refine ⟨_, exec_upsample_of_fits hfits, fun y x hy hx => ?_⟩
  rw [upsampled_outputIs hapart hy hx rfl (honce y hy x hx)]
  exact upsampleSample_bounds (p := upsampleReads s) hplane hy hx

/-! ### COLOR_CONVERT's store (46_color.md R260, R263) -/

/-- Byte `k` of a pixel in MEM. -/
def pixelByte (p : Pixel) (k : Nat) : Byte := (pixelWrites 0 p).getD k (0, 0) |>.2

/-- A row of pixels byte by byte. -/
theorem pixelWrites_row (dest : Rows) (y : Nat) (p : Nat → Pixel) (w : Nat) :
    (List.range w).flatMap (fun x => pixelWrites (dest.addr y (4 * x)) (p x)) =
      (List.range (4 * w)).map (fun i => (dest.addr y i, pixelByte (p (i / 4)) (i % 4))) := by
  induction w with
  | zero => rfl
  | succ w ih =>
    have hdiv (k : Nat) (hk : k < 4) : (4 * w + k) / 4 = w ∧ (4 * w + k) % 4 = k := by omega
    have hbytes : List.range (4 * (w + 1)) = List.range (4 * w) ++ (List.range 4).map (4 * w + ·) := List.range_add
    rw [List.range_succ, List.flatMap_append, ih, hbytes, List.map_append]
    congr 1
    have h0 := hdiv 0 (by decide)
    have h1 := hdiv 1 (by decide)
    have h2 := hdiv 2 (by decide)
    have h3 := hdiv 3 (by decide)
    simp only [List.flatMap_singleton, List.range, List.range.loop, List.map, h0, h1, h2, h3]
    rfl

/-- The byte COLOR_CONVERT writes to column i of row y. -/
def colorByte (m : ColorMode) (s : State) (y i : Nat) : Byte := pixelByte (colorPixel m s y (i / 4)) (i % 4)

theorem colorWrites_eq (m : ColorMode) (s : State) : colorWrites m s = rowWrites (colorRows s) (colorByte m s) := by
  rw [colorWrites, rowWrites]
  exact congrArg (List.flatMap · _) (funext fun y => pixelWrites_row (colorRows s) y (colorPixel m s y) (argLow s 4))

/-- COLOR_CONVERT's end where its regions fit. -/
def colorConverted (m : ColorMode) (s : State) : State :=
  complete 0 (storeRows (colorReads m s) (colorRows s) (rowWrites (colorRows s) (colorByte m s)) s)

theorem exec_colorConvert_of_fits {m : ColorMode} {s : State} (h : ColorFits m s) :
    exec (.colorConvert m) s = .next (colorConverted m s) := by
  obtain ⟨hwidth, hheight, hin⟩ := h
  simp only [exec, execColorConvert, if_neg (not_or.2 ⟨hwidth, hheight⟩), checkFootprint_of_inMem hin, colorWrites_eq]
  rfl

/-- With the planes apart from the output, byte `k` of a pixel stands where it is written once. -/
theorem colorConverted_read {m : ColorMode} {s : State} (h : Apart (colorReads m s) (colorRows s)) {y x : Nat}
    (hy : y < argHigh s 4) (hx : x < argLow s 4) {k : Nat} (hk : k < 4) (honce : WrittenOnce (colorRows s) y (4 * x + k)) :
    (colorConverted m s).mem.read (argNat s 3 + y * argNat s 6 + 4 * x + k) = pixelByte (colorPixel m s y x) k := by
  have hlen : 4 * x + k < (colorRows s).len := by simp only [colorRows]; omega
  have hread := storeRows_read_written (colorByte m s) s h (dest := colorRows s) hy hlen honce
  have hdiv : (4 * x + k) / 4 = x := by omega
  have hmod : (4 * x + k) % 4 = k := by omega
  rwa [colorByte, hdiv, hmod, Rows.addr, ← Nat.add_assoc] at hread

/-- A pixel read as a little-endian word. -/
theorem littleEndianValue_pixel {m : Memory} {a : Nat} {p : Pixel} (h : ∀ k, k < 4 → m.read (a + k) = pixelByte p k) :
    littleEndianValue m a 4 = 0xFF000000 + p.b.toNat * 65536 + p.g.toNat * 256 + p.r.toNat := by
  have h0 : m.read a = p.r := h 0 (by decide)
  have h1 : m.read (a + 1) = p.g := h 1 (by decide)
  have h2 : m.read (a + 1 + 1) = p.b := h 2 (by decide)
  have h3 : m.read (a + 1 + 1 + 1) = 0xFF := h 3 (by decide)
  have hend (b : Nat) : littleEndianValue m b 0 = 0 := rfl
  have hff : (0xFF : Byte).toNat = 255 := rfl
  rw [littleEndianValue_succ, littleEndianValue_succ, littleEndianValue_succ, littleEndianValue_succ, hend, h0, h1, h2, h3,
    hff]
  omega

/-- Settles O57: the store byte by byte, and the four bytes of each pixel. -/
theorem colorConvertPixels : Obligations.ColorConvertPixels := by
  unfold Obligations.ColorConvertPixels
  refine ⟨fun m s hempty => ?empty, fun m s hfits => ⟨_, exec_colorConvert_of_fits hfits, ?frame, storeRows_untouched _ s,
    storeRows_draws s _, fun hapart y x a hy hx ha => ⟨colorPixel m s y x, ?gray, ?ycc, ?bytes⟩⟩⟩
  case empty => simp only [exec, execColorConvert, if_pos hempty]
  case frame =>
    rw [colorConverted, storeRows_frame]
    rfl
  case gray =>
    rintro rfl
    rfl
  case ycc =>
    rintro rfl
    rfl
  case bytes =>
    have hread {k : Nat} (hk : k < 4) (honce : WrittenOnce (colorRows s) y (4 * x + k)) :=
      colorConverted_read hapart hy hx hk honce
    rw [ha]
    exact ⟨hread (k := 0) (by decide), hread (k := 1) (by decide), hread (k := 2) (by decide), hread (k := 3) (by decide),
      fun honce => littleEndianValue_pixel fun k hk => hread hk (honce k hk)⟩

/-! ### YCC with the default CSC_COEF (46_color.md R261) -/

/-- Settles O58: a channel is the clamped floor, and the chroma terms of the default coefficients do not wrap. -/
theorem colorArithmetic : Obligations.ColorArithmetic := by
  unfold Obligations.ColorArithmetic
  intro y cb cr
  have hr := chromaTerm_bounds (k := defaultCsc.rCr) (by decide) cr
  have hgCr := chromaTerm_bounds (k := defaultCsc.gCr) (by decide) cr
  have hgCb := chromaTerm_bounds (k := defaultCsc.gCb) (by decide) cb
  have hb := chromaTerm_bounds (k := defaultCsc.bCb) (by decide) cb
  have hg := neg_sub_toInt hgCr hgCb
  rw [yccPixel_eq]
  refine ⟨?red, ?green, ?blue⟩
  case red =>
    rw [colorChannel_toNat y (by omega) (by omega), chromaTerm_toInt (by decide)]
    rfl
  case green =>
    rw [colorChannel_toNat y (by omega) (by omega), hg, chromaTerm_toInt (by decide), chromaTerm_toInt (by decide)]
    refine congrArg (fun v : Int => clamp255 (v / 65536)) ?_
    have hCr : (defaultCsc.gCr.toNat : Int) = 46793 := rfl
    have hCb : (defaultCsc.gCb.toNat : Int) = 22544 := rfl
    rw [hCr, hCb]
    ring
  case blue =>
    rw [colorChannel_toNat y (by omega) (by omega), chromaTerm_toInt (by decide)]
    rfl

end Sys2Proof.Proofs
end
